-- ==== Sys2Proof/Word.lean ====
section
/-! DEFINITION. The widths of the block (spec/00_scope.md R7, spec/20_memory.md R60): bus words, 16-bit frame
fields, bytes, 64-bit time values and 25-bit window offsets. -/

namespace Sys2Proof

/-- A bus word, a register, a command word: 32 bits (R7). -/
abbrev Word := BitVec 32

/-- A 16-bit frame field (R7). -/
abbrev Half := BitVec 16

/-- A byte of a buffer. -/
abbrev Byte := BitVec 8

/-- A time value, 64-bit two's complement (R7). -/
abbrev Long := BitVec 64

/-- A byte offset in the register window (R60). -/
abbrev Offset := BitVec 25

end Sys2Proof
end

