-- ==== Sys2Proof/Config.lean ====
section
/-! DEFINITION. What an implementation fixes (spec/00_scope.md R6): the instance parameters, with the reference
instance, and the uninterpreted checksum functions. -/

namespace Sys2Proof

/-- Which checksum function the instance is built with (R6, R142, P6): the reference function CK_REF, or another
one, of which nothing is known. DESIGN CHOICE (log 2). -/
inductive ChecksumSel where
  | reference
  | custom (k : Nat)
  deriving DecidableEq, Repr

/-- A total function from byte sequences to 32-bit values about which nothing is assumed (R142). No body: a claim that
holds here holds for every such function (log 2). -/
opaque Config.customChecksum : Nat → List Byte → Word

/-- The parameters fixed when an instance is built (R6). `n`, `slotDuration` and `maxPayload` are N, SLOT_DURATION and
MAX_PAYLOAD. No rule depends on TIME_UNIT (here in picoseconds) or, inside the block, on BLOCK_BASE (log 1). -/
structure Params where
  n            : Nat
  slotDuration : Nat
  maxPayload   : Nat
  timeUnitPs   : Nat
  blockBase    : Nat
  checksum     : ChecksumSel
  deriving DecidableEq, Repr

/-- The reference instance (R6's last column). BLOCK_BASE has no reference value: 0 is a DESIGN CHOICE (log 1). -/
def Params.reference : Params :=
  { n := 10, slotDuration := 1000000000, maxPayload := 4096, timeUnitPs := 1000, blockBase := 0,
    checksum := .reference }

end Sys2Proof
end

