-- ==== Sys2Proof/Syntax.lean ====
section
/-! DEFINITION. The instructions of the block: one constructor per row of spec/opcode_table.json
(spec/30_encoding.md R93), each with the operand its word carries (R92). -/

namespace Sys2Proof

/-- The two places a word can be an instruction: the CMD register (format CMD, R90) and the TICK register (format TICK,
R91). -/
inductive Port where
  | cmd
  | tick
  deriving DecidableEq, Repr

/-- The commands and the tick (R93). The operand of the scheduler commands is ARG, zero-extended (R92). -/
inductive Instr where
  /-- CLK_COMPUTE, OPC 0x01 (R120). -/
  | clkCompute
  /-- CODEC_ENCODE, OPC 0x10 (R150). -/
  | codecEncode
  /-- CODEC_DECODE, OPC 0x11 (R160). -/
  | codecDecode
  /-- CODEC_VALIDATE, OPC 0x12 (R170). -/
  | codecValidate
  /-- SCHED_ALLOCATE, OPC 0x20 (R194). -/
  | schedAllocate (priority : Nat)
  /-- SCHED_ALLOC_CONSEC, OPC 0x21 (R210). -/
  | schedAllocConsec (count : Nat)
  /-- SCHED_RELEASE, OPC 0x22 (R215). -/
  | schedRelease (slotId : Nat)
  /-- SCHED_SNAPSHOT, OPC 0x23 (R225). -/
  | schedSnapshot
  /-- TICK: a word with bit 0 set written to the TICK register (R230); its other bits are ignored (log 19). -/
  | tick
  deriving DecidableEq, Repr

/-- The register an instruction's word is written to (R90, R91). -/
def Instr.port : Instr → Port
  | .clkCompute => .cmd
  | .codecEncode => .cmd
  | .codecDecode => .cmd
  | .codecValidate => .cmd
  | .schedAllocate _ => .cmd
  | .schedAllocConsec _ => .cmd
  | .schedRelease _ => .cmd
  | .schedSnapshot => .cmd
  | .tick => .tick

end Sys2Proof
end

