-- ==== Sys2Proof/Machine/State.lean ====
section
/-! DEFINITION. The architectural state (spec/10_state.md), the model's own turn list and read data, the reasons a step
can stop, and the state after reset (spec/70_reset_and_hazards.md R290). All plain data. -/

namespace Sys2Proof.Machine

open Sys2Proof

/-! ### Parts of the state -/

/-- The error kinds, in the order of their codes 1 to 12 (R260). Codes 10 and 11 are never produced (R261). -/
inductive ErrorKind where
  | invalidHeader
  | invalidFooter
  | checksumMismatch
  | lengthMismatch
  | tooShort
  | noSlotAvailable
  | insufficientConsecutiveSlots
  | invalidSlotId
  | invalidConfiguration
  | connectionClosed
  | timeout
  | illegalCommand
  deriving DecidableEq, Repr

/-- STATUS (R25): its fields; the reserved bits are no state and read 0. -/
structure Status where
  busy    : Bool
  err     : Bool
  overrun : Bool
  errcode : BitVec 8
  lastop  : BitVec 8
  deriving DecidableEq, Repr

/-- RES0..RES3 (R30). -/
structure Results where
  r0 : Word
  r1 : Word
  r2 : Word
  r3 : Word
  deriving DecidableEq, Repr

/-- A 32-byte node identifier as eight big-endian words, `w0` holding bytes 0 to 3 (R31, R61). -/
structure Ident where
  w0 : Word
  w1 : Word
  w2 : Word
  w3 : Word
  w4 : Word
  w5 : Word
  w6 : Word
  w7 : Word
  deriving DecidableEq, Repr

/-- The all-zero identifier (a legal one, R191; the owner of a Free record, R38). -/
def Ident.zero : Ident := ⟨0, 0, 0, 0, 0, 0, 0, 0⟩

/-- CLK_EPOCH, CLK_DUR and CLK_SLOTS (R29). -/
structure ClkRegs where
  epochLo : Word
  epochHi : Word
  durLo   : Word
  durHi   : Word
  slots   : Word
  deriving DecidableEq, Repr

/-- The TX frame registers (R32, R33). -/
structure TxRegs where
  slot   : Word
  fragId : Word
  total  : Half
  index  : Half
  flags  : Half
  len    : Word
  node   : Ident
  deriving DecidableEq, Repr

/-- The RX frame registers (R35 to R37). -/
structure RxRegs where
  slot    : Word
  fragId  : Word
  total   : Half
  index   : Half
  flags   : Half
  len     : Word
  cksum   : Word
  nodeLen : Word
  hdr0    : Word
  hdr1    : Word
  ftr0    : Word
  ftr1    : Word
  node    : Ident
  deriving DecidableEq, Repr

/-- The status of a slot record (R38). -/
inductive SlotStatus where
  | free
  | assigned
  deriving DecidableEq, Repr

/-- A slot record (R38). -/
structure SlotRecord where
  status            : SlotStatus
  owner             : Ident
  assignedAt        : Long
  carriedFragmentId : Word
  deriving DecidableEq, Repr

/-- The record of a Free slot (R38, R192). -/
def SlotRecord.freeRecord : SlotRecord :=
  { status := .free, owner := Ident.zero, assignedAt := 0, carriedFragmentId := 0 }

/-- The slot table T (R38): record i is slot i's. -/
abbrev Table := List SlotRecord

/-- A byte buffer (R41): a byte is listed exactly when its written mark is set; an unlisted byte has no value, so that
reading it faults (log 6). -/
abbrev Memory := List Host.Cell

/-- The canonical form: offsets strictly rising. (No listed byte can equal what an unlisted one reads as: that has no
value.) -/
abbrev Memory.wf (m : Memory) : Prop := m.Pairwise (fun c d => c.1 < d.1)

/-- The four buffers (R41, R63). -/
inductive Space where
  | txp
  | wire
  | rxp
  | snap
  deriving DecidableEq, Repr

/-- The width of a host access (R62): only `word` is supported. -/
inductive AccessSize where
  | byte
  | half
  | word
  | double
  | burst
  deriving DecidableEq, Repr

/-- One turn of an agent (R11, log 4): a host agent's or the tick driver's bus access, the engine's, or the outside world
asserting reset. -/
inductive Turn where
  /-- A bus read at a window offset (R240). -/
  | read (size : AccessSize) (off : Offset)
  /-- A bus write at a window offset (R241); a word write to TICK is the tick driver's turn (R230). -/
  | write (size : AccessSize) (off : Offset) (value : Word)
  /-- The engine's turn: it completes the pending command, if one is pending (R244). -/
  | engine
  /-- Reset is asserted (R290), with the word written to TICK at the same time, if one is (R291). -/
  | reset (tickWrite : Option Word)
  deriving DecidableEq, Repr

/-! ### Why a step stops -/

/-- The model faults (R268): places where the spec leaves the hardware's behaviour unspecified. Each is safe: the model
stops where the hardware goes on in a way the spec does not say. -/
inductive Fault where
  /-- Raised by a bus access R247 forbids while BUSY = 1. Safe. -/
  | busyHazard
  /-- Raised by a bus read, or by a command, that reads a buffer byte not written since reset (R64). Safe. -/
  | uninitRead
  /-- Raised by a bus access that is not 32 bits wide at an offset divisible by 4 (R62). Safe. -/
  | badAccess
  deriving DecidableEq, Repr

/-- The refusals. Each is safe: the model gives no behaviour. -/
inductive Refusal where
  /-- Raised by `exec` for an instruction without a meaning (none in this model). Safe. -/
  | notModelled (mnemonic : String)
  /-- Raised by `step` on an instance with a parameter outside its legal range (R6, P1 to P3). Safe. -/
  | illegalInstance
  deriving DecidableEq, Repr

/-! ### The state -/

/-- The machine. `pend` has a meaning only while BUSY = 1; what it holds otherwise is open (R42, U7) and the model's choice
(log 3). `params` are constants of the instance (R6, log 1); `turns` and `readData` are the model's own: the turns
of the agents still to come, oldest first (log 4), and what the last bus read returned (log 12). -/
structure State where
  params   : Params
  status   : Status
  pend     : Word
  ptr      : Word
  nowLo    : Word
  nowHi    : Word
  clk      : ClkRegs
  res      : Results
  nodeId   : Ident
  tx       : TxRegs
  wireLen  : Word
  rx       : RxRegs
  table    : Table
  txp      : Memory
  wire     : Memory
  rxp      : Memory
  snap     : Memory
  turns    : List Turn
  readData : Option Word
  deriving DecidableEq, Repr

/-- The state of an instance right after reset (R290, R40). PEND, unspecified there, is 0: DESIGN CHOICE (log 3). No turn is
to come and nothing has been read (log 4, log 12). -/
def State.resetOf (p : Params) : State :=
  { params   := p
    status   := { busy := false, err := false, overrun := false, errcode := 0x00, lastop := 0x00 }
    pend     := 0
    ptr      := 0
    nowLo    := 0
    nowHi    := 0
    clk      := { epochLo := 0, epochHi := 0, durLo := 0, durHi := 0, slots := 0 }
    res      := { r0 := 0, r1 := 0, r2 := 0, r3 := 0 }
    nodeId   := Ident.zero
    tx       := { slot := 0, fragId := 0, total := 0, index := 0, flags := 0, len := 0, node := Ident.zero }
    wireLen  := 0
    rx       := { slot := 0, fragId := 0, total := 0, index := 0, flags := 0, len := 0, cksum := 0, nodeLen := 0,
                  hdr0 := 0, hdr1 := 0, ftr0 := 0, ftr1 := 0, node := Ident.zero }
    table    := List.replicate p.n SlotRecord.freeRecord
    txp      := []
    wire     := []
    rxp      := []
    snap     := []
    turns    := []
    readData := none }

/-- The reference instance right after reset (R6, R290). -/
def State.reset : State := State.resetOf Params.reference

end Sys2Proof.Machine
end

