-- ==== Sys2Proof/Machine/Bytes.lean ====
section
/-! DEFINITION. Byte order, decided once: most significant byte first, on the wire and in bus words
(spec/20_memory.md R61; BE16, BE32 and uBE of spec/00_scope.md R9). -/

namespace Sys2Proof.Machine

open Sys2Proof

/-- BE32: the four bytes of a word, most significant first (R9). -/
def wordBytes (w : Word) : List Byte :=
  [w.extractLsb' 24 8, w.extractLsb' 16 8, w.extractLsb' 8 8, w.extractLsb' 0 8]

/-- BE16: the two bytes of a 16-bit field, most significant first (R9). -/
def halfBytes (h : Half) : List Byte := [h.extractLsb' 8 8, h.extractLsb' 0 8]

/-- uBE: the unsigned value of a byte sequence read most significant byte first (R9). -/
def beNat (bs : List Byte) : Nat := bs.foldl (fun acc b => acc * 256 + b.toNat) 0

/-- A 32-bit register loaded from bytes of the wire or of a buffer. -/
def beWord (bs : List Byte) : Word := BitVec.ofNat 32 (beNat bs)

/-- A 16-bit field loaded from bytes of the wire. -/
def beHalf (bs : List Byte) : Half := BitVec.ofNat 16 (beNat bs)

/-- The `n` bytes of a sequence from byte `off` on: `s[off .. off + n - 1]` (R8). -/
def slice (bs : List Byte) (off n : Nat) : List Byte := (bs.drop off).take n

/-- The 32 bytes of an identifier, byte 0 first (R31). -/
def Ident.bytes (x : Ident) : List Byte :=
  wordBytes x.w0 ++ wordBytes x.w1 ++ wordBytes x.w2 ++ wordBytes x.w3 ++ wordBytes x.w4 ++ wordBytes x.w5 ++
    wordBytes x.w6 ++ wordBytes x.w7

/-- The identifier of 32 bytes (R31). -/
def Ident.ofBytes (bs : List Byte) : Ident :=
  { w0 := beWord (slice bs 0 4), w1 := beWord (slice bs 4 4), w2 := beWord (slice bs 8 4),
    w3 := beWord (slice bs 12 4), w4 := beWord (slice bs 16 4), w5 := beWord (slice bs 20 4),
    w6 := beWord (slice bs 24 4), w7 := beWord (slice bs 28 4) }

/-- Word `j` of an identifier, the content of its register j (R31). -/
def Ident.word (x : Ident) : Fin 8 → Word
  | 0 => x.w0
  | 1 => x.w1
  | 2 => x.w2
  | 3 => x.w3
  | 4 => x.w4
  | 5 => x.w5
  | 6 => x.w6
  | 7 => x.w7

/-- An identifier with its register `j` written (R241). -/
def Ident.setWord (x : Ident) (j : Fin 8) (v : Word) : Ident :=
  match j with
  | 0 => { x with w0 := v }
  | 1 => { x with w1 := v }
  | 2 => { x with w2 := v }
  | 3 => { x with w3 := v }
  | 4 => { x with w4 := v }
  | 5 => { x with w5 := v }
  | 6 => { x with w6 := v }
  | 7 => { x with w7 := v }

/-- The number of trailing zero bytes of a sequence (R36). -/
def trailingZeros (bs : List Byte) : Nat := (bs.reverse.takeWhile (fun b => b == 0)).length

/-- The length of an identifier field trimmed of trailing zero bytes (R36, R162). -/
def trimmedLen (bs : List Byte) : Nat := 32 - trailingZeros bs

end Sys2Proof.Machine
end

