-- ==== Sys2Proof/WellFormed.lean ====
section
/-! DEFINITION. Which instructions have an encoding: ARG is 24 bits wide (spec/30_encoding.md R90, R92). -/

namespace Sys2Proof

/-- The operand of a scheduler command fits ARG, 0 to 16 777 215 (R92). -/
def Instr.WellFormed : Instr → Bool
  | .clkCompute => true
  | .codecEncode => true
  | .codecDecode => true
  | .codecValidate => true
  | .schedAllocate priority => decide (priority < 2 ^ 24)
  | .schedAllocConsec count => decide (count < 2 ^ 24)
  | .schedRelease slotId => decide (slotId < 2 ^ 24)
  | .schedSnapshot => true
  | .tick => true

end Sys2Proof
end

