-- ==== Sys2Proof/Decode.lean ====
section
/-! DEFINITION. Decoding a word written to CMD or to TICK, total, each rejection by its own name
(spec/30_encoding.md R90 to R95), and the encoder of the same formats. -/

namespace Sys2Proof

/-- Why a word is no instruction. -/
inductive DecodeError where
  /-- A CMD word whose OPC is not in the opcode map (R94, R95). -/
  | unassignedOpcode
  /-- A CMD word of a command whose ARG is reserved, with ARG not 0 (R94). -/
  | reservedArgument
  /-- A TICK word with bit 0 clear: it requests nothing (R91). -/
  | noTickRequest
  deriving DecidableEq, Repr

/-- OPC, bits 7:0 of a command word (R90). -/
def opcOf (w : Word) : BitVec 8 := w.extractLsb' 0 8

/-- ARG, bits 31:8 of a command word (R90). -/
def argOf (w : Word) : BitVec 24 := w.extractLsb' 8 24

/-- A command whose ARG must be 0 (R92, R94). -/
def withoutArg (i : Instr) (w : Word) : Except DecodeError Instr :=
  if argOf w = 0 then .ok i else .error .reservedArgument

/-- A word written to CMD (R93, R94). -/
def decodeCmd (w : Word) : Except DecodeError Instr :=
  if opcOf w = 0x01 then withoutArg .clkCompute w
  else if opcOf w = 0x10 then withoutArg .codecEncode w
  else if opcOf w = 0x11 then withoutArg .codecDecode w
  else if opcOf w = 0x12 then withoutArg .codecValidate w
  else if opcOf w = 0x20 then .ok (.schedAllocate (argOf w).toNat)
  else if opcOf w = 0x21 then .ok (.schedAllocConsec (argOf w).toNat)
  else if opcOf w = 0x22 then .ok (.schedRelease (argOf w).toNat)
  else if opcOf w = 0x23 then withoutArg .schedSnapshot w
  else .error .unassignedOpcode

/-- A word written to TICK (R91): bit 0 requests a tick, bits 31:1 are ignored. -/
def decodeTick (w : Word) : Except DecodeError Instr :=
  if w.getLsbD 0 then .ok .tick else .error .noTickRequest

/-- The instruction a word is at the register it is written to. -/
def decode : Port → Word → Except DecodeError Instr
  | .cmd, w => decodeCmd w
  | .tick, w => decodeTick w

/-- The command word of an OPC and an ARG (R90). -/
def cmdWord (opc : BitVec 8) (arg : Nat) : Word := BitVec.ofNat 24 arg ++ opc

/-- The word of a well-formed instruction (R90 to R93); a TICK word with its ignored bits 0 (R91: "should be 0"). -/
def encode : Instr → Word
  | .clkCompute => cmdWord 0x01 0
  | .codecEncode => cmdWord 0x10 0
  | .codecDecode => cmdWord 0x11 0
  | .codecValidate => cmdWord 0x12 0
  | .schedAllocate priority => cmdWord 0x20 priority
  | .schedAllocConsec count => cmdWord 0x21 count
  | .schedRelease slotId => cmdWord 0x22 slotId
  | .schedSnapshot => cmdWord 0x23 0
  | .tick => 0x00000001

/-! ### The words of the opcode table -/

/-- A word of the table, of which the bits from `nbits` up are 0. -/
def tableWord (nbits w : Nat) : Word := BitVec.ofNat 32 (w % 2 ^ nbits)

/-- The register a table word is written to. The table gives CLK_COMPUTE and TICK one word, 0x00000001, and tells them
apart only by the bits it fixes: all 32 of a command whose ARG is reserved, bit 0 alone of TICK. So an OPC whose ARG is
free, or a legal command word given with 32 bits, is a CMD word, and any other word with bit 0 set is a TICK word.
DESIGN CHOICE (log 10). -/
def tablePort (nbits : Nat) (w : Word) : Port :=
  if opcOf w = 0x20 ∨ opcOf w = 0x21 ∨ opcOf w = 0x22 then .cmd
  else if 32 ≤ nbits ∧ (decodeCmd w).isOk then .cmd
  else if w.getLsbD 0 then .tick
  else .cmd

/-- The instruction the decoder reads from a word of spec/opcode_table.json. -/
def decodeTableWord (nbits w : Nat) : Option Instr :=
  (decode (tablePort nbits (tableWord nbits w)) (tableWord nbits w)).toOption

end Sys2Proof
end

