-- ==== Sys2Proof/Machine/Flags.lean ====
section
/-! DEFINITION. STATUS: the word it reads as, the error codes, and every update of its fields
(spec/10_state.md R25, R44; spec/60_exceptions.md R260). -/

namespace Sys2Proof.Machine

open Sys2Proof

/-- The code of an error kind (R260). -/
def ErrorKind.code : ErrorKind → BitVec 8
  | .invalidHeader => 1
  | .invalidFooter => 2
  | .checksumMismatch => 3
  | .lengthMismatch => 4
  | .tooShort => 5
  | .noSlotAvailable => 6
  | .insufficientConsecutiveSlots => 7
  | .invalidSlotId => 8
  | .invalidConfiguration => 9
  | .connectionClosed => 10
  | .timeout => 11
  | .illegalCommand => 12

/-- The STATUS word (R25): LASTOP 23:16, ERRCODE 15:8, OVERRUN 2, ERR 1, BUSY 0, the rest 0. -/
def Status.word (st : Status) : Word :=
  (0 : BitVec 8) ++ st.lastop ++ st.errcode ++ (0 : BitVec 5) ++ BitVec.ofBool st.overrun ++ BitVec.ofBool st.err ++
    BitVec.ofBool st.busy

/-- STATUS when a CMD write of `w` is accepted (R242). -/
def Status.accept (st : Status) (w : Word) : Status :=
  { st with busy := true, err := false, errcode := 0, lastop := opcOf w }

/-- STATUS when a CMD write is dropped (R243). -/
def Status.drop (st : Status) : Status := { st with overrun := true }

/-- STATUS when the host writes `v` to it (R246): bit 2 clears OVERRUN, and nothing else can be written. -/
def Status.hostWrite (st : Status) (v : Word) : Status :=
  if v.getLsbD 2 then { st with overrun := false } else st

/-- STATUS when a command completes successfully (R244). -/
def Status.succeed (st : Status) : Status := { st with busy := false, err := false, errcode := 0 }

/-- STATUS when a command fails with `e` (R244, R264). -/
def Status.fail (st : Status) (e : ErrorKind) : Status := { st with busy := false, err := true, errcode := e.code }

end Sys2Proof.Machine
end

