-- ==== Sys2Proof/Machine/Ops.lean ====
section
/-! DEFINITION. The shared operations: buffers (MemRead and MemWrite of spec/20_memory.md R64), the completion of a command
with a result or with an error, the acceptance of a command that ends an error's record, and reset. -/

namespace Sys2Proof.Machine

open Sys2Proof

/-! ### Parameters -/

/-- A legal instance (R6, P1 to P3). TIME_UNIT, BLOCK_BASE and ChecksumFn are unconstrained. -/
def legalParams (p : Params) : Bool :=
  decide (1 ≤ p.n ∧ p.n ≤ 65536 ∧ 1 ≤ p.slotDuration ∧ p.slotDuration < 2 ^ 63 ∧ p.maxPayload ≤ 1048506)

/-- The capacity of a buffer in bytes (R41, R63). -/
def capacity (p : Params) : Space → Nat
  | .txp => p.maxPayload
  | .wire => p.maxPayload + 70
  | .rxp => p.maxPayload
  | .snap => 64 * p.n

/-! ### Bytes of a buffer -/

/-- The byte at an offset, if its written mark is set. -/
def Memory.read? : Memory → Nat → Option Byte
  | [], _ => none
  | c :: m, k => if c.1 = k then some c.2 else Memory.read? m k

/-- The cells that hold `bs` from offset `off` on. -/
def cellsFrom : Nat → List Byte → Memory
  | _, [] => []
  | off, b :: bs => (off, b) :: cellsFrom (off + 1) bs

/-- MemWrite (R64): the bytes of `bs` stored at `off` and marked written, every other byte as before. -/
def Memory.write (m : Memory) (off : Nat) (bs : List Byte) : Memory :=
  m.filter (fun c => c.1 < off) ++ cellsFrom off bs ++ m.filter (fun c => off + bs.length ≤ c.1)

/-- MemRead (R64): the `n` bytes from `off` on, or none if one of them has its written mark clear. -/
def Memory.readRange (m : Memory) (off : Nat) : Nat → Option (List Byte)
  | 0 => some []
  | n + 1 =>
    match Memory.read? m off, Memory.readRange m (off + 1) n with
    | some b, some bs => some (b :: bs)
    | _, _ => none

/-- The contents of a buffer. -/
def State.buffer (s : State) : Space → Memory
  | .txp => s.txp
  | .wire => s.wire
  | .rxp => s.rxp
  | .snap => s.snap

/-! ### The end of a command -/

/-- `result(r0, r1, r2, r3)` (R10, R244): the command succeeds. PEND, open again now that BUSY = 0 (U7), keeps the completed
command's word: DESIGN CHOICE (log 3). -/
def State.result (s : State) (r0 r1 r2 r3 : Word) : State :=
  { s with res := { r0 := r0, r1 := r1, r2 := r2, r3 := r3 }, status := s.status.succeed }

/-- Error entry, `raise e` (R264): the command fails with `e`; nothing but STATUS changes. PEND
keeps the completed command's word: DESIGN CHOICE (log 3). -/
def State.raise (s : State) (e : ErrorKind) : State := { s with status := s.status.fail e }

/-- A CMD write of `w` is accepted (R242). This is also the end of an error's record: there is no return-from-error
operation (R265), and ERR and ERRCODE stay until this clears them. -/
def State.acceptCmd (s : State) (w : Word) : State := { s with pend := w, status := s.status.accept w }

/-- A CMD write is dropped (R243). -/
def State.dropCmd (s : State) : State := { s with status := s.status.drop }

/-! ### The slot table -/

/-- The record of slot `i`. (No slot at or beyond N is ever looked up where the table has N records, log 16.) -/
def slotAt (t : Table) (i : Nat) : SlotRecord := t.getD i SlotRecord.freeRecord

/-- Slot `i` is Free. -/
def isFree (t : Table) (i : Nat) : Bool := decide ((slotAt t i).status = .free)

/-- `free(j)` (R192). -/
def freeSlot (t : Table) (j : Nat) : Table := t.set j SlotRecord.freeRecord

/-- `assign(j, id, t)` (R192), the time written `now`. -/
def assignSlot (t : Table) (j : Nat) (id : Ident) (now : Long) : Table :=
  t.set j { status := .assigned, owner := id, assignedAt := now, carriedFragmentId := 0 }

/-! ### Reset -/

/-- Reset is asserted (R290, R291, R292): every piece of the block's state takes its reset value. The instance, the turns
still to come and what the host has read are not the block's to reset (log 14). -/
def State.assertReset (s : State) : State :=
  { State.resetOf s.params with turns := s.turns, readData := s.readData }

end Sys2Proof.Machine
end

