-- ==== Sys2Proof/Machine/Operands.lean ====
section
/-! DEFINITION. The operands of the commands: the registers of spec/30_encoding.md R92 as the values the command rules use,
and the frame sequences of spec/41_codec.md R140, R141 and spec/30_encoding.md R96, R98. -/

namespace Sys2Proof.Machine

open Sys2Proof

/-! ### Time -/

/-- NOW_HI:NOW_LO as a 64-bit pattern, the value `assignedAt` takes (R28, R38). -/
def State.now64 (s : State) : Long := s.nowHi ++ s.nowLo

/-- NOW (R28). -/
def State.now (s : State) : Int := s.now64.toInt

/-- CLK_EPOCH (R29). -/
def ClkRegs.epoch (c : ClkRegs) : Int := (c.epochHi ++ c.epochLo : Long).toInt

/-- CLK_DUR (R29). -/
def ClkRegs.dur (c : ClkRegs) : Int := (c.durHi ++ c.durLo : Long).toInt

/-- CLK_SLOTS (R29). -/
def ClkRegs.slotCount (c : ClkRegs) : Int := c.slots.toInt

/-! ### Frames -/

/-- HDR, the header sentinel (R98). -/
def headerSentinel : List Byte := [0xAA, 0x55, 0xAA, 0x55, 0xAA, 0x55, 0xAA, 0x55]

/-- FTR, the footer sentinel (R98). -/
def footerSentinel : List Byte := [0x55, 0xAA, 0x55, 0xAA, 0x55, 0xAA, 0x55, 0xAA]

/-- The covered sequence of the checksum (R140). -/
def cover (hdr : List Byte) (slotId : Word) (total index flags : Half) (payload : List Byte) : List Byte :=
  hdr ++ wordBytes slotId ++ halfBytes total ++ halfBytes index ++ halfBytes flags ++ payload

/-- One byte of CK_REF (R141): rotate left by 1, then exclusive or. -/
def ckStep (c : Word) (b : Byte) : Word := c.rotateLeft 1 ^^^ b.setWidth 32

/-- CK_REF, the reference checksum function (R141). -/
def ckRef (bs : List Byte) : Word := bs.foldl ckStep 0

/-- ChecksumFn of the instance (R142). -/
def checksumFn : ChecksumSel → List Byte → Word
  | .reference, bs => ckRef bs
  | .custom k, bs => Config.customChecksum k bs

/-- The bytes of a frame on the wire (R96): header, the fixed fields, the payload, the checksum and the footer. -/
def frameBytes (tx : TxRegs) (payload : List Byte) (ck : Word) : List Byte :=
  headerSentinel ++ wordBytes tx.slot ++ tx.node.bytes ++ wordBytes tx.len ++ wordBytes tx.fragId ++
    halfBytes tx.total ++ halfBytes tx.index ++ halfBytes tx.flags ++ payload ++ wordBytes ck ++ footerSentinel

/-- The 8 header bytes of the RX frame (R37). -/
def RxRegs.header (rx : RxRegs) : List Byte := wordBytes rx.hdr0 ++ wordBytes rx.hdr1

/-- The 8 footer bytes of the RX frame (R37). -/
def RxRegs.footer (rx : RxRegs) : List Byte := wordBytes rx.ftr0 ++ wordBytes rx.ftr1

/-- The RX frame registers of the `w` bytes of a frame with an `len`-byte payload (R160). -/
def RxRegs.ofFrame (w : List Byte) (len : Nat) : RxRegs :=
  { hdr0 := beWord (slice w 0 4), hdr1 := beWord (slice w 4 4)
    slot := beWord (slice w 8 4)
    node := Ident.ofBytes (slice w 12 32)
    len := BitVec.ofNat 32 len
    fragId := beWord (slice w 48 4)
    total := beHalf (slice w 52 2)
    index := beHalf (slice w 54 2)
    flags := beHalf (slice w 56 2)
    cksum := beWord (slice w (58 + len) 4)
    ftr0 := beWord (slice w (62 + len) 4), ftr1 := beWord (slice w (66 + len) 4)
    nodeLen := BitVec.ofNat 32 (trimmedLen (slice w 12 32)) }

end Sys2Proof.Machine
end

