-- ==== Sys2Proof/Machine/Clock.lean ====
section
/-! DEFINITION. The clock-to-slot mapper (spec/40_clock.md). -/

namespace Sys2Proof.Machine

open Sys2Proof

/-- floor((now - epoch) / dur) mod slots, on exact integers: the division rounds toward minus infinity and the mod is
Euclidean (R121). -/
def clockSlot (now epoch dur slots : Int) : Int := (Int.fdiv (now - epoch) dur) % slots

/-- CLK_COMPUTE (R120). -/
def execClkCompute (s : State) : Host.Outcome State Fault Refusal :=
  if s.clk.dur ≤ 0 ∨ s.clk.slotCount ≤ 0 then .next (s.raise .invalidConfiguration)
  else .next (s.result (BitVec.ofInt 32 (clockSlot s.now s.clk.epoch s.clk.dur s.clk.slotCount)) 0 0 0)

end Sys2Proof.Machine
end

