-- ==== Sys2Proof/Machine/Codec.lean ====
section
/-! DEFINITION. The frame codec (spec/41_codec.md). -/

namespace Sys2Proof.Machine

open Sys2Proof

/-- The checksum of the TX frame with payload `pay` (R150). -/
def txChecksum (s : State) (pay : List Byte) : Word :=
  checksumFn s.params.checksum (cover headerSentinel s.tx.slot s.tx.total s.tx.index s.tx.flags pay)

/-- CODEC_ENCODE (R150). -/
def execCodecEncode (s : State) : Host.Outcome State Fault Refusal :=
  if s.params.maxPayload < s.tx.len.toNat then .next (s.raise .lengthMismatch)
  else
    match Memory.readRange s.txp 0 s.tx.len.toNat with
    | none => .fault .uninitRead
    | some pay =>
      let ck := txChecksum s pay
      let frameLen := BitVec.ofNat 32 (70 + s.tx.len.toNat)
      .next ({ s with wire := Memory.write s.wire 0 (frameBytes s.tx pay ck), wireLen := frameLen }.result
        ck frameLen 0 0)

/-- CODEC_DECODE (R160). -/
def execCodecDecode (s : State) : Host.Outcome State Fault Refusal :=
  if s.wireLen.toNat < 70 then .next (s.raise .tooShort)
  else if s.params.maxPayload + 70 < s.wireLen.toNat then .next (s.raise .lengthMismatch)
  else
    match Memory.readRange s.wire 44 4 with
    | none => .fault .uninitRead
    | some lenBytes =>
      if s.wireLen.toNat - 58 ≠ beNat lenBytes + 12 then .next (s.raise .lengthMismatch)
      else
        match Memory.readRange s.wire 0 s.wireLen.toNat with
        | none => .fault .uninitRead
        | some w =>
          let rx := RxRegs.ofFrame w (beNat lenBytes)
          .next ({ s with rx := rx, rxp := Memory.write s.rxp 0 (slice w 58 (beNat lenBytes)) }.result
            rx.len rx.nodeLen 0 0)

/-- The checksum of the RX frame with payload `pay`, its header bytes as held (R170). -/
def rxChecksum (s : State) (pay : List Byte) : Word :=
  checksumFn s.params.checksum (cover s.rx.header s.rx.slot s.rx.total s.rx.index s.rx.flags pay)

/-- CODEC_VALIDATE (R170), its last check the one that is never taken (R171). -/
def execCodecValidate (s : State) : Host.Outcome State Fault Refusal :=
  if s.rx.header ≠ headerSentinel then .next (s.raise .invalidHeader)
  else if s.rx.footer ≠ footerSentinel then .next (s.raise .invalidFooter)
  else
    match Memory.readRange s.rxp 0 s.rx.len.toNat with
    | none => .fault .uninitRead
    | some pay =>
      if rxChecksum s pay ≠ s.rx.cksum then .next (s.raise .checksumMismatch)
      else if s.rx.len.toNat ≠ pay.length then .next (s.raise .lengthMismatch)
      else .next (s.result (rxChecksum s pay) 0 0 0)

end Sys2Proof.Machine
end

