-- ==== Sys2Proof/Machine/Sched.lean ====
section
/-! DEFINITION. The slot scheduler (spec/42_scheduler.md). -/

namespace Sys2Proof.Machine

open Sys2Proof

/-! ### Ages and owners -/

/-- The age of a record at `now`, an exact integer (R190). -/
def SlotRecord.age (r : SlotRecord) (now : Int) : Int := now - r.assignedAt.toInt

/-- Fresh: age under 10·D (R190). -/
def SlotRecord.fresh (r : SlotRecord) (d : Nat) (now : Int) : Bool := decide (r.age now < 10 * d)

/-- Preemptable: age over 5·D (R190). -/
def SlotRecord.preemptable (r : SlotRecord) (d : Nat) (now : Int) : Bool := decide (5 * d < r.age now)

/-- Owned by `id`: Assigned, with all 32 bytes of the owner equal (R191). -/
def SlotRecord.ownedBy (r : SlotRecord) (id : Ident) : Bool := decide (r.status = .assigned ∧ r.owner = id)

/-! ### SCHED_ALLOCATE -/

/-- The slots `id` owns, ascending (R194). -/
def ownedSlots (n : Nat) (t : Table) (id : Ident) : List Nat :=
  (List.range n).filter (fun i => (slotAt t i).ownedBy id)

/-- Step 2 (R194): every slot of a list freed. -/
def freeSlots (t : Table) (js : List Nat) : Table := js.foldl freeSlot t

/-- The slots step 5 tests, two positions ahead of `p` first (R194). -/
def ringAhead (n p : Nat) : List Nat := (List.range' 2 (n - 2)).map (fun k => (p + k) % n)

/-- Going through the records from index `i` on, the index of the smallest `assignedAt`, where `b` with `tb` is the
best so far. -/
def oldestFrom : Table → Nat → Nat → Int → Nat
  | [], _, b, _ => b
  | r :: rs, i, b, tb =>
    if r.assignedAt.toInt < tb then oldestFrom rs (i + 1) i r.assignedAt.toInt else oldestFrom rs (i + 1) b tb

/-- The index of the smallest `assignedAt`, the lowest on a tie (R194 step 6). -/
def oldestSlot : Table → Nat
  | [] => 0
  | r :: rs => oldestFrom rs 1 0 r.assignedAt.toInt

/-- Steps 3 to 7 (R194): the slot to assign and the number of the step that found it, or none at step 7. -/
def pickSlot (n d : Nat) (t : Table) (p : Nat) (now : Int) : Option (Nat × Nat) :=
  if isFree t p then some (p, 3)
  else if isFree t ((p + 1) % n) then some ((p + 1) % n, 4)
  else
    match (ringAhead n p).find? (isFree t) with
    | some j => some (j, 5)
    | none =>
      if (slotAt t (oldestSlot t)).preemptable d now then some (oldestSlot t, 6) else none

/-- SCHED_ALLOCATE (R194); `priority` is accepted and not used (R197). -/
def execSchedAllocate (_priority : Nat) (s : State) : Host.Outcome State Fault Refusal :=
  let owned := ownedSlots s.params.n s.table s.nodeId
  match owned.filter (fun i => (slotAt s.table i).fresh s.params.slotDuration s.now) with
  | i :: _ => .next (s.result (BitVec.ofNat 32 i) 1 0 0)
  | [] =>
    let t := freeSlots s.table owned
    match pickSlot s.params.n s.params.slotDuration t s.ptr.toNat s.now with
    | some (j, k) =>
      .next ({ s with table := assignSlot t j s.nodeId s.now64 }.result
        (BitVec.ofNat 32 j) (BitVec.ofNat 32 k) (BitVec.ofNat 32 owned.length) 0)
    | none => .next (s.raise .noSlotAvailable)

/-! ### SCHED_ALLOC_CONSEC -/

/-- The `count` slots from `first` on are all Free (R210). -/
def windowFree (t : Table) (first count : Nat) : Bool := (List.range' first count).all (isFree t)

/-- The first window of `count` Free slots, not wrapping (R210). -/
def firstWindow (n : Nat) (t : Table) (count : Nat) : Option Nat :=
  (List.range (n - count + 1)).find? (fun first => windowFree t first count)

/-- Every slot of a list assigned (R210). -/
def assignSlots (t : Table) (js : List Nat) (id : Ident) (now : Long) : Table :=
  js.foldl (fun t j => assignSlot t j id now) t

/-- SCHED_ALLOC_CONSEC (R210). -/
def execSchedAllocConsec (count : Nat) (s : State) : Host.Outcome State Fault Refusal :=
  if count = 0 ∨ s.params.n < count then .next (s.raise .insufficientConsecutiveSlots)
  else
    match firstWindow s.params.n s.table count with
    | some first =>
      .next ({ s with table := assignSlots s.table (List.range' first count) s.nodeId s.now64 }.result
        (BitVec.ofNat 32 first) (BitVec.ofNat 32 count) 0 0)
    | none => .next (s.raise .insufficientConsecutiveSlots)

/-! ### SCHED_RELEASE, SCHED_SNAPSHOT, TICK -/

/-- SCHED_RELEASE (R215). -/
def execSchedRelease (slotId : Nat) (s : State) : Host.Outcome State Fault Refusal :=
  if s.params.n ≤ slotId then .next (s.raise .invalidSlotId)
  else .next ({ s with table := freeSlot s.table slotId }.result (BitVec.ofNat 32 slotId) 0 0 0)

/-- Word 0 of a snapshot entry (R220): bit 0 is 1 when the slot is Assigned. -/
def SlotStatus.word : SlotStatus → Word
  | .free => 0
  | .assigned => 1

/-- The 64 bytes of a snapshot entry, sixteen big-endian words (R220). -/
def SlotRecord.entry (r : SlotRecord) : List Byte :=
  wordBytes r.status.word ++ r.owner.bytes ++ wordBytes (r.assignedAt.extractLsb' 0 32) ++
    wordBytes (r.assignedAt.extractLsb' 32 32) ++ wordBytes r.carriedFragmentId ++ List.replicate 16 0

/-- The bytes of a snapshot: entry i at byte 64·i (R220, R225). -/
def snapshotBytes (t : Table) : List Byte := t.flatMap SlotRecord.entry

/-- The number of Assigned slots (R225). -/
def assignedCount (t : Table) : Nat := t.countP (fun r => r.status = .assigned)

/-- SCHED_SNAPSHOT (R225). -/
def execSchedSnapshot (s : State) : Host.Outcome State Fault Refusal :=
  .next ({ s with snap := Memory.write s.snap 0 (snapshotBytes s.table) }.result
    (BitVec.ofNat 32 (assignedCount s.table)) s.ptr 0 0)

/-- TICK (R230): PTR and nothing else. -/
def execTick (s : State) : Host.Outcome State Fault Refusal :=
  .next { s with ptr := BitVec.ofNat 32 ((s.ptr.toNat + 1) % s.params.n) }

end Sys2Proof.Machine
end

