-- ==== Sys2Proof/Machine/Dispatch.lean ====
section
/-! DEFINITION. Which meaning runs which instruction (spec/43_host_interface.md R245): for a command its completion step
(R244), for TICK the tick (R230). -/

namespace Sys2Proof.Machine

open Sys2Proof

def exec (i : Instr) (s : State) : Host.Outcome State Fault Refusal :=
  match i with
  | .clkCompute => Sys2Proof.Machine.execClkCompute s
  | .codecEncode => Sys2Proof.Machine.execCodecEncode s
  | .codecDecode => Sys2Proof.Machine.execCodecDecode s
  | .codecValidate => Sys2Proof.Machine.execCodecValidate s
  | .schedAllocate priority => Sys2Proof.Machine.execSchedAllocate priority s
  | .schedAllocConsec count => Sys2Proof.Machine.execSchedAllocConsec count s
  | .schedRelease slotId => Sys2Proof.Machine.execSchedRelease slotId s
  | .schedSnapshot => Sys2Proof.Machine.execSchedSnapshot s
  | .tick => Sys2Proof.Machine.execTick s

end Sys2Proof.Machine
end

