-- ==== Sys2Proof/Machine/Bus.lean ====
section
/-! DEFINITION. The register window: the register map (spec/10_state.md R21), the buffer windows (spec/20_memory.md R63), bus
reads and bus writes (spec/43_host_interface.md R240 to R247). -/

namespace Sys2Proof.Machine

open Sys2Proof

/-- The registers of the map (R21). -/
inductive Reg where
  | id | paramN | paramMaxPay | paramDurLo | paramDurHi
  | cmd | status | tick | ptr
  | nowLo | nowHi | clkEpochLo | clkEpochHi | clkDurLo | clkDurHi | clkSlots
  | res0 | res1 | res2 | res3
  | nodeId (j : Fin 8)
  | txSlot | txFragId | txTotal | txIndex | txFlags | txLen
  | txNode (j : Fin 8)
  | wireLen
  | rxSlot | rxFragId | rxTotal | rxIndex | rxFlags | rxLen | rxCksum | rxNodeLen | rxHdr0 | rxHdr1 | rxFtr0 | rxFtr1
  | rxNode (j : Fin 8)
  deriving DecidableEq, Repr

/-- The offset of a register (R21). -/
def Reg.offset : Reg → Nat
  | .id => 0x000
  | .paramN => 0x004
  | .paramMaxPay => 0x008
  | .paramDurLo => 0x00C
  | .paramDurHi => 0x010
  | .cmd => 0x020
  | .status => 0x024
  | .tick => 0x028
  | .ptr => 0x02C
  | .nowLo => 0x030
  | .nowHi => 0x034
  | .clkEpochLo => 0x038
  | .clkEpochHi => 0x03C
  | .clkDurLo => 0x040
  | .clkDurHi => 0x044
  | .clkSlots => 0x048
  | .res0 => 0x050
  | .res1 => 0x054
  | .res2 => 0x058
  | .res3 => 0x05C
  | .nodeId j => 0x060 + 4 * j.val
  | .txSlot => 0x080
  | .txFragId => 0x084
  | .txTotal => 0x088
  | .txIndex => 0x08C
  | .txFlags => 0x090
  | .txLen => 0x094
  | .txNode j => 0x0A0 + 4 * j.val
  | .wireLen => 0x0C0
  | .rxSlot => 0x100
  | .rxFragId => 0x104
  | .rxTotal => 0x108
  | .rxIndex => 0x10C
  | .rxFlags => 0x110
  | .rxLen => 0x114
  | .rxCksum => 0x118
  | .rxNodeLen => 0x11C
  | .rxHdr0 => 0x120
  | .rxHdr1 => 0x124
  | .rxFtr0 => 0x128
  | .rxFtr1 => 0x12C
  | .rxNode j => 0x130 + 4 * j.val

/-- Every register of the map. -/
def allRegs : List Reg :=
  [.id, .paramN, .paramMaxPay, .paramDurLo, .paramDurHi, .cmd, .status, .tick, .ptr] ++
  [.nowLo, .nowHi, .clkEpochLo, .clkEpochHi, .clkDurLo, .clkDurHi, .clkSlots, .res0, .res1, .res2, .res3] ++
  [.nodeId 0, .nodeId 1, .nodeId 2, .nodeId 3, .nodeId 4, .nodeId 5, .nodeId 6, .nodeId 7] ++
  [.txSlot, .txFragId, .txTotal, .txIndex, .txFlags, .txLen] ++
  [.txNode 0, .txNode 1, .txNode 2, .txNode 3, .txNode 4, .txNode 5, .txNode 6, .txNode 7] ++
  [.wireLen, .rxSlot, .rxFragId, .rxTotal, .rxIndex, .rxFlags, .rxLen, .rxCksum, .rxNodeLen] ++
  [.rxHdr0, .rxHdr1, .rxFtr0, .rxFtr1] ++
  [.rxNode 0, .rxNode 1, .rxNode 2, .rxNode 3, .rxNode 4, .rxNode 5, .rxNode 6, .rxNode 7]

/-- The register at an offset below 0x100000, if it is not a reserved one. -/
def regAt (off : Nat) : Option Reg := allRegs.find? (fun r => r.offset = off)

/-- What an aligned offset of the window addresses. -/
inductive Target where
  | reg (r : Reg)
  /-- The word of a buffer whose first byte is byte `k` (R63). -/
  | buf (sp : Space) (k : Nat)
  | reserved
  deriving DecidableEq, Repr

/-- The first offset of a buffer's window (R63). -/
def windowBase : Space → Nat
  | .txp => 0x0100000
  | .wire => 0x0200000
  | .rxp => 0x0300000
  | .snap => 0x1000000

/-- The address decoder (R21, R63, R65). -/
def targetOf (off : Nat) : Target :=
  if off < 0x0100000 then
    match regAt off with
    | some r => .reg r
    | none => .reserved
  else if off < 0x0200000 then .buf .txp (off - windowBase .txp)
  else if off < 0x0300000 then .buf .wire (off - windowBase .wire)
  else if off < 0x0400000 then .buf .rxp (off - windowBase .rxp)
  else if 0x1000000 ≤ off ∧ off < 0x1400000 then .buf .snap (off - windowBase .snap)
  else .reserved

/-- An access the block supports: 32 bits wide, at an offset divisible by 4 (R62). -/
def supported (size : AccessSize) (off : Offset) : Bool := decide (size = .word ∧ off.toNat % 4 = 0)

/-! ### Bus reads -/

/-- What a register reads as (R21 to R37, R240). -/
def readReg (r : Reg) (s : State) : Word :=
  match r with
  | .id => 0x54444D41
  | .paramN => BitVec.ofNat 32 s.params.n
  | .paramMaxPay => BitVec.ofNat 32 s.params.maxPayload
  | .paramDurLo => (BitVec.ofNat 64 s.params.slotDuration).extractLsb' 0 32
  | .paramDurHi => (BitVec.ofNat 64 s.params.slotDuration).extractLsb' 32 32
  | .cmd => 0
  | .status => s.status.word
  | .tick => 0
  | .ptr => s.ptr
  | .nowLo => s.nowLo
  | .nowHi => s.nowHi
  | .clkEpochLo => s.clk.epochLo
  | .clkEpochHi => s.clk.epochHi
  | .clkDurLo => s.clk.durLo
  | .clkDurHi => s.clk.durHi
  | .clkSlots => s.clk.slots
  | .res0 => s.res.r0
  | .res1 => s.res.r1
  | .res2 => s.res.r2
  | .res3 => s.res.r3
  | .nodeId j => s.nodeId.word j
  | .txSlot => s.tx.slot
  | .txFragId => s.tx.fragId
  | .txTotal => s.tx.total.setWidth 32
  | .txIndex => s.tx.index.setWidth 32
  | .txFlags => s.tx.flags.setWidth 32
  | .txLen => s.tx.len
  | .txNode j => s.tx.node.word j
  | .wireLen => s.wireLen
  | .rxSlot => s.rx.slot
  | .rxFragId => s.rx.fragId
  | .rxTotal => s.rx.total.setWidth 32
  | .rxIndex => s.rx.index.setWidth 32
  | .rxFlags => s.rx.flags.setWidth 32
  | .rxLen => s.rx.len
  | .rxCksum => s.rx.cksum
  | .rxNodeLen => s.rx.nodeLen
  | .rxHdr0 => s.rx.hdr0
  | .rxHdr1 => s.rx.hdr1
  | .rxFtr0 => s.rx.ftr0
  | .rxFtr1 => s.rx.ftr1
  | .rxNode j => s.rx.node.word j

/-- A byte of a buffer on the bus: 0 at or beyond the capacity (R63), none where the written mark is clear. -/
def State.busByte (s : State) (sp : Space) (k : Nat) : Option Byte :=
  if k < capacity s.params sp then Memory.read? (s.buffer sp) k else some 0

/-- The four bytes of a buffer word from byte `k` on, big-endian (R240), or none if one is unwritten. -/
def State.busWord (s : State) (sp : Space) (k : Nat) : Option Word :=
  match s.busByte sp k, s.busByte sp (k + 1), s.busByte sp (k + 2), s.busByte sp (k + 3) with
  | some b0, some b1, some b2, some b3 => some (beWord [b0, b1, b2, b3])
  | _, _, _, _ => none

/-- What must not be read while BUSY = 1 (R247): RES0..RES3, the RX registers, WIRE_LEN, and the WIRE, RXP and SNAP windows
(the whole windows, log 7). Every other read is allowed (log 20). -/
def readHazard : Target → Bool
  | .reg .res0 | .reg .res1 | .reg .res2 | .reg .res3 | .reg .wireLen => true
  | .reg .rxSlot | .reg .rxFragId | .reg .rxTotal | .reg .rxIndex | .reg .rxFlags | .reg .rxLen | .reg .rxCksum => true
  | .reg .rxNodeLen | .reg .rxHdr0 | .reg .rxHdr1 | .reg .rxFtr0 | .reg .rxFtr1 | .reg (.rxNode _) => true
  | .buf .wire _ | .buf .rxp _ | .buf .snap _ => true
  | _ => false

/-- A bus read returns `v`: the host sees it, and nothing else happens (R66, log 12). -/
def State.returns (s : State) (v : Word) : State := { s with readData := some v }

/-- What a supported read that is no hazard returns (R240): a register's value, 0 at a reserved offset (R65), a buffer's
word, or UninitRead (R64). -/
def readTarget (tgt : Target) (s : State) : Host.Outcome State Fault Refusal :=
  match tgt with
  | .reg r => .next (s.returns (readReg r s))
  | .reserved => .next (s.returns 0)
  | .buf sp k =>
    match s.busWord sp k with
    | some v => .next (s.returns v)
    | none => .fault .uninitRead

/-- A bus read (R240). Of several model faults the first in this order counts (log 8). -/
def busRead (size : AccessSize) (off : Offset) (s : State) : Host.Outcome State Fault Refusal :=
  if supported size off = false then .fault .badAccess
  else if s.status.busy = true ∧ readHazard (targetOf off.toNat) = true then .fault .busyHazard
  else readTarget (targetOf off.toNat) s

/-! ### Bus writes -/

/-- The effect of a bus write on a register that merely stores (the RW ones of R21, R241); the RO registers ignore it
(R65), and CMD, STATUS and TICK are `busWrite`'s. -/
def writeReg (r : Reg) (v : Word) (s : State) : State :=
  match r with
  | .nowLo => { s with nowLo := v }
  | .nowHi => { s with nowHi := v }
  | .clkEpochLo => { s with clk := { s.clk with epochLo := v } }
  | .clkEpochHi => { s with clk := { s.clk with epochHi := v } }
  | .clkDurLo => { s with clk := { s.clk with durLo := v } }
  | .clkDurHi => { s with clk := { s.clk with durHi := v } }
  | .clkSlots => { s with clk := { s.clk with slots := v } }
  | .nodeId j => { s with nodeId := s.nodeId.setWord j v }
  | .txSlot => { s with tx := { s.tx with slot := v } }
  | .txFragId => { s with tx := { s.tx with fragId := v } }
  | .txTotal => { s with tx := { s.tx with total := v.setWidth 16 } }
  | .txIndex => { s with tx := { s.tx with index := v.setWidth 16 } }
  | .txFlags => { s with tx := { s.tx with flags := v.setWidth 16 } }
  | .txLen => { s with tx := { s.tx with len := v } }
  | .txNode j => { s with tx := { s.tx with node := s.tx.node.setWord j v } }
  | .wireLen => { s with wireLen := v }
  | _ => s

/-- The bytes a word write leaves in a buffer of capacity `cap`: those of its four that lie below it (R63, R64). -/
def bytesBelow (cap k : Nat) (v : Word) : List Byte := (wordBytes v).take (cap - k)

/-- The effect of a bus write on a buffer word: TXP and WIRE store it (R241), RXP and SNAP ignore it (R63). -/
def writeBuf (sp : Space) (k : Nat) (v : Word) (s : State) : State :=
  match sp with
  | .txp => { s with txp := Memory.write s.txp k (bytesBelow (capacity s.params .txp) k v) }
  | .wire => { s with wire := Memory.write s.wire k (bytesBelow (capacity s.params .wire) k v) }
  | .rxp => s
  | .snap => s

/-- A register the host can write with a stored effect (access RW in R21). -/
def Reg.isRW : Reg → Bool
  | .nowLo | .nowHi | .clkEpochLo | .clkEpochHi | .clkDurLo | .clkDurHi | .clkSlots => true
  | .nodeId _ | .txSlot | .txFragId | .txTotal | .txIndex | .txFlags | .txLen | .txNode _ | .wireLen => true
  | _ => false

/-- What must not be written while BUSY = 1 (R247): an RW register and the TXP and WIRE windows (log 7). -/
def writeHazard : Target → Bool
  | .reg r => r.isRW
  | .buf .txp _ | .buf .wire _ => true
  | _ => false

/-- A CMD write (R242, R243): accepted when no command is pending, else dropped. -/
def cmdWrite (v : Word) (s : State) : State := if s.status.busy then s.dropCmd else s.acceptCmd v

/-- A STATUS write (R246). -/
def statusWrite (v : Word) (s : State) : State := { s with status := s.status.hostWrite v }

/-- The effect of a supported bus write that is no hazard and asks for no tick (R241). -/
def storeTo (tgt : Target) (v : Word) (s : State) : State :=
  match tgt with
  | .reg .cmd => cmdWrite v s
  | .reg .status => statusWrite v s
  | .reg r => writeReg r v s
  | .buf sp k => writeBuf sp k v s
  | .reserved => s

end Sys2Proof.Machine
end

