-- ==== Sys2Proof/Machine/Fetch.lean ====
section
/-! DEFINITION. What the next turn does (spec/00_scope.md R11, spec/43_host_interface.md R240 to R245): which instruction it
runs in which state, or what else comes of it. And how a word is placed so that the next step runs it. -/

namespace Sys2Proof.Machine

open Sys2Proof

/-- What a turn comes to. -/
inductive Fetched where
  /-- The instruction `i` runs in the state `s`. -/
  | run (i : Instr) (s : State)
  /-- No instruction runs. -/
  | done (o : Host.Outcome State Fault Refusal)

/-- A word written to TICK (R230, R241): a tick if it asks for one, else nothing. -/
def tickWrite (v : Word) (s : State) : Fetched :=
  match decode .tick v with
  | .ok i => .run i s
  | .error _ => .done (.next s)

/-- A bus write (R241). Of several model faults the first in this order counts (log 8). -/
def busWrite (size : AccessSize) (off : Offset) (v : Word) (s : State) : Fetched :=
  if supported size off = false then .done (.fault .badAccess)
  else if s.status.busy = true ∧ writeHazard (targetOf off.toNat) = true then .done (.fault .busyHazard)
  else if targetOf off.toNat = .reg .tick then tickWrite v s
  else .done (.next (storeTo (targetOf off.toNat) v s))

/-- The engine's step (R244, R245): the pending word's command runs, or completes with IllegalCommand; nothing while no
command is pending (R11, log 13). -/
def engineTurn (s : State) : Fetched :=
  if s.status.busy = false then .done (.next s)
  else
    match decode .cmd s.pend with
    | .ok i => .run i s
    | .error _ => .done (.next (s.raise .illegalCommand))

/-- The effect of a turn, already taken from the list. -/
def takeTurn (t : Turn) (s : State) : Fetched :=
  match t with
  | .read size off => .done (busRead size off s)
  | .write size off v => busWrite size off v s
  | .engine => engineTurn s
  | .reset _ => .done (.next s.assertReset)

/-- The next turn: the first of the list, or the engine's when no other is to come (R300, log 4). An illegal instance is
refused (R6, log 15). -/
def fetch (s : State) : Fetched :=
  if legalParams s.params = false then .done (.refused .illegalInstance)
  else
    match s.turns with
    | [] => engineTurn s
    | t :: rest => takeTurn t { s with turns := rest }

/-! ### Placing a word -/

/-- A command accepted by CMD, its completion the next turn (R242, log 11). -/
def State.withCommand (s : State) (w : Word) : State :=
  { s.acceptCmd w with turns := .engine :: s.turns }

/-- A word about to be written to TICK (log 11). -/
def State.withTickWrite (s : State) (w : Word) : State :=
  { s with turns := .write .word (BitVec.ofNat 25 Reg.tick.offset) w :: s.turns }

/-- A word about to run at the register it is meant for. -/
def State.withWordAt (s : State) (p : Port) (w : Word) : State :=
  match p with
  | .cmd => s.withCommand w
  | .tick => s.withTickWrite w

end Sys2Proof.Machine
end

