-- ==== Sys2Proof/Machine/Step.lean ====
section
/-! DEFINITION. One step: the next turn, and the instruction it runs (spec/20_memory.md R67, R70: each turn is one atomic
step of one total order). -/

namespace Sys2Proof.Machine

open Sys2Proof

/-- What a turn comes to, carried out: the instruction it runs is executed. -/
def perform : Fetched → Host.Outcome State Fault Refusal
  | .run i t => exec i t
  | .done o => o

/-- One step of the machine. -/
def step (s : State) : Host.Outcome State Fault Refusal := perform (fetch s)

/-- `s` with a word of the opcode table placed where the next step takes its instruction from: accepted by CMD with the
engine's turn next, or as the next write to TICK (log 11). -/
def State.withFetchWord (s : State) (nbits w : Nat) : State :=
  s.withWordAt (tablePort nbits (tableWord nbits w)) (tableWord nbits w)

end Sys2Proof.Machine
end

