-- ==== Sys2Proof/Safety.lean ====
section
/-! DEFINITION. The terms claims are stated in: the invariant of the machine, runs, and the state a command leaves when it
succeeds or fails, written out from the spec. -/

namespace Sys2Proof.Machine

open Sys2Proof

/-- A buffer in canonical form with every listed byte below the capacity (R41, R63). -/
def BufferOk (m : Memory) (cap : Nat) : Prop := Memory.wf m ∧ ∀ c ∈ m, c.1 < cap

/-- The error codes a completed command can leave (R260, R261): never 10, 11 or a reserved one. -/
def producedCodes : List (BitVec 8) := [0, 1, 2, 3, 4, 5, 6, 7, 8, 9, 12]

/-- What holds at reset and after every step. -/
structure Inv (s : State) : Prop where
  /-- The instance is legal (R6). -/
  legal : legalParams s.params = true
  /-- The table holds exactly N records (R38, R39). -/
  tableLength : s.table.length = s.params.n
  /-- PTR is in [0, N) (R27). -/
  ptrInRange : s.ptr.toNat < s.params.n
  /-- A Free record has owner all zero, assignedAt 0 and carriedFragmentId 0 (R39). -/
  freeIsBlank : ∀ r ∈ s.table, r.status = .free → r = SlotRecord.freeRecord
  /-- No record carries a fragment id (R39, D24). -/
  carriedZero : ∀ r ∈ s.table, r.carriedFragmentId = 0
  /-- The buffers are in canonical form and within their capacities (R41, R63). -/
  txpOk : BufferOk s.txp (capacity s.params .txp)
  wireOk : BufferOk s.wire (capacity s.params .wire)
  rxpOk : BufferOk s.rxp (capacity s.params .rxp)
  snapOk : BufferOk s.snap (capacity s.params .snap)
  /-- While a command is pending, ERR and ERRCODE are clear and LASTOP is its OPC (R242, R244). -/
  pendingStatus : s.status.busy = true →
    s.status.err = false ∧ s.status.errcode = 0 ∧ s.status.lastop = opcOf s.pend
  /-- ERR is set exactly when ERRCODE is not 0 (R25, R260). -/
  errMatchesCode : s.status.err = true ↔ s.status.errcode ≠ 0
  /-- ERRCODE is a code some command produces (R260, R261). -/
  codeProduced : s.status.errcode ∈ producedCodes
  /-- RX_NODELEN is the trimmed length of the RX nodeId (R36). -/
  rxNodeLen : s.rx.nodeLen = BitVec.ofNat 32 (trimmedLen s.rx.node.bytes)
  /-- The RX payload is held in RXP, every byte of it written (R35, R161). -/
  rxLenBound : s.rx.len.toNat ≤ s.params.maxPayload
  rxPayloadWritten : ∀ k, k < s.rx.len.toNat → ∃ b, Memory.read? s.rxp k = some b

/-- `k` steps from `s`, stopping at the first fault or refusal. -/
def runFor (k : Nat) (s : State) : Host.Outcome State Fault Refusal := Host.Core.run Sys2Proof.core k s

/-- A safe run: no model fault and no refusal within `k` steps (R43). -/
def SafeFor (k : Nat) (s : State) : Prop := ∃ t, runFor k s = .next t

/-! ### What a completed command leaves, written out from R244 and R264 -/

/-- The state after a command that succeeded with these results (R244): RES0..RES3, ERR, ERRCODE and BUSY. (That PEND, open
while BUSY = 0, keeps its word is the model's choice, log 3.) -/
def succeeded (s : State) (r0 r1 r2 r3 : Word) : State :=
  { s with
    res := { r0 := r0, r1 := r1, r2 := r2, r3 := r3 }
    status := { busy := false, err := false, overrun := s.status.overrun, errcode := 0, lastop := s.status.lastop } }

/-- The state after a command that failed with this code (R264): nothing but ERR, ERRCODE and BUSY. (PEND: as in
`succeeded`, log 3.) -/
def failed (s : State) (code : BitVec 8) : State :=
  { s with
    status := { busy := false, err := true, overrun := s.status.overrun, errcode := code, lastop := s.status.lastop } }

/-! ### The register map, written out from R21 apart from the operations of the bus -/

/-- What each register shows the host (R21 to R37): its offset, and the constant or the field of the state it reads as, a
16-bit field zero-extended. STATUS has its fields at the places of R25. -/
def registerReads (s : State) : List (Nat × Word) :=
  [(0x000, 0x54444D41), (0x004, BitVec.ofNat 32 s.params.n), (0x008, BitVec.ofNat 32 s.params.maxPayload),
   (0x00C, BitVec.ofNat 32 (s.params.slotDuration % 2 ^ 32)),
   (0x010, BitVec.ofNat 32 (s.params.slotDuration / 2 ^ 32)), (0x020, 0),
   (0x024, (0 : BitVec 8) ++ s.status.lastop ++ s.status.errcode ++ (0 : BitVec 5) ++
     BitVec.ofBool s.status.overrun ++ BitVec.ofBool s.status.err ++ BitVec.ofBool s.status.busy),
   (0x028, 0), (0x02C, s.ptr)] ++
  [(0x030, s.nowLo), (0x034, s.nowHi), (0x038, s.clk.epochLo), (0x03C, s.clk.epochHi), (0x040, s.clk.durLo),
   (0x044, s.clk.durHi), (0x048, s.clk.slots)] ++
  [(0x050, s.res.r0), (0x054, s.res.r1), (0x058, s.res.r2), (0x05C, s.res.r3)] ++
  [(0x060, s.nodeId.w0), (0x064, s.nodeId.w1), (0x068, s.nodeId.w2), (0x06C, s.nodeId.w3),
   (0x070, s.nodeId.w4), (0x074, s.nodeId.w5), (0x078, s.nodeId.w6), (0x07C, s.nodeId.w7)] ++
  [(0x080, s.tx.slot), (0x084, s.tx.fragId), (0x088, s.tx.total.setWidth 32),
   (0x08C, s.tx.index.setWidth 32), (0x090, s.tx.flags.setWidth 32), (0x094, s.tx.len)] ++
  [(0x0A0, s.tx.node.w0), (0x0A4, s.tx.node.w1), (0x0A8, s.tx.node.w2), (0x0AC, s.tx.node.w3),
   (0x0B0, s.tx.node.w4), (0x0B4, s.tx.node.w5), (0x0B8, s.tx.node.w6), (0x0BC, s.tx.node.w7),
   (0x0C0, s.wireLen)] ++
  [(0x100, s.rx.slot), (0x104, s.rx.fragId), (0x108, s.rx.total.setWidth 32),
   (0x10C, s.rx.index.setWidth 32), (0x110, s.rx.flags.setWidth 32), (0x114, s.rx.len),
   (0x118, s.rx.cksum), (0x11C, s.rx.nodeLen), (0x120, s.rx.hdr0), (0x124, s.rx.hdr1), (0x128, s.rx.ftr0),
   (0x12C, s.rx.ftr1)] ++
  [(0x130, s.rx.node.w0), (0x134, s.rx.node.w1), (0x138, s.rx.node.w2), (0x13C, s.rx.node.w3),
   (0x140, s.rx.node.w4), (0x144, s.rx.node.w5), (0x148, s.rx.node.w6), (0x14C, s.rx.node.w7)]

/-- What a word `v` written to each RW register leaves (R21, R241): its offset, and the state with the field that takes it,
bits 15:0 of it where the register has 16. -/
def registerWrites (v : Word) (s : State) : List (Nat × State) :=
  [(0x030, { s with nowLo := v }), (0x034, { s with nowHi := v }), (0x038, { s with clk.epochLo := v }),
   (0x03C, { s with clk.epochHi := v }), (0x040, { s with clk.durLo := v }),
   (0x044, { s with clk.durHi := v }), (0x048, { s with clk.slots := v })] ++
  [(0x060, { s with nodeId.w0 := v }), (0x064, { s with nodeId.w1 := v }),
   (0x068, { s with nodeId.w2 := v }), (0x06C, { s with nodeId.w3 := v }),
   (0x070, { s with nodeId.w4 := v }), (0x074, { s with nodeId.w5 := v }),
   (0x078, { s with nodeId.w6 := v }), (0x07C, { s with nodeId.w7 := v })] ++
  [(0x080, { s with tx.slot := v }), (0x084, { s with tx.fragId := v }),
   (0x088, { s with tx.total := v.extractLsb' 0 16 }), (0x08C, { s with tx.index := v.extractLsb' 0 16 }),
   (0x090, { s with tx.flags := v.extractLsb' 0 16 }), (0x094, { s with tx.len := v })] ++
  [(0x0A0, { s with tx.node.w0 := v }), (0x0A4, { s with tx.node.w1 := v }),
   (0x0A8, { s with tx.node.w2 := v }), (0x0AC, { s with tx.node.w3 := v }),
   (0x0B0, { s with tx.node.w4 := v }), (0x0B4, { s with tx.node.w5 := v }),
   (0x0B8, { s with tx.node.w6 := v }), (0x0BC, { s with tx.node.w7 := v })] ++
  [(0x0C0, { s with wireLen := v })]

/-! ### Who has the next turn -/

/-- The engine has the next turn, and `rest` is to come after it (R11, log 4): it is named, or no turn is to come. -/
def EngineNext (s : State) (rest : List Turn) : Prop :=
  s.turns = .engine :: rest ∨ (s.turns = [] ∧ rest = [])

/-- A word write at offset `off` has the next turn. -/
def WriteNext (s : State) (off : Nat) (v : Word) (rest : List Turn) : Prop :=
  s.turns = .write .word (BitVec.ofNat 25 off) v :: rest

/-- A word read at offset `off` has the next turn. -/
def ReadNext (s : State) (off : Nat) (rest : List Turn) : Prop :=
  s.turns = .read .word (BitVec.ofNat 25 off) :: rest

end Sys2Proof.Machine
end

