-- ==== Sys2Proof/Certificates/Slice0/Obligations.lean ====
section
/-! DEFINITION. The statements for the provers. Each docstring names the rules of spec/ it states, or the sections it rests
on. `succeeded` and `failed` (Sys2Proof/Safety.lean) write out what R244 and R264 say a completed command leaves; a
conclusion `exec i s = .next (succeeded …)` is the whole next state, so it is also the frame of the instruction. -/

open Sys2Proof Sys2Proof.Machine

/-! ### Encoding -/

/-- spec/30_encoding.md sections 1 to 3: the decoder gives back every well-formed instruction from its word, with its
operand at every 24-bit value. -/
def Obligations.DecodeInvertsEncode : Prop :=
  ∀ i : Instr, i.WellFormed = true → decode i.port (encode i) = .ok i

/-- spec/30_encoding.md, the encodings of the rules' own examples. -/
def Obligations.ExampleWordsDecode : Prop :=
  decode .cmd 0x00000001 = .ok .clkCompute ∧ decode .cmd 0x00000010 = .ok .codecEncode ∧
  decode .cmd 0x00000011 = .ok .codecDecode ∧ decode .cmd 0x00000012 = .ok .codecValidate ∧
  decode .cmd 0x00000120 = .ok (.schedAllocate 1) ∧ decode .cmd 0xFFFFFF20 = .ok (.schedAllocate 16777215) ∧
  decode .cmd 0x00000321 = .ok (.schedAllocConsec 3) ∧ decode .cmd 0x00000322 = .ok (.schedRelease 3) ∧
  decode .cmd 0x00000023 = .ok .schedSnapshot ∧ decode .tick 0x00000001 = .ok .tick

/-- R93 (with the TICK row of its table): each opcode selects its command, by OPC alone where ARG is an operand and by the
whole word where ARG is reserved; bit 0 selects TICK at the TICK register. -/
def Obligations.OpcodeMapSelectsTheCommand : Prop :=
  ∀ (w : Word) (i : Instr),
    (decode .cmd w = .ok i ↔
      (i = .clkCompute ∧ w &&& 0xFFFFFFFF = 0x00000001) ∨
      (i = .codecEncode ∧ w &&& 0xFFFFFFFF = 0x00000010) ∨
      (i = .codecDecode ∧ w &&& 0xFFFFFFFF = 0x00000011) ∨
      (i = .codecValidate ∧ w &&& 0xFFFFFFFF = 0x00000012) ∨
      (i = .schedAllocate (w >>> 8).toNat ∧ w &&& 0x000000FF = 0x00000020) ∨
      (i = .schedAllocConsec (w >>> 8).toNat ∧ w &&& 0x000000FF = 0x00000021) ∨
      (i = .schedRelease (w >>> 8).toNat ∧ w &&& 0x000000FF = 0x00000022) ∨
      (i = .schedSnapshot ∧ w &&& 0xFFFFFFFF = 0x00000023)) ∧
    (decode .tick w = .ok i ↔ i = .tick ∧ w &&& 0x00000001 = 0x00000001)

/-! ### One step -/

/-- spec/43_host_interface.md section 2: when the pending word decodes to `i`, the engine's turn is `exec i`. -/
def Obligations.EngineRunsThePendingCommand : Prop :=
  ∀ (s : State) (rest : List Turn) (i : Instr),
    legalParams s.params = true → s.status.busy = true → EngineNext s rest → decode .cmd s.pend = .ok i →
    step s = exec i { s with turns := rest }

/-- R26, R91: a word written to TICK with bit 0 set performs one tick, whatever its other bits, also while a command is
pending; with bit 0 clear it has no effect. A tick changes nothing but PTR; a read of TICK returns 0. -/
def Obligations.TickDoorbell : Prop :=
  ∀ (s : State) (rest : List Turn) (w : Word),
    legalParams s.params = true →
    (WriteNext s 0x028 w rest → w.getLsbD 0 = true →
      step s = exec .tick { s with turns := rest } ∧
      ∃ p, step s = .next { s with turns := rest, ptr := p }) ∧
    (WriteNext s 0x028 w rest → w.getLsbD 0 = false → step s = .next { s with turns := rest }) ∧
    (ReadNext s 0x028 rest → step s = .next { s with turns := rest, readData := some 0 })

/-- R94: a word whose OPC is not assigned, or whose ARG is not 0 where it is reserved, is accepted by the CMD write like
any other and completes with IllegalCommand (12), changing nothing but STATUS (and PEND, which the acceptance latches).
No TICK word is illegal. -/
def Obligations.IllegalWordsCompleteWithIllegalCommand : Prop :=
  ∀ (s : State) (w : Word) (rest : List Turn),
    legalParams s.params = true →
    ((s.status.busy = false →
      ((w.toNat % 256 ∉ [0x01, 0x10, 0x11, 0x12, 0x20, 0x21, 0x22, 0x23]) ∨
        (w.toNat % 256 ∈ [0x01, 0x10, 0x11, 0x12, 0x23] ∧ w.toNat / 256 ≠ 0)) →
      s.turns = .write .word 0x020 w :: .engine :: rest →
      (∃ t, step s = .next t ∧ t.status.busy = true) ∧
      runFor 2 s = .next { s with
        turns := rest
        pend := w
        status := { busy := false, err := true, overrun := s.status.overrun, errcode := 12,
                    lastop := w.extractLsb' 0 8 } }) ∧
    (WriteNext s 0x028 w rest → ∃ t, step s = .next t ∧ t.status = s.status))

/-- R242: a CMD write while BUSY = 0 latches the word, legal or not, and starts the command; nothing else changes. An
illegal word completes with IllegalCommand (12) at the engine's next turn. -/
def Obligations.CmdWriteIsAcceptedWhenIdle : Prop :=
  ∀ (s : State) (w : Word) (rest : List Turn),
    legalParams s.params = true → s.status.busy = false → WriteNext s 0x020 w rest →
    step s = .next { s with
      turns := rest
      pend := w
      status := { busy := true, err := false, overrun := s.status.overrun, errcode := 0, lastop := w.extractLsb' 0 8 } } ∧
    ∀ (e : DecodeError) (rest' : List Turn), decode .cmd w = .error e → rest = .engine :: rest' →
      ∃ t, runFor 2 s = .next t ∧ t.status =
        { busy := false, err := true, overrun := s.status.overrun, errcode := 12, lastop := w.extractLsb' 0 8 }

/-- R243: a CMD write while BUSY = 1 sets OVERRUN and changes nothing else. -/
def Obligations.CmdWriteIsDroppedWhenBusy : Prop :=
  ∀ (s : State) (w : Word) (rest : List Turn),
    legalParams s.params = true → s.status.busy = true → WriteNext s 0x020 w rest →
    step s = .next { s with
      turns := rest
      status := { busy := true, err := s.status.err, overrun := true, errcode := s.status.errcode,
                  lastop := s.status.lastop } }

/-- R246: a write to STATUS clears OVERRUN when bit 2 is set and otherwise does nothing, also while BUSY = 1. -/
def Obligations.StatusWriteClearsOnlyOverrun : Prop :=
  ∀ (s : State) (v : Word) (rest : List Turn),
    legalParams s.params = true → WriteNext s 0x024 v rest →
    step s = .next { s with
      turns := rest
      status := { busy := s.status.busy, err := s.status.err, overrun := if v.getLsbD 2 then false else s.status.overrun,
                  errcode := s.status.errcode, lastop := s.status.lastop } }

/-- spec/70_reset_and_hazards.md section 1 (R290, R291): reset aborts a pending command, and a TICK write at the same time
has no effect: the state after is that of R290's table (PEND, unspecified there, is left out of this statement). That the
instance, the turns to come and the last value read stay as they were is the model's choice (log 14). -/
def Obligations.ResetRestoresEveryPiece : Prop :=
  ∀ (s : State) (w : Option Word) (rest : List Turn),
    legalParams s.params = true → s.turns = .reset w :: rest →
    ∃ t, step s = .next t ∧
      t.status = { busy := false, err := false, overrun := false, errcode := 0, lastop := 0 } ∧ t.ptr = 0 ∧
      t.now64 = 0 ∧ t.clk = { epochLo := 0, epochHi := 0, durLo := 0, durHi := 0, slots := 0 } ∧
      t.res = { r0 := 0, r1 := 0, r2 := 0, r3 := 0 } ∧
      (∀ j, t.nodeId.word j = 0 ∧ t.tx.node.word j = 0 ∧ t.rx.node.word j = 0) ∧
      t.tx.slot = 0 ∧ t.tx.fragId = 0 ∧ t.tx.total = 0 ∧ t.tx.index = 0 ∧ t.tx.flags = 0 ∧ t.tx.len = 0 ∧ t.wireLen = 0 ∧
      t.rx.slot = 0 ∧ t.rx.fragId = 0 ∧ t.rx.total = 0 ∧ t.rx.index = 0 ∧ t.rx.flags = 0 ∧ t.rx.len = 0 ∧
      t.rx.cksum = 0 ∧ t.rx.nodeLen = 0 ∧ t.rx.hdr0 = 0 ∧ t.rx.hdr1 = 0 ∧ t.rx.ftr0 = 0 ∧ t.rx.ftr1 = 0 ∧
      t.table.length = s.params.n ∧
      (∀ r ∈ t.table, r = { status := .free, owner := ⟨0, 0, 0, 0, 0, 0, 0, 0⟩, assignedAt := 0,
                            carriedFragmentId := 0 }) ∧
      (∀ sp k, Memory.read? (t.buffer sp) k = none) ∧
      t.params = s.params ∧ t.turns = rest ∧ t.readData = s.readData

/-- R21's reset column with R22 and R23: what every register reads as right after reset. -/
def Obligations.RegistersAfterReset : Prop :=
  ∀ p : Params, legalParams p = true →
    readReg .id (State.resetOf p) = 0x54444D41 ∧
    (readReg .paramN (State.resetOf p)).toNat = p.n ∧
    (readReg .paramMaxPay (State.resetOf p)).toNat = p.maxPayload ∧
    (readReg .paramDurHi (State.resetOf p) ++ readReg .paramDurLo (State.resetOf p)).toNat = p.slotDuration ∧
    ∀ r : Reg, r ∉ [Reg.id, .paramN, .paramMaxPay, .paramDurLo, .paramDurHi] → readReg r (State.resetOf p) = 0

/-- R22, R23: ID and the PARAM registers read their constants in every state of a legal instance, and a write to any of
them is ignored, also while BUSY = 1. -/
def Obligations.ConstantRegistersReadTheParameters : Prop :=
  ∀ (s : State) (rest : List Turn),
    legalParams s.params = true →
    (ReadNext s 0x000 rest → step s = .next { s with turns := rest, readData := some 0x54444D41 }) ∧
    (ReadNext s 0x004 rest →
      ∃ v : Word, v.toNat = s.params.n ∧ step s = .next { s with turns := rest, readData := some v }) ∧
    (ReadNext s 0x008 rest →
      ∃ v : Word, v.toNat = s.params.maxPayload ∧ step s = .next { s with turns := rest, readData := some v }) ∧
    (ReadNext s 0x00C rest → ∃ v : Word, v.toNat = s.params.slotDuration % 2 ^ 32 ∧
      step s = .next { s with turns := rest, readData := some v }) ∧
    (ReadNext s 0x010 rest → ∃ v : Word, v.toNat = s.params.slotDuration / 2 ^ 32 ∧
      step s = .next { s with turns := rest, readData := some v }) ∧
    (∀ (off : Nat) (v : Word), off ∈ [0x000, 0x004, 0x008, 0x00C, 0x010] → WriteNext s off v rest →
      step s = .next { s with turns := rest })

/-- spec/10_state.md section 3 (R25): the layout of the STATUS word, its reserved bits reading 0, as a bus read returns
it (also while BUSY = 1). -/
def Obligations.StatusReadsAsLaidOut : Prop :=
  ∀ (s : State) (rest : List Turn),
    legalParams s.params = true → ReadNext s 0x024 rest →
    ∃ v : Word, step s = .next { s with turns := rest, readData := some v } ∧
      v.getLsbD 0 = s.status.busy ∧ v.getLsbD 1 = s.status.err ∧ v.getLsbD 2 = s.status.overrun ∧
      v.extractLsb' 3 5 = 0 ∧ v.extractLsb' 8 8 = s.status.errcode ∧ v.extractLsb' 16 8 = s.status.lastop ∧
      v.extractLsb' 24 8 = 0

/-- spec/43_host_interface.md section 1, spec/10_state.md section 2: what a word read of each register of the map returns,
by its offset and the field of the state it shows (`registerReads`, Sys2Proof/Safety.lean, every row of R21 written out).
The fields are those that the commands read and write. A read that is no busy hazard is allowed while BUSY = 1, also of an
operand register (log 20). -/
def Obligations.RegisterReadReturnsItsValue : Prop :=
  ∀ (s : State) (off : Nat) (v : Word) (rest : List Turn),
    legalParams s.params = true → ReadNext s off rest →
    (s.status.busy = true → ¬((0x050 ≤ off ∧ off ≤ 0x05C) ∨ off = 0x0C0 ∨ (0x100 ≤ off ∧ off ≤ 0x14C))) →
    (off, v) ∈ registerReads s →
    step s = .next { s with turns := rest, readData := some v }

/-- spec/43_host_interface.md section 1, spec/10_state.md section 2: a word write to an RW register while BUSY = 0, by the
register's offset and the field of the state that takes the value (`registerWrites`, Sys2Proof/Safety.lean, every RW row of
R21 written out; 16 bits of the value in TX_TOTAL, TX_INDEX and TX_FLAGS). Nothing else changes. The fields are those that
the commands read. -/
def Obligations.RegisterWriteStoresTheValue : Prop :=
  ∀ (s t : State) (off : Nat) (v : Word) (rest : List Turn),
    legalParams s.params = true → s.status.busy = false → WriteNext s off v rest →
    (off, t) ∈ registerWrites v s →
    step s = .next { t with turns := rest }

/-- spec/20_memory.md section 4: a word written into the TXP or WIRE window while BUSY = 0 sets the bytes it covers
below the capacity and their written marks, most significant byte first, and changes nothing else. -/
def Obligations.BufferWriteStoresItsBytes : Prop :=
  ∀ (s : State) (k : Nat) (v : Word) (rest : List Turn),
    legalParams s.params = true → s.status.busy = false → k % 4 = 0 → k < 0x100000 →
    (WriteNext s (0x0100000 + k) v rest →
      ∃ m, step s = .next { s with turns := rest, txp := m } ∧
        ∀ j, Memory.read? m j =
          if k ≤ j ∧ j < k + 4 ∧ j < s.params.maxPayload then some (v.extractLsb' (24 - 8 * (j - k)) 8)
          else Memory.read? s.txp j) ∧
    (WriteNext s (0x0200000 + k) v rest →
      ∃ m, step s = .next { s with turns := rest, wire := m } ∧
        ∀ j, Memory.read? m j =
          if k ≤ j ∧ j < k + 4 ∧ j < s.params.maxPayload + 70 then some (v.extractLsb' (24 - 8 * (j - k)) 8)
          else Memory.read? s.wire j)

/-- spec/43_host_interface.md section 1 and spec/20_memory.md section 4: a read of a buffer word returns its four bytes,
most significant first, those at or beyond the capacity 0; it faults UninitRead when one below the capacity is
unwritten. -/
def Obligations.BufferReadReturnsItsBytes : Prop :=
  ∀ (s : State) (sp : Space) (k : Nat) (rest : List Turn),
    legalParams s.params = true → (s.status.busy = true → sp = .txp) → k % 4 = 0 →
    k < (if sp = .snap then 0x400000 else 0x100000) → ReadNext s (windowBase sp + k) rest →
    ((∃ j, j < 4 ∧ k + j < capacity s.params sp ∧ Memory.read? (s.buffer sp) (k + j) = none) →
      step s = .fault .uninitRead) ∧
    ((∀ j, j < 4 → k + j < capacity s.params sp → ∃ b, Memory.read? (s.buffer sp) (k + j) = some b) →
      ∃ v : Word, step s = .next { s with turns := rest, readData := some v } ∧
        ∀ j, j < 4 → some (v.extractLsb' (24 - 8 * j) 8) =
          if k + j < capacity s.params sp then Memory.read? (s.buffer sp) (k + j) else some 0)

/-- R65: the reserved offsets, listed from R21 and R63, read 0 and ignore writes; writes to the read-only registers are
ignored; CMD and TICK read 0. -/
def Obligations.ReservedOffsetsReadZero : Prop :=
  ∀ (s : State) (off : Nat) (rest : List Turn),
    legalParams s.params = true → off % 4 = 0 →
    ((0x014 ≤ off ∧ off ≤ 0x01C) ∨ off = 0x04C ∨ (0x098 ≤ off ∧ off ≤ 0x09C) ∨ (0x0C4 ≤ off ∧ off ≤ 0x0FC) ∨
        (0x150 ≤ off ∧ off ≤ 0x0FFFFC) ∨ (0x0400000 ≤ off ∧ off ≤ 0x0FFFFFF) ∨ (0x1400000 ≤ off ∧ off ≤ 0x1FFFFFF) →
      (ReadNext s off rest → step s = .next { s with turns := rest, readData := some 0 }) ∧
      (∀ v, WriteNext s off v rest → step s = .next { s with turns := rest })) ∧
    ((off ≤ 0x010 ∨ off = 0x02C ∨ (0x050 ≤ off ∧ off ≤ 0x05C) ∨ (0x100 ≤ off ∧ off ≤ 0x14C)) →
      ∀ v, WriteNext s off v rest → step s = .next { s with turns := rest }) ∧
    ((off = 0x020 ∨ off = 0x028) → ReadNext s off rest →
      step s = .next { s with turns := rest, readData := some 0 })

/-- spec/20_memory.md section 4: RXP and SNAP are read-only to the host: a write to either window changes nothing, at
every offset of it. -/
def Obligations.ResultBuffersIgnoreHostWrites : Prop :=
  ∀ (s : State) (off : Nat) (v : Word) (rest : List Turn),
    legalParams s.params = true → off % 4 = 0 →
    ((0x0300000 ≤ off ∧ off < 0x0400000) ∨ (0x1000000 ≤ off ∧ off < 0x1400000)) → WriteNext s off v rest →
    step s = .next { s with turns := rest }

/-- spec/20_memory.md section 5 (R66): no read has a side effect: nothing changes but what the host has read, and
reading again returns the same. -/
def Obligations.ReadsHaveNoSideEffect : Prop :=
  ∀ (s t : State) (size : AccessSize) (off : Offset) (rest : List Turn),
    s.turns = .read size off :: rest → step s = .next t →
    (∃ v, t = { s with turns := rest, readData := some v }) ∧
    ∀ rest', step { t with turns := .read size off :: rest' } = .next { t with turns := rest' }

/-- spec/20_memory.md section 3 (R62): an access of any width but 32 bits, or at an offset not divisible by 4, is the
model fault BadAccess. -/
def Obligations.UnsupportedAccessFaults : Prop :=
  ∀ (s : State) (size : AccessSize) (off : Offset) (v : Word) (rest : List Turn),
    legalParams s.params = true → (size ≠ .word ∨ off.toNat % 4 ≠ 0) →
    (s.turns = .read size off :: rest ∨ s.turns = .write size off v :: rest) →
    step s = .fault .badAccess

/-- spec/43_host_interface.md section 2: while BUSY = 1 a word access faults BusyHazard exactly on a write of an RW
register or of the TXP or WIRE window, and on a read of RES0..RES3, WIRE_LEN, an RX register or of the WIRE, RXP or SNAP
window; the offsets are those of the register map. That the whole windows count, bytes beyond the capacity too, is the
model's choice (log 7). -/
def Obligations.BusyHazardsAreExactlyTheForbiddenAccesses : Prop :=
  ∀ (s : State) (off : Nat) (v : Word) (rest : List Turn),
    legalParams s.params = true → s.status.busy = true → off % 4 = 0 → off < 0x2000000 →
    (WriteNext s off v rest →
      (step s = .fault .busyHazard ↔
        (0x030 ≤ off ∧ off ≤ 0x048) ∨ (0x060 ≤ off ∧ off ≤ 0x094) ∨ (0x0A0 ≤ off ∧ off ≤ 0x0C0) ∨
        (0x0100000 ≤ off ∧ off < 0x0300000))) ∧
    (ReadNext s off rest →
      (step s = .fault .busyHazard ↔
        (0x050 ≤ off ∧ off ≤ 0x05C) ∨ off = 0x0C0 ∨ (0x100 ≤ off ∧ off ≤ 0x14C) ∨
        (0x0200000 ≤ off ∧ off < 0x0400000) ∨ (0x1000000 ≤ off ∧ off < 0x1400000)))

/-- spec/60_exceptions.md section 6 (R274): whenever BUSY = 0 and no agent acts on it, the block holds all its state. That
an engine turn then does nothing is the model's inference (log 13), and that an empty turn list is the engine's its choice
(log 4). -/
def Obligations.IdleHoldsAllState : Prop :=
  ∀ (s : State) (rest : List Turn),
    legalParams s.params = true → s.status.busy = false → EngineNext s rest → step s = .next { s with turns := rest }

/-! ### Whole-machine rules -/

/-- spec/00_scope.md section 4: a step refuses exactly when a parameter is outside its legal range. -/
def Obligations.OnlyIllegalInstancesAreRefused : Prop :=
  ∀ (s : State) (r : Refusal),
    step s = .refused r ↔
      r = .illegalInstance ∧
      ¬(1 ≤ s.params.n ∧ s.params.n ≤ 65536 ∧ 1 ≤ s.params.slotDuration ∧ s.params.slotDuration ≤ 2 ^ 63 - 1 ∧
        s.params.maxPayload ≤ 1048506)

/-- spec/00_scope.md section 4 ("Nothing at run time changes them") and spec/10_state.md section 6: no step changes a
parameter, nor the number of slot records of a table that has N of them. -/
def Obligations.ParametersAndTableSizeNeverChange : Prop :=
  ∀ s t : State, step s = .next t →
    t.params = s.params ∧ (s.table.length = s.params.n → t.table.length = s.params.n)

/-- spec/42_scheduler.md sections 1 and 6: a step that changes the table completes one of the three scheduler commands
that may, or is a reset; a step that changes PTR is a tick or a reset. -/
def Obligations.SchedulerStateChangesOnlyByItsOwners : Prop :=
  ∀ s t : State, step s = .next t →
    (t.table ≠ s.table →
      (s.status.busy = true ∧ (∃ rest, EngineNext s rest) ∧
        (s.pend.extractLsb' 0 8 = 0x20 ∨ s.pend.extractLsb' 0 8 = 0x21 ∨ s.pend.extractLsb' 0 8 = 0x22)) ∨
      ∃ w rest, s.turns = .reset w :: rest) ∧
    (t.ptr ≠ s.ptr →
      (∃ w rest, WriteNext s 0x028 w rest ∧ w.getLsbD 0 = true) ∨ ∃ w rest, s.turns = .reset w :: rest)

/-- spec/10_state.md section 5 (RX registers): the RX frame and RXP change only by a DECODE that succeeds, or by reset. -/
def Obligations.RxFrameChangesOnlyByDecode : Prop :=
  ∀ s t : State, step s = .next t → (t.rx ≠ s.rx ∨ t.rxp ≠ s.rxp) →
    (s.status.busy = true ∧ (∃ rest, EngineNext s rest) ∧ s.pend = 0x00000011 ∧ t.status.err = false) ∨
    ∃ w rest, s.turns = .reset w :: rest

/-- spec/10_state.md sections 4 and 5: the time, clock, node id and TX operands, and TXP, change only by host writes and
reset; no command and no tick writes them. -/
def Obligations.OperandsChangeOnlyByHostWrites : Prop :=
  ∀ s t : State, step s = .next t →
    (t.nowLo ≠ s.nowLo ∨ t.nowHi ≠ s.nowHi ∨ t.clk ≠ s.clk ∨ t.nodeId ≠ s.nodeId ∨ t.tx ≠ s.tx ∨ t.txp ≠ s.txp) →
    (∃ off v rest, s.turns = .write .word off v :: rest) ∨ ∃ w rest, s.turns = .reset w :: rest

/-- spec/10_state.md section 8: PEND is never read while BUSY = 0: two states that differ in it alone take the same
step, up to PEND itself, which a CMD write sets alike in both. -/
def Obligations.PendIsNotReadWhileIdle : Prop :=
  ∀ (s : State) (w : Word), s.status.busy = false →
    (∀ t, step s = .next t → ∃ p, step { s with pend := w } = .next { t with pend := p } ∧
      (t.status.busy = true → p = t.pend)) ∧
    (∀ f, step s = .fault f → step { s with pend := w } = .fault f) ∧
    (∀ r, step s = .refused r → step { s with pend := w } = .refused r)

/-- spec/70_reset_and_hazards.md section 3 (R297): a tick between a CMD write and the completion is one step, and the
command then runs in the state with the advanced PTR. -/
def Obligations.PendingCommandSeesAnInterveningTick : Prop :=
  ∀ (s : State) (i : Instr) (rest : List Turn),
    legalParams s.params = true → s.status.busy = true → decode .cmd s.pend = .ok i → s.ptr.toNat < s.params.n →
    s.turns = .write .word 0x028 0x00000001 :: .engine :: rest →
    runFor 2 s = exec i { s with
      turns := rest
      ptr := if s.ptr.toNat + 1 = s.params.n then 0 else s.ptr + 1 }

/-- spec/70_reset_and_hazards.md section 3 (R300): every pending command completes: within one step more than the turns to
come, the run has stopped in a model fault or BUSY has become 0. That the engine moves when no other turn is left is the
model's choice (log 4). -/
def Obligations.PendingCommandCompletes : Prop :=
  ∀ s : State, legalParams s.params = true → s.status.busy = true →
    ∃ k, k ≤ s.turns.length + 1 ∧
      ((∃ f, runFor k s = .fault f) ∨ ∃ t, runFor k s = .next t ∧ t.status.busy = false)

/-- spec/60_exceptions.md section 4: the conditions of the three model faults, and no others: BadAccess exactly on an
unsupported access; BusyHazard only on a forbidden access while BUSY = 1; UninitRead only when a host read, or the codec
command completing, reads a buffer byte not written since reset. In which order they count is the model's choice (log 8),
and so is the engine moving when no turn is to come (log 4). -/
def Obligations.ModelFaultsAriseOnlyWhereTheSpecSays : Prop :=
  ∀ s : State,
    (step s = .fault .badAccess ↔ legalParams s.params = true ∧
      ∃ (size : AccessSize) (off : Offset) (rest : List Turn), (size ≠ .word ∨ off.toNat % 4 ≠ 0) ∧
        (s.turns = .read size off :: rest ∨ ∃ v, s.turns = .write size off v :: rest)) ∧
    (step s = .fault .busyHazard → s.status.busy = true ∧ ∃ (off : Nat) (rest : List Turn), off % 4 = 0 ∧
      (((∃ v, WriteNext s off v rest) ∧
          ((0x030 ≤ off ∧ off ≤ 0x048) ∨ (0x060 ≤ off ∧ off ≤ 0x094) ∨ (0x0A0 ≤ off ∧ off ≤ 0x0C0) ∨
            (0x0100000 ≤ off ∧ off < 0x0300000))) ∨
        (ReadNext s off rest ∧
          ((0x050 ≤ off ∧ off ≤ 0x05C) ∨ off = 0x0C0 ∨ (0x100 ≤ off ∧ off ≤ 0x14C) ∨
            (0x0200000 ≤ off ∧ off < 0x0400000) ∨ (0x1000000 ≤ off ∧ off < 0x1400000))))) ∧
    (step s = .fault .uninitRead →
      (∃ (sp : Space) (k j : Nat) (rest : List Turn), ReadNext s (windowBase sp + k) rest ∧ k % 4 = 0 ∧ j < 4 ∧
        k + j < capacity s.params sp ∧ Memory.read? (s.buffer sp) (k + j) = none) ∨
      (s.status.busy = true ∧ (∃ rest, EngineNext s rest) ∧
        ((s.pend = 0x00000010 ∧ ∃ j, j < s.tx.len.toNat ∧ Memory.read? s.txp j = none) ∨
          (s.pend = 0x00000011 ∧ ∃ j, j < s.wireLen.toNat ∧ Memory.read? s.wire j = none) ∨
          (s.pend = 0x00000012 ∧ ∃ j, j < s.rx.len.toNat ∧ Memory.read? s.rxp j = none))))

/-- R264: when the completion of a command fails, illegal words included, ERR is set, ERRCODE is not 0, BUSY is cleared,
and no other state changes (the engine's turn is used up). -/
def Obligations.FailedCommandsChangeOnlyStatus : Prop :=
  ∀ (s t : State) (rest : List Turn),
    s.status.busy = true → EngineNext s rest → step s = .next t → t.status.err = true →
    t.status.errcode ≠ 0 ∧ t = failed { s with turns := rest } t.status.errcode

/-- spec/60_exceptions.md sections 1 and 2: each command raises only the errors the table of error codes gives it, and
leaves code 0 when it succeeds; no command produces codes 10 and 11. -/
def Obligations.EachCommandRaisesOnlyItsErrors : Prop :=
  ∀ (i : Instr) (s t : State), i.port = .cmd → exec i s = .next t →
    t.status.busy = false ∧ (t.status.err = false ↔ t.status.errcode = 0) ∧
    t.status.errcode ∈ (match i with
      | .clkCompute => [0, 9]
      | .codecEncode => [0, 4]
      | .codecDecode => [0, 4, 5]
      | .codecValidate => [0, 1, 2, 3]
      | .schedAllocate _ => [0, 6]
      | .schedAllocConsec _ => [0, 7]
      | .schedRelease _ => [0, 8]
      | .schedSnapshot => [0]
      | .tick => [] : List (BitVec 8))

/-- The invariant at reset, for every legal instance. -/
def Obligations.InvariantHoldsAtReset : Prop := ∀ p : Params, legalParams p = true → Inv (State.resetOf p)

/-- The invariant is kept by every step from every state that meets it: table size and record shape (spec/10_state.md R38,
R39), PTR's range (R27), the canonical buffers (R41, R63), STATUS (R25, R44), RX_NODELEN and the written RX payload (R35,
R36). -/
def Obligations.EveryStepKeepsTheInvariant : Prop := ∀ s t : State, Inv s → step s = .next t → Inv t

/-! ### CLK_COMPUTE -/

/-- R120, R121: CLK_COMPUTE on the signed operands, floor division and Euclidean mod on exact integers, described by what
they are: q·dur ≤ now − epoch < (q + 1)·dur, and r in [0, slots) congruent to q. With ARG ≠ 0 the word is illegal. -/
def Obligations.ClkComputeGivesTheSlot : Prop :=
  (∀ a : BitVec 24, a ≠ 0 → decode .cmd (a ++ (0x01 : BitVec 8)) = .error .reservedArgument) ∧
  ∀ (s : State) (now epoch dur slots : Int),
    now = (s.nowHi ++ s.nowLo).toInt → epoch = (s.clk.epochHi ++ s.clk.epochLo).toInt →
    dur = (s.clk.durHi ++ s.clk.durLo).toInt → slots = s.clk.slots.toInt →
    (dur ≤ 0 ∨ slots ≤ 0 → exec .clkCompute s = .next (failed s 9)) ∧
    (0 < dur → 0 < slots →
      ∃ q r : Int, q * dur ≤ now - epoch ∧ now - epoch < (q + 1) * dur ∧ 0 ≤ r ∧ r < slots ∧ slots ∣ q - r ∧
        ∃ v : Word, (v.toNat : Int) = r ∧ exec .clkCompute s = .next (succeeded s v 0 0 0))

/-- R122: CLK_COMPUTE depends on its four operands alone; with the others fixed the result is constant for dur time units,
then goes up by 1, wrapping from slots − 1 to 0, and has period slots·dur in `now`. -/
def Obligations.ClkComputeIsAPeriodicRamp : Prop :=
  ∀ s s' : State, s'.clk = s.clk → 0 < s.clk.dur → 0 < s.clk.slotCount →
    ∃ v v' : Word, exec .clkCompute s = .next (succeeded s v 0 0 0) ∧
      exec .clkCompute s' = .next (succeeded s' v' 0 0 0) ∧
      (s'.now = s.now → v' = v) ∧
      (∀ q : Int, q * s.clk.dur ≤ s.now - s.clk.epoch → s.now - s.clk.epoch < (q + 1) * s.clk.dur →
        q * s.clk.dur ≤ s'.now - s.clk.epoch → s'.now - s.clk.epoch < (q + 1) * s.clk.dur → v' = v) ∧
      (s'.now = s.now + s.clk.dur → v' = if v.toInt + 1 = s.clk.slotCount then 0 else v + 1) ∧
      (s'.now = s.now + s.clk.slotCount * s.clk.dur → v' = v)

/-- spec/40_clock.md (the mapper and the scheduler are not linked): CLK_COMPUTE takes no part of its result from PTR or
the table and writes neither, and no other instruction reads or writes the clock operands. -/
def Obligations.MapperAndSchedulerAreNotLinked : Prop :=
  ∀ (s t : State) (i : Instr) (p : Word) (tbl : Table) (c : ClkRegs),
    (exec .clkCompute s = .next t →
      t.ptr = s.ptr ∧ t.table = s.table ∧
      exec .clkCompute { s with ptr := p, table := tbl } = .next { t with ptr := p, table := tbl }) ∧
    (i ≠ .clkCompute → exec i s = .next t →
      t.clk = s.clk ∧ exec i { s with clk := c } = .next { t with clk := c })

/-! ### The checksum -/

/-- R141: CK_REF's defining equations and the rule's own examples. -/
def Obligations.CkRefIsTheRollingXor : Prop :=
  ckRef [] = 0x00000000 ∧
  (∀ (bs : List Byte) (b : Byte),
    ckRef (bs ++ [b]) = ((ckRef bs <<< 1) ||| (ckRef bs >>> 31)) ^^^ (0 : BitVec 24) ++ b) ∧
  ckRef [0x01, 0x02, 0x80] = 0x00000080 ∧
  ckRef [0xAA, 0x55, 0xAA, 0x55, 0xAA, 0x55, 0xAA, 0x55] = 0x00005555

/-- spec/41_codec.md section 1 (for CK_REF): a change to any one byte always changes the result; changing two bytes 32
positions apart by the same mask never does. -/
def Obligations.CkRefDetectsOneByteAndMissesPairs : Prop :=
  (∀ (xs ys : List Byte) (b b' : Byte), b ≠ b' → ckRef (xs ++ b :: ys) ≠ ckRef (xs ++ b' :: ys)) ∧
  (∀ (xs ys zs : List Byte) (a b m : Byte), ys.length = 31 →
    ckRef (xs ++ (a ^^^ m) :: ys ++ (b ^^^ m) :: zs) = ckRef (xs ++ a :: ys ++ b :: zs))

/-! ### The codec -/

/-- R150: CODEC_ENCODE, with its error, its read of TXP and the whole state it leaves: WIRE bytes 0 to 69 + L are the
frame, the others as before. For every ChecksumFn. With ARG ≠ 0 the word is illegal. -/
def Obligations.EncodeWritesTheFrame : Prop :=
  (∀ a : BitVec 24, a ≠ 0 → decode .cmd (a ++ (0x10 : BitVec 8)) = .error .reservedArgument) ∧
  ∀ (s : State) (L : Nat), L = s.tx.len.toNat →
    (s.params.maxPayload < L → exec .codecEncode s = .next (failed s 4)) ∧
    (L ≤ s.params.maxPayload → (∃ j, j < L ∧ Memory.read? s.txp j = none) →
      exec .codecEncode s = .fault .uninitRead) ∧
    (∀ (pay : List Byte) (ck : Word), L ≤ s.params.maxPayload → pay.length = L →
      (∀ j, j < L → Memory.read? s.txp j = pay[j]?) →
      ck = checksumFn s.params.checksum
        ([0xAA, 0x55, 0xAA, 0x55, 0xAA, 0x55, 0xAA, 0x55] ++ wordBytes s.tx.slot ++ halfBytes s.tx.total ++
          halfBytes s.tx.index ++ halfBytes s.tx.flags ++ pay) →
      ∃ m, exec .codecEncode s =
          .next (succeeded { s with wire := m, wireLen := BitVec.ofNat 32 (70 + L) } ck (BitVec.ofNat 32 (70 + L)) 0 0) ∧
        (∀ j, 70 + L ≤ j → Memory.read? m j = Memory.read? s.wire j) ∧
        ∀ j, j < 70 + L → Memory.read? m j =
          ([0xAA, 0x55, 0xAA, 0x55, 0xAA, 0x55, 0xAA, 0x55] ++ wordBytes s.tx.slot ++
            (wordBytes s.tx.node.w0 ++ wordBytes s.tx.node.w1 ++ wordBytes s.tx.node.w2 ++ wordBytes s.tx.node.w3 ++
              wordBytes s.tx.node.w4 ++ wordBytes s.tx.node.w5 ++ wordBytes s.tx.node.w6 ++ wordBytes s.tx.node.w7) ++
            wordBytes (BitVec.ofNat 32 L) ++ wordBytes s.tx.fragId ++ halfBytes s.tx.total ++ halfBytes s.tx.index ++
            halfBytes s.tx.flags ++ pay ++ wordBytes ck ++ [0x55, 0xAA, 0x55, 0xAA, 0x55, 0xAA, 0x55, 0xAA])[j]?)

/-- R96: where each field of an encoded frame lies in WIRE, by its offset and byte count, and the frame's length. -/
def Obligations.EncodedFieldsLieAtTheirOffsets : Prop :=
  ∀ (s t : State) (L : Nat), L = s.tx.len.toNat → exec .codecEncode s = .next t → t.status.err = false →
    t.wireLen = BitVec.ofNat 32 (70 + L) ∧
    Memory.readRange t.wire 0 8 = some [0xAA, 0x55, 0xAA, 0x55, 0xAA, 0x55, 0xAA, 0x55] ∧
    Memory.readRange t.wire 8 4 = some (wordBytes s.tx.slot) ∧
    Memory.readRange t.wire 12 32 = some s.tx.node.bytes ∧
    Memory.readRange t.wire 44 4 = some (wordBytes s.tx.len) ∧
    Memory.readRange t.wire 48 4 = some (wordBytes s.tx.fragId) ∧
    Memory.readRange t.wire 52 2 = some (halfBytes s.tx.total) ∧
    Memory.readRange t.wire 54 2 = some (halfBytes s.tx.index) ∧
    Memory.readRange t.wire 56 2 = some (halfBytes s.tx.flags) ∧
    Memory.readRange t.wire 58 L = Memory.readRange s.txp 0 L ∧
    Memory.readRange t.wire (58 + L) 4 = some (wordBytes t.res.r0) ∧
    Memory.readRange t.wire (62 + L) 8 = some [0x55, 0xAA, 0x55, 0xAA, 0x55, 0xAA, 0x55, 0xAA]

/-- R160: CODEC_DECODE, with its errors in their order, its reads of WIRE and the whole state it leaves. A register loaded
from bytes is their concatenation, the first on top; RX_NODELEN is the length that trimming trailing zero bytes leaves.
With ARG ≠ 0 the word is illegal. -/
def Obligations.DecodeParsesTheFrame : Prop :=
  (∀ a : BitVec 24, a ≠ 0 → decode .cmd (a ++ (0x11 : BitVec 8)) = .error .reservedArgument) ∧
  ∀ (s : State) (C : Nat), C = s.wireLen.toNat →
    (C < 70 → exec .codecDecode s = .next (failed s 5)) ∧
    (70 ≤ C → s.params.maxPayload + 70 < C → exec .codecDecode s = .next (failed s 4)) ∧
    (70 ≤ C → C ≤ s.params.maxPayload + 70 → (∃ j, j < 4 ∧ Memory.read? s.wire (44 + j) = none) →
      exec .codecDecode s = .fault .uninitRead) ∧
    (∀ b : Nat → Byte, 70 ≤ C → C ≤ s.params.maxPayload + 70 →
      (∀ j, j < 4 → Memory.read? s.wire (44 + j) = some (b (44 + j))) →
      (C - 58 ≠ (b 44 ++ b 45 ++ b 46 ++ b 47).toNat + 12 → exec .codecDecode s = .next (failed s 4)) ∧
      (C - 58 = (b 44 ++ b 45 ++ b 46 ++ b 47).toNat + 12 → (∃ j, j < C ∧ Memory.read? s.wire j = none) →
        exec .codecDecode s = .fault .uninitRead) ∧
      (C - 58 = (b 44 ++ b 45 ++ b 46 ++ b 47).toNat + 12 → (∀ j, j < C → Memory.read? s.wire j = some (b j)) →
        ∃ (L : Nat) (n : Nat) (m : Memory),
          L = (b 44 ++ b 45 ++ b 46 ++ b 47).toNat ∧
          n ≤ 32 ∧ (∀ j, n ≤ j → j < 32 → b (12 + j) = 0) ∧ (0 < n → b (12 + (n - 1)) ≠ 0) ∧
          (∀ j, j < L → Memory.read? m j = some (b (58 + j))) ∧
          (∀ j, L ≤ j → Memory.read? m j = Memory.read? s.rxp j) ∧
          exec .codecDecode s = .next (succeeded
            { s with
              rxp := m
              rx := {
                hdr0 := b 0 ++ b 1 ++ b 2 ++ b 3, hdr1 := b 4 ++ b 5 ++ b 6 ++ b 7
                slot := b 8 ++ b 9 ++ b 10 ++ b 11
                node := {
                  w0 := b 12 ++ b 13 ++ b 14 ++ b 15, w1 := b 16 ++ b 17 ++ b 18 ++ b 19
                  w2 := b 20 ++ b 21 ++ b 22 ++ b 23, w3 := b 24 ++ b 25 ++ b 26 ++ b 27
                  w4 := b 28 ++ b 29 ++ b 30 ++ b 31, w5 := b 32 ++ b 33 ++ b 34 ++ b 35
                  w6 := b 36 ++ b 37 ++ b 38 ++ b 39, w7 := b 40 ++ b 41 ++ b 42 ++ b 43 }
                len := BitVec.ofNat 32 L
                fragId := b 48 ++ b 49 ++ b 50 ++ b 51
                total := b 52 ++ b 53, index := b 54 ++ b 55, flags := b 56 ++ b 57
                cksum := b (58 + L) ++ b (59 + L) ++ b (60 + L) ++ b (61 + L)
                ftr0 := b (62 + L) ++ b (63 + L) ++ b (64 + L) ++ b (65 + L)
                ftr1 := b (66 + L) ++ b (67 + L) ++ b (68 + L) ++ b (69 + L)
                nodeLen := BitVec.ofNat 32 n } }
            (BitVec.ofNat 32 L) (BitVec.ofNat 32 n) 0 0)))

/-- R170: CODEC_VALIDATE, the first failing check reported, its read of RXP and the whole state it leaves. For every
ChecksumFn. With ARG ≠ 0 the word is illegal. -/
def Obligations.ValidateChecksTheFrame : Prop :=
  (∀ a : BitVec 24, a ≠ 0 → decode .cmd (a ++ (0x12 : BitVec 8)) = .error .reservedArgument) ∧
  ∀ s : State,
    (¬(s.rx.hdr0 = 0xAA55AA55 ∧ s.rx.hdr1 = 0xAA55AA55) → exec .codecValidate s = .next (failed s 1)) ∧
    (s.rx.hdr0 = 0xAA55AA55 ∧ s.rx.hdr1 = 0xAA55AA55 → ¬(s.rx.ftr0 = 0x55AA55AA ∧ s.rx.ftr1 = 0x55AA55AA) →
      exec .codecValidate s = .next (failed s 2)) ∧
    (s.rx.hdr0 = 0xAA55AA55 ∧ s.rx.hdr1 = 0xAA55AA55 → s.rx.ftr0 = 0x55AA55AA ∧ s.rx.ftr1 = 0x55AA55AA →
      ((∃ j, j < s.rx.len.toNat ∧ Memory.read? s.rxp j = none) → exec .codecValidate s = .fault .uninitRead) ∧
      (∀ (pay : List Byte) (ck : Word), pay.length = s.rx.len.toNat →
        (∀ j, j < s.rx.len.toNat → Memory.read? s.rxp j = pay[j]?) →
        ck = checksumFn s.params.checksum
          ([0xAA, 0x55, 0xAA, 0x55, 0xAA, 0x55, 0xAA, 0x55] ++ wordBytes s.rx.slot ++ halfBytes s.rx.total ++
            halfBytes s.rx.index ++ halfBytes s.rx.flags ++ pay) →
        (ck ≠ s.rx.cksum → exec .codecValidate s = .next (failed s 3)) ∧
        (ck = s.rx.cksum → exec .codecValidate s = .next (succeeded s ck 0 0 0))))

/-- R172 (and R171's LengthMismatch, code 4, never raised): a VALIDATE that completes succeeds exactly when both sentinels
match and the checksum recomputed over the payload of RX_LEN bytes equals the stored one. -/
def Obligations.ValidateSucceedsExactlyOnWellFormedFrames : Prop :=
  ∀ s t : State, exec .codecValidate s = .next t →
    t.status.errcode ≠ 4 ∧
    (t.status.err = false ↔
      (s.rx.hdr0 = 0xAA55AA55 ∧ s.rx.hdr1 = 0xAA55AA55) ∧ (s.rx.ftr0 = 0x55AA55AA ∧ s.rx.ftr1 = 0x55AA55AA) ∧
      ∃ pay : List Byte, pay.length = s.rx.len.toNat ∧ (∀ j, j < s.rx.len.toNat → Memory.read? s.rxp j = pay[j]?) ∧
        checksumFn s.params.checksum
          ([0xAA, 0x55, 0xAA, 0x55, 0xAA, 0x55, 0xAA, 0x55] ++ wordBytes s.rx.slot ++ halfBytes s.rx.total ++
            halfBytes s.rx.index ++ halfBytes s.rx.flags ++ pay) = s.rx.cksum)

/-- spec/41_codec.md sections 3 and 4: in every state that meets the invariant VALIDATE completes: it reads no unwritten
byte. -/
def Obligations.ValidateAlwaysCompletes : Prop := ∀ s : State, Inv s → ∃ t, exec .codecValidate s = .next t

/-- spec/41_codec.md section 1 (R143, of the fields the checksum does not cover the two that VALIDATE does not use):
VALIDATE's verdict and result do not depend on the RX nodeId, its trimmed length or the RX fragmentId. -/
def Obligations.ValidateIgnoresNodeIdAndFragmentId : Prop :=
  ∀ (s t : State) (node : Ident) (n f : Word), exec .codecValidate s = .next t →
    t.rx = s.rx ∧
    exec .codecValidate { s with rx := { s.rx with node := node, nodeLen := n, fragId := f } } =
      .next { t with rx := { s.rx with node := node, nodeLen := n, fragId := f } }

/-- R152: after ENCODE succeeds, DECODE on the unchanged WIRE and WIRE_LEN succeeds with every RX field equal to its TX
field, the sentinels, the checksum ENCODE returned and the payload; VALIDATE of that RX frame then succeeds. The states in
between may differ in everything else. For every ChecksumFn. -/
def Obligations.EncodeDecodeValidateRoundTrip : Prop :=
  ∀ s t d : State, legalParams s.params = true → exec .codecEncode s = .next t → t.status.err = false →
    d.wire = t.wire → d.wireLen = t.wireLen → d.params = s.params →
    ∃ u, exec .codecDecode d = .next u ∧ u.status.err = false ∧
      u.rx.slot = s.tx.slot ∧ u.rx.node = s.tx.node ∧ u.rx.len = s.tx.len ∧ u.rx.fragId = s.tx.fragId ∧
      u.rx.total = s.tx.total ∧ u.rx.index = s.tx.index ∧ u.rx.flags = s.tx.flags ∧
      (∀ j, j < s.tx.len.toNat → Memory.read? u.rxp j = Memory.read? s.txp j) ∧
      u.rx.hdr0 = 0xAA55AA55 ∧ u.rx.hdr1 = 0xAA55AA55 ∧ u.rx.ftr0 = 0x55AA55AA ∧ u.rx.ftr1 = 0x55AA55AA ∧
      u.rx.cksum = t.res.r0 ∧
      ∀ e : State, e.rx = u.rx → e.rxp = u.rxp → e.params = s.params →
        ∃ v, exec .codecValidate e = .next v ∧ v.status.err = false ∧ v.res.r0 = t.res.r0

/-! ### The scheduler -/

/-- R194 (with the ages of R190 and the ownership of R191): SCHED_ALLOCATE's seven steps in strict order, on a table of
N records with PTR in range. `T i` is record i, `Own i` and `Young i` are "owned by id" and "fresh", `Free i` is "Free
once step 2 has released what id owns", `after j` the table then with slot j assigned to id at NOW, and `rel` the number
of slots id owned. Every ARG is legal. -/
def Obligations.AllocateFollowsThePolicy : Prop :=
  (∀ a : BitVec 24, decode .cmd (a ++ (0x20 : BitVec 8)) = .ok (.schedAllocate a.toNat)) ∧
  ∀ (s : State) (priority n p rel : Nat) (T : Nat → SlotRecord) (Own Young Free : Nat → Prop) (after : Nat → Table),
    n = s.params.n → p = s.ptr.toNat → s.table.length = n → p < n →
    (∀ i, i < n → s.table[i]? = some (T i)) →
    (∀ i, Own i ↔ (T i).status = .assigned ∧ (T i).owner = s.nodeId) →
    (∀ i, Young i ↔ (s.nowHi ++ s.nowLo).toInt - (T i).assignedAt.toInt < 10 * (s.params.slotDuration : Int)) →
    (∀ i, Free i ↔ (T i).status = .free ∨ Own i) →
    (∀ j, after j = (s.table.map fun r =>
        if r.status = .assigned ∧ r.owner = s.nodeId then
          { status := .free, owner := Ident.zero, assignedAt := 0, carriedFragmentId := 0 }
        else r).set j
          { status := .assigned, owner := s.nodeId, assignedAt := s.nowHi ++ s.nowLo, carriedFragmentId := 0 }) →
    rel = s.table.countP (fun r => r.status = .assigned ∧ r.owner = s.nodeId) →
    (∀ i, i < n → Own i → Young i → (∀ j, j < i → Own j → ¬Young j) →
      exec (.schedAllocate priority) s = .next (succeeded s (BitVec.ofNat 32 i) 1 0 0)) ∧
    ((∀ i, i < n → Own i → ¬Young i) →
      (Free p → exec (.schedAllocate priority) s =
        .next (succeeded { s with table := after p } (BitVec.ofNat 32 p) 3 (BitVec.ofNat 32 rel) 0)) ∧
      (¬Free p → Free ((p + 1) % n) → exec (.schedAllocate priority) s =
        .next (succeeded { s with table := after ((p + 1) % n) } (BitVec.ofNat 32 ((p + 1) % n)) 4
          (BitVec.ofNat 32 rel) 0)) ∧
      (∀ k, 2 ≤ k → k < n → Free ((p + k) % n) → (∀ k', k' < k → ¬Free ((p + k') % n)) →
        exec (.schedAllocate priority) s =
          .next (succeeded { s with table := after ((p + k) % n) } (BitVec.ofNat 32 ((p + k) % n)) 5
            (BitVec.ofNat 32 rel) 0)) ∧
      (∀ o, o < n → (∀ i, i < n → ¬Free i) → (∀ i, i < n → (T o).assignedAt.toInt ≤ (T i).assignedAt.toInt) →
        (∀ i, i < o → (T o).assignedAt.toInt < (T i).assignedAt.toInt) →
        (5 * (s.params.slotDuration : Int) < (s.nowHi ++ s.nowLo).toInt - (T o).assignedAt.toInt →
          exec (.schedAllocate priority) s =
            .next (succeeded { s with table := after o } (BitVec.ofNat 32 o) 6 0 0)) ∧
        ((s.nowHi ++ s.nowLo).toInt - (T o).assignedAt.toInt ≤ 5 * (s.params.slotDuration : Int) →
          exec (.schedAllocate priority) s = .next (failed s 6))))

/-- R195: (a) step 6 runs only when every slot is Assigned; (b) the failing path leaves the table as it was; (c) it is
taken exactly when every slot is Assigned, to others than id, with an age of at most 5·D; (d) after a success id owns
the slot returned, and owns exactly one slot unless step 1 returned one of several slots it owned. -/
def Obligations.AllocateConsequences : Prop :=
  ∀ (s t : State) (priority : Nat), s.table.length = s.params.n → s.ptr.toNat < s.params.n → s.params.n ≤ 65536 →
    exec (.schedAllocate priority) s = .next t →
    (t.status.err = false → t.res.r1 = 6 → ∀ r ∈ s.table, r.status = .assigned) ∧
    (t.status.err = true → t.table = s.table) ∧
    (t.status.err = true ↔
      ∀ r ∈ s.table, r.status = .assigned ∧ r.owner ≠ s.nodeId ∧
        s.now - r.assignedAt.toInt ≤ 5 * (s.params.slotDuration : Int)) ∧
    (t.status.err = false →
      (∃ r, t.table[t.res.r0.toNat]? = some r ∧ r.status = .assigned ∧ r.owner = s.nodeId) ∧
      (t.table.countP (fun r => r.status = .assigned ∧ r.owner = s.nodeId) = 1 ∨
        (t.res.r1 = 1 ∧ t.table = s.table ∧ 1 < s.table.countP (fun r => r.status = .assigned ∧ r.owner = s.nodeId))))

/-- R196: while the slot SCHED_ALLOCATE returned is under 10·D old, and NOW has not gone back, a second call for the
same node returns the same slot by step 1 and changes no record. -/
def Obligations.AllocateIsIdempotent : Prop :=
  ∀ (s t u : State) (p p' : Nat) (r : SlotRecord),
    s.table.length = s.params.n → s.ptr.toNat < s.params.n → s.params.n ≤ 65536 →
    exec (.schedAllocate p) s = .next t → t.status.err = false →
    u.table = t.table → u.nodeId = s.nodeId → u.params = s.params → s.now ≤ u.now →
    t.table[t.res.r0.toNat]? = some r → u.now - r.assignedAt.toInt < 10 * (s.params.slotDuration : Int) →
    exec (.schedAllocate p') u = .next (succeeded u t.res.r0 1 0 0)

/-- R197: two SCHED_ALLOCATE words that differ only in ARG are both legal and have the same effect. -/
def Obligations.PriorityHasNoEffect : Prop :=
  ∀ (s : State) (a a' : BitVec 24), ∃ i i',
    decode .cmd (a ++ (0x20 : BitVec 8)) = .ok i ∧ decode .cmd (a' ++ (0x20 : BitVec 8)) = .ok i' ∧ exec i s = exec i' s

/-- R210: SCHED_ALLOC_CONSEC assigns the first window of `count` Free slots, all at once, or fails and changes no
record. ARG is the count. -/
def Obligations.AllocConsecTakesTheFirstWindow : Prop :=
  (∀ a : BitVec 24, decode .cmd (a ++ (0x21 : BitVec 8)) = .ok (.schedAllocConsec a.toNat)) ∧
  ∀ (s : State) (count : Nat), s.table.length = s.params.n →
    (count = 0 ∨ s.params.n < count → exec (.schedAllocConsec count) s = .next (failed s 7)) ∧
    (0 < count → count ≤ s.params.n →
      (∀ first, first + count ≤ s.params.n →
        (∀ j, first ≤ j → j < first + count → ∃ r, s.table[j]? = some r ∧ r.status = .free) →
        (∀ f, f < first → ∃ j r, f ≤ j ∧ j < f + count ∧ s.table[j]? = some r ∧ r.status = .assigned) →
        ∃ tbl : Table,
          exec (.schedAllocConsec count) s =
            .next (succeeded { s with table := tbl } (BitVec.ofNat 32 first) (BitVec.ofNat 32 count) 0 0) ∧
          ∀ j, tbl[j]? = if first ≤ j ∧ j < first + count then
              some { status := .assigned, owner := s.nodeId, assignedAt := s.nowHi ++ s.nowLo, carriedFragmentId := 0 }
            else s.table[j]?) ∧
      ((∀ f, f + count ≤ s.params.n → ∃ j r, f ≤ j ∧ j < f + count ∧ s.table[j]? = some r ∧ r.status = .assigned) →
        exec (.schedAllocConsec count) s = .next (failed s 7)))

/-- R211: the source's worked property on a fully free 10-slot table: 3 slots give 0, 1, 2; 3 more for another node give
3, 4, 5; a request for 8 fails after the first call and after the second, and mutates nothing. -/
def Obligations.ConsecutiveAllocationScenario : Prop :=
  ∀ (s : State) (y z : Ident) (x : SlotRecord),
    s.params.n = 10 → s.table = List.replicate 10 SlotRecord.freeRecord →
    x = { status := .assigned, owner := s.nodeId, assignedAt := s.now64, carriedFragmentId := 0 } →
    ∃ t u, exec (.schedAllocConsec 3) s = .next t ∧ t.res.r0 = 0 ∧ t.res.r1 = 3 ∧
      t.table = List.replicate 3 x ++ List.replicate 7 SlotRecord.freeRecord ∧
      exec (.schedAllocConsec 8) { t with nodeId := z } = .next (failed { t with nodeId := z } 7) ∧
      exec (.schedAllocConsec 3) { t with nodeId := y } = .next u ∧ u.res.r0 = 3 ∧ u.res.r1 = 3 ∧
      u.table = List.replicate 3 x ++ List.replicate 3 { x with owner := y } ++
        List.replicate 4 SlotRecord.freeRecord ∧
      exec (.schedAllocConsec 8) { u with nodeId := z } = .next (failed { u with nodeId := z } 7)

/-- R215: SCHED_RELEASE frees the slot, Free or Assigned, whoever owns it, or fails on an id outside [0, N). ARG is the
id. -/
def Obligations.ReleaseFreesTheSlot : Prop :=
  (∀ a : BitVec 24, decode .cmd (a ++ (0x22 : BitVec 8)) = .ok (.schedRelease a.toNat)) ∧
  ∀ (s : State) (slotId : Nat),
    (s.params.n ≤ slotId → exec (.schedRelease slotId) s = .next (failed s 8)) ∧
    (slotId < s.params.n → exec (.schedRelease slotId) s = .next (succeeded
      { s with
        table := s.table.set slotId
          { status := .free, owner := ⟨0, 0, 0, 0, 0, 0, 0, 0⟩, assignedAt := 0, carriedFragmentId := 0 } }
      (BitVec.ofNat 32 slotId) 0 0 0))

/-- R225, R220: SCHED_SNAPSHOT copies every record to its 64-byte entry, sixteen big-endian words, returns the number of
Assigned slots and PTR, and changes nothing else. With ARG ≠ 0 the word is illegal. -/
def Obligations.SnapshotCopiesTheTable : Prop :=
  (∀ a : BitVec 24, a ≠ 0 → decode .cmd (a ++ (0x23 : BitVec 8)) = .error .reservedArgument) ∧
  ∀ s : State, s.table.length = s.params.n →
    ∃ m, exec .schedSnapshot s = .next (succeeded { s with snap := m }
        (BitVec.ofNat 32 (s.table.countP (fun r => r.status = .assigned))) s.ptr 0 0) ∧
      (∀ k, 64 * s.params.n ≤ k → Memory.read? m k = Memory.read? s.snap k) ∧
      ∀ (i : Nat) (r : SlotRecord), s.table[i]? = some r →
        Memory.readRange m (64 * i) 4 = some (wordBytes (if r.status = .assigned then 1 else 0)) ∧
        (∀ j : Fin 8, Memory.readRange m (64 * i + 4 + 4 * j.val) 4 = some (wordBytes (r.owner.word j))) ∧
        Memory.readRange m (64 * i + 36) 4 = some (wordBytes (r.assignedAt.extractLsb' 0 32)) ∧
        Memory.readRange m (64 * i + 40) 4 = some (wordBytes (r.assignedAt.extractLsb' 32 32)) ∧
        Memory.readRange m (64 * i + 44) 4 = some (wordBytes r.carriedFragmentId) ∧
        Memory.readRange m (64 * i + 48) 16 = some (List.replicate 16 0)

/-- R230: TICK advances PTR by one around the ring of N slots and changes nothing else, whatever BUSY is. A word
with bit 0 set requests it, whatever its other bits. -/
def Obligations.TickAdvancesThePointer : Prop :=
  (∀ w : Word, w.getLsbD 0 = true → decode .tick w = .ok .tick) ∧
  ∀ s : State, s.ptr.toNat < s.params.n → s.params.n ≤ 65536 →
    exec .tick s = .next { s with ptr := if s.ptr.toNat + 1 = s.params.n then 0 else s.ptr + 1 }
end

