-- ==== Sys2Proof/Laws/Bytes.lean ====
section
/-! SUPPORT. Byte order: lengths, and that packing and unpacking are inverse (spec/20_memory.md R61). -/

namespace Sys2Proof.Machine

open Sys2Proof

@[simp] theorem wordBytes_length (w : Word) : (wordBytes w).length = 4 := rfl

@[simp] theorem halfBytes_length (h : Half) : (halfBytes h).length = 2 := rfl

@[simp] theorem Ident.bytes_length (x : Ident) : x.bytes.length = 32 := by simp [Ident.bytes]

@[simp] theorem headerSentinel_length : headerSentinel.length = 8 := rfl

@[simp] theorem footerSentinel_length : footerSentinel.length = 8 := rfl

theorem beNat_four (a b c d : Byte) :
    beNat [a, b, c, d] = a.toNat * 2 ^ 24 + b.toNat * 2 ^ 16 + c.toNat * 2 ^ 8 + d.toNat := by
  simp [beNat]; omega

theorem beNat_two (a b : Byte) : beNat [a, b] = a.toNat * 2 ^ 8 + b.toNat := by
  simp [beNat]

theorem toNat_append_byte {n : Nat} (x : BitVec n) (b : Byte) : (x ++ b).toNat = x.toNat * 2 ^ 8 + b.toNat := by
  rw [BitVec.toNat_append, ← Nat.shiftLeft_add_eq_or_of_lt b.isLt, Nat.shiftLeft_eq]

/-- A word loaded from four bytes is their concatenation, the first on top. -/
theorem beWord_four (a b c d : Byte) : beWord [a, b, c, d] = a ++ b ++ c ++ d := by
  apply BitVec.eq_of_toNat_eq
  have := a.isLt; have := b.isLt; have := c.isLt; have := d.isLt
  simp only [beWord, beNat_four, BitVec.toNat_ofNat, toNat_append_byte]
  omega

theorem beHalf_two (a b : Byte) : beHalf [a, b] = a ++ b := by
  apply BitVec.eq_of_toNat_eq
  have := a.isLt; have := b.isLt
  simp only [beHalf, beNat_two, BitVec.toNat_ofNat, toNat_append_byte]
  omega

@[simp] theorem beNat_wordBytes (w : Word) : beNat (wordBytes w) = w.toNat := by
  have := w.isLt
  simp only [wordBytes, beNat_four, BitVec.extractLsb'_toNat, Nat.shiftRight_eq_div_pow]
  omega

@[simp] theorem beWord_wordBytes (w : Word) : beWord (wordBytes w) = w := by
  simp [beWord]

@[simp] theorem beHalf_halfBytes (h : Half) : beHalf (halfBytes h) = h := by
  apply BitVec.eq_of_toNat_eq
  have := h.isLt
  simp only [beHalf, halfBytes, beNat_two, BitVec.toNat_ofNat, BitVec.extractLsb'_toNat, Nat.shiftRight_eq_div_pow]
  omega

theorem beWord_four_toNat (a b c d : Byte) :
    (beWord [a, b, c, d]).toNat = a.toNat * 2 ^ 24 + b.toNat * 2 ^ 16 + c.toNat * 2 ^ 8 + d.toNat := by
  have := a.isLt; have := b.isLt; have := c.isLt; have := d.isLt
  rw [beWord, BitVec.toNat_ofNat, beNat_four, Nat.mod_eq_of_lt (by omega)]

@[simp] theorem wordBytes_beWord (a b c d : Byte) : wordBytes (beWord [a, b, c, d]) = [a, b, c, d] := by
  have ha := a.isLt; have hb := b.isLt; have hc := c.isLt; have hd := d.isLt
  have h := beWord_four_toNat a b c d
  generalize beWord [a, b, c, d] = w at h
  have key : ∀ (k : Nat) (x : Byte), w.toNat / 2 ^ k % 2 ^ 8 = x.toNat → w.extractLsb' k 8 = x := fun k x hx =>
    BitVec.eq_of_toNat_eq (by rw [BitVec.extractLsb'_toNat, Nat.shiftRight_eq_div_pow, hx])
  rw [wordBytes, key 24 a (by omega), key 16 b (by omega), key 8 c (by omega), key 0 d (by omega)]

/-- A slice that is one whole part of an append. -/
theorem slice_append_mid (xs ys zs : List Byte) (off n : Nat) (hoff : off = xs.length) (hn : n = ys.length) :
    slice (xs ++ ys ++ zs) off n = ys := by
  subst hoff hn; simp [slice]

@[simp] theorem slice_length (bs : List Byte) (off n : Nat) : (slice bs off n).length = min n (bs.length - off) := by
  simp [slice]

theorem slice_getElem? (bs : List Byte) (off n j : Nat) (h : j < n) : (slice bs off n)[j]? = bs[off + j]? := by
  simp [slice, h]

theorem slice_append_slice (bs : List Byte) (a m n : Nat) : slice bs a m ++ slice bs (a + m) n = slice bs a (m + n) := by
  simp only [slice, List.take_add, List.drop_drop]

/-- Four bytes loaded as a word and laid out again. -/
theorem wordBytes_beWord_of_length {bs : List Byte} (h : bs.length = 4) : wordBytes (beWord bs) = bs := by
  match bs, h with
  | [a, b, c, d], _ => exact wordBytes_beWord a b c d

theorem Ident.bytes_ofBytes {bs : List Byte} (h : bs.length = 32) : (Ident.ofBytes bs).bytes = bs := by
  have key : ∀ k, k + 4 ≤ 32 → wordBytes (beWord (slice bs k 4)) = slice bs k 4 := fun k hk =>
    wordBytes_beWord_of_length (by rw [slice_length]; omega)
  simp only [Ident.bytes, Ident.ofBytes]
  rw [key 0 (by omega), key 4 (by omega), key 8 (by omega), key 12 (by omega), key 16 (by omega), key 20 (by omega),
    key 24 (by omega), key 28 (by omega)]
  rw [slice_append_slice bs 0 4 4, slice_append_slice bs 0 8 4, slice_append_slice bs 0 12 4,
    slice_append_slice bs 0 16 4, slice_append_slice bs 0 20 4, slice_append_slice bs 0 24 4,
    slice_append_slice bs 0 28 4]
  simp [slice, h]

@[simp] theorem Ident.ofBytes_bytes (x : Ident) : Ident.ofBytes x.bytes = x := by
  obtain ⟨x0, x1, x2, x3, x4, x5, x6, x7⟩ := x
  show Ident.mk (beWord (wordBytes x0)) (beWord (wordBytes x1)) (beWord (wordBytes x2)) (beWord (wordBytes x3))
    (beWord (wordBytes x4)) (beWord (wordBytes x5)) (beWord (wordBytes x6)) (beWord (wordBytes x7)) = _
  simp only [beWord_wordBytes]

theorem Ident.word_setWord (x : Ident) (j k : Fin 8) (v : Word) :
    (x.setWord j v).word k = if j = k then v else x.word k := by
  match j, k with
  | 0, 0 | 0, 1 | 0, 2 | 0, 3 | 0, 4 | 0, 5 | 0, 6 | 0, 7 => rfl
  | 1, 0 | 1, 1 | 1, 2 | 1, 3 | 1, 4 | 1, 5 | 1, 6 | 1, 7 => rfl
  | 2, 0 | 2, 1 | 2, 2 | 2, 3 | 2, 4 | 2, 5 | 2, 6 | 2, 7 => rfl
  | 3, 0 | 3, 1 | 3, 2 | 3, 3 | 3, 4 | 3, 5 | 3, 6 | 3, 7 => rfl
  | 4, 0 | 4, 1 | 4, 2 | 4, 3 | 4, 4 | 4, 5 | 4, 6 | 4, 7 => rfl
  | 5, 0 | 5, 1 | 5, 2 | 5, 3 | 5, 4 | 5, 5 | 5, 6 | 5, 7 => rfl
  | 6, 0 | 6, 1 | 6, 2 | 6, 3 | 6, 4 | 6, 5 | 6, 6 | 6, 7 => rfl
  | 7, 0 | 7, 1 | 7, 2 | 7, 3 | 7, 4 | 7, 5 | 7, 6 | 7, 7 => rfl

@[simp] theorem frameBytes_length (tx : TxRegs) (pay : List Byte) (ck : Word) :
    (frameBytes tx pay ck).length = 70 + pay.length := by
  simp [frameBytes]; omega

@[simp] theorem RxRegs.header_length (rx : RxRegs) : rx.header.length = 8 := rfl

@[simp] theorem RxRegs.footer_length (rx : RxRegs) : rx.footer.length = 8 := rfl

/-- Two and four bytes of a sequence known byte by byte. -/
theorem slice_two {w : List Byte} {b : Nat → Byte} (hr : ∀ j, j < w.length → w[j]? = some (b j)) {k : Nat}
    (hk : k + 2 ≤ w.length) : slice w k 2 = [b k, b (k + 1)] := by
  apply List.ext_getElem?
  intro i
  match i with
  | 0 => rw [slice_getElem? _ _ _ _ (by omega)]; exact hr k (by omega)
  | 1 => rw [slice_getElem? _ _ _ _ (by omega)]; exact hr (k + 1) (by omega)
  | i + 2 => rw [List.getElem?_eq_none (by simp)]; rfl

theorem slice_four {w : List Byte} {b : Nat → Byte} (hr : ∀ j, j < w.length → w[j]? = some (b j)) {k : Nat}
    (hk : k + 4 ≤ w.length) : slice w k 4 = [b k, b (k + 1), b (k + 2), b (k + 3)] := by
  apply List.ext_getElem?
  intro i
  match i with
  | 0 => rw [slice_getElem? _ _ _ _ (by omega)]; exact hr k (by omega)
  | 1 => rw [slice_getElem? _ _ _ _ (by omega)]; exact hr (k + 1) (by omega)
  | 2 => rw [slice_getElem? _ _ _ _ (by omega)]; exact hr (k + 2) (by omega)
  | 3 => rw [slice_getElem? _ _ _ _ (by omega)]; exact hr (k + 3) (by omega)
  | i + 4 => rw [List.getElem?_eq_none (by simp)]; rfl

theorem leadingZeros_spec (r : List Byte) :
    (∀ i, i < (r.takeWhile (fun b => b == 0)).length → r[i]? = some 0) ∧
    r[(r.takeWhile (fun b => b == 0)).length]? ≠ some 0 := by
  induction r with
  | nil => simp
  | cons b r ih =>
    by_cases hb : b = 0
    · subst hb
      refine ⟨fun i hi => ?_, by simpa using ih.2⟩
      cases i with
      | zero => rfl
      | succ i => exact ih.1 i (by simpa using hi)
    · have hx : (b == 0) = false := by simpa using hb
      rw [List.takeWhile_cons, hx]
      exact ⟨fun i hi => absurd hi (Nat.not_lt_zero i), fun h => hb (by simpa using h)⟩

/-- What trimming trailing zero bytes of an identifier field leaves (R36). -/
theorem trimmedLen_spec {bs : List Byte} (h : bs.length = 32) :
    trimmedLen bs ≤ 32 ∧ (∀ j, trimmedLen bs ≤ j → j < 32 → bs[j]? = some 0) ∧
    (0 < trimmedLen bs → bs[trimmedLen bs - 1]? ≠ some 0) := by
  have e : ∀ j, j < 32 → bs[j]? = bs.reverse[31 - j]? := by
    intro j hj
    rw [List.getElem?_reverse (by omega)]; congr 1; omega
  obtain ⟨h1, h2⟩ := leadingZeros_spec bs.reverse
  have hle : (bs.reverse.takeWhile (fun b => b == 0)).length ≤ 32 := by
    have := (List.takeWhile_prefix (fun b : Byte => b == 0) (l := bs.reverse)).length_le
    simpa [h] using this
  unfold trimmedLen trailingZeros
  refine ⟨by omega, fun j hj hj' => ?_, fun h0 => ?_⟩
  · rw [e j hj']; exact h1 _ (by omega)
  · rw [e _ (by omega)]
    rwa [show 31 - (32 - (bs.reverse.takeWhile (fun b => b == 0)).length - 1) =
      (bs.reverse.takeWhile (fun b => b == 0)).length by omega]

end Sys2Proof.Machine
end

