-- ==== Sys2Proof/Laws/Memory.lean ====
section
/-! SUPPORT. The buffers: what MemRead and MemWrite do to every byte, and that every operation keeps the canonical form
(spec/20_memory.md R64). -/

namespace Sys2Proof.Machine

open Sys2Proof

@[simp] theorem Memory.read?_nil (k : Nat) : Memory.read? [] k = none := rfl

@[simp] theorem Memory.read?_cons (c : Host.Cell) (m : Memory) (k : Nat) :
    Memory.read? (c :: m) k = if c.1 = k then some c.2 else Memory.read? m k := rfl

theorem Memory.read?_append (m m' : Memory) (k : Nat) :
    Memory.read? (m ++ m') k = (Memory.read? m k).or (Memory.read? m' k) := by
  induction m with
  | nil => simp
  | cons c m ih => simp only [List.cons_append, Memory.read?_cons, ih]; split <;> simp

theorem Memory.read?_filter (m : Memory) (p : Nat → Bool) (k : Nat) :
    Memory.read? (m.filter (fun c => p c.1)) k = if p k then Memory.read? m k else none := by
  induction m with
  | nil => simp
  | cons c m ih =>
    by_cases hc : p c.1 <;> by_cases hk : c.1 = k
    · subst hk; simp [hc]
    · simp [hc, hk, ih]
    · subst hk; simp [hc, ih]
    · simp [hc, hk, ih]

theorem Memory.read?_cellsFrom (off : Nat) (bs : List Byte) (k : Nat) :
    Memory.read? (cellsFrom off bs) k = if off ≤ k then bs[k - off]? else none := by
  induction bs generalizing off with
  | nil => simp [cellsFrom]
  | cons b bs ih =>
    simp only [cellsFrom, Memory.read?_cons, ih]
    rcases Nat.lt_trichotomy off k with h | h | h
    · have : k - off = (k - (off + 1)) + 1 := by omega
      simp [show off ≠ k by omega, show off ≤ k by omega, show off + 1 ≤ k by omega, this]
    · subst h; simp
    · simp [show off ≠ k by omega, show ¬ off ≤ k by omega, show ¬ off + 1 ≤ k by omega]

/-- Read after write: the written bytes, and every other byte as before. -/
theorem Memory.read?_write (m : Memory) (off : Nat) (bs : List Byte) (k : Nat) :
    Memory.read? (Memory.write m off bs) k =
      if off ≤ k ∧ k < off + bs.length then bs[k - off]? else Memory.read? m k := by
  unfold Memory.write
  rw [Memory.read?_append, Memory.read?_append, Memory.read?_cellsFrom,
    Memory.read?_filter m (fun a => decide (a < off)), Memory.read?_filter m (fun a => decide (off + bs.length ≤ a))]
  by_cases h1 : off ≤ k
  · by_cases h2 : k < off + bs.length
    · have h3 : k - off < bs.length := by omega
      simp [h1, h2, show ¬ k < off by omega, List.getElem?_eq_getElem h3]
    · have h3 : bs[k - off]? = none := by simp; omega
      simp [h1, h2, h3, show ¬ k < off by omega, show off + bs.length ≤ k by omega]
  · simp [h1, show k < off by omega, show ¬ off + bs.length ≤ k by omega]

theorem Memory.read?_write_of_lt (m : Memory) (off : Nat) (bs : List Byte) (k : Nat) (h : k < bs.length) :
    Memory.read? (Memory.write m off bs) (off + k) = bs[k]? := by
  simp [Memory.read?_write, h]

theorem Memory.readRange_eq_some_iff (m : Memory) (off n : Nat) (bs : List Byte) :
    Memory.readRange m off n = some bs ↔ bs.length = n ∧ ∀ j, j < n → Memory.read? m (off + j) = bs[j]? := by
  induction n generalizing off bs with
  | zero => cases bs <;> simp [Memory.readRange]
  | succ n ih =>
    constructor
    · intro h
      simp only [Memory.readRange] at h
      split at h
      · rename_i b bs' hb hbs'
        cases h
        obtain ⟨hl, hr⟩ := (ih _ _).1 hbs'
        refine ⟨by simp [hl], fun j hj => ?_⟩
        cases j with
        | zero => simpa using hb
        | succ j => simpa [Nat.add_assoc, Nat.add_comm 1 j] using hr j (by omega)
      · cases h
    · rintro ⟨hl, hr⟩
      cases bs with
      | nil => simp at hl
      | cons b bs =>
        have h0 : Memory.read? m off = some b := by simpa using hr 0 (by omega)
        have h1 : Memory.readRange m (off + 1) n = some bs :=
          (ih _ _).2 ⟨by simpa using hl, fun j hj => by
            simpa [Nat.add_assoc, Nat.add_comm 1 j] using hr (j + 1) (by omega)⟩
        simp [Memory.readRange, h0, h1]

theorem Memory.readRange_eq_none_iff (m : Memory) (off n : Nat) :
    Memory.readRange m off n = none ↔ ∃ j, j < n ∧ Memory.read? m (off + j) = none := by
  induction n generalizing off with
  | zero => simp [Memory.readRange]
  | succ n ih =>
    constructor
    · intro h
      cases h0 : Memory.read? m off with
      | none => exact ⟨0, by omega, by simpa using h0⟩
      | some b =>
        cases h1 : Memory.readRange m (off + 1) n with
        | none =>
          obtain ⟨j, hj, hr⟩ := (ih _).1 h1
          exact ⟨j + 1, by omega, by simpa [Nat.add_assoc, Nat.add_comm 1 j] using hr⟩
        | some bs => simp [Memory.readRange, h0, h1] at h
    · rintro ⟨j, hj, hr⟩
      cases j with
      | zero => simp only [Nat.add_zero] at hr; simp [Memory.readRange, hr]
      | succ j =>
        have : Memory.readRange m (off + 1) n = none :=
          (ih _).2 ⟨j, by omega, by simpa [Nat.add_assoc, Nat.add_comm 1 j] using hr⟩
        simp [Memory.readRange, this]

theorem Memory.readRange_length {m : Memory} {off n : Nat} {bs : List Byte} (h : Memory.readRange m off n = some bs) :
    bs.length = n := ((Memory.readRange_eq_some_iff m off n bs).1 h).1

/-- MemRead after MemWrite: any part of the written bytes. -/
theorem Memory.readRange_write_slice (m : Memory) (off : Nat) (bs : List Byte) (k n : Nat) (h : k + n ≤ bs.length) :
    Memory.readRange (Memory.write m off bs) (off + k) n = some (slice bs k n) := by
  refine (Memory.readRange_eq_some_iff _ _ _ _).2 ⟨by simp; omega, fun j hj => ?_⟩
  rw [slice_getElem? _ _ _ _ hj, Nat.add_assoc, Memory.read?_write_of_lt _ _ _ _ (by omega)]

theorem Memory.readRange_write (m : Memory) (bs : List Byte) :
    Memory.readRange (Memory.write m 0 bs) 0 bs.length = some bs := by
  have := Memory.readRange_write_slice m 0 bs 0 bs.length (by omega)
  simpa [slice] using this

/-! ### The canonical form -/

theorem mem_cellsFrom {off : Nat} {bs : List Byte} {c : Host.Cell} (h : c ∈ cellsFrom off bs) :
    off ≤ c.1 ∧ c.1 < off + bs.length := by
  induction bs generalizing off with
  | nil => simp [cellsFrom] at h
  | cons b bs ih =>
    simp only [cellsFrom, List.mem_cons] at h
    rcases h with rfl | h
    · simp
    · have := ih h; simp; omega

theorem cellsFrom_wf (off : Nat) (bs : List Byte) : Memory.wf (cellsFrom off bs) := by
  induction bs generalizing off with
  | nil => exact List.Pairwise.nil
  | cons b bs ih =>
    refine List.Pairwise.cons (fun c hc => ?_) (ih (off + 1))
    have := (mem_cellsFrom hc).1; simp; omega

/-- Every write keeps the canonical form. -/
theorem Memory.write_wf {m : Memory} (h : Memory.wf m) (off : Nat) (bs : List Byte) :
    Memory.wf (Memory.write m off bs) := by
  unfold Memory.write Memory.wf
  rw [List.pairwise_append, List.pairwise_append]
  refine ⟨⟨h.filter _, cellsFrom_wf _ _, fun a ha b hb => ?_⟩, h.filter _, fun a ha b hb => ?_⟩
  · have := mem_cellsFrom hb; simp at ha; omega
  · simp only [List.mem_append, List.mem_filter, decide_eq_true_eq] at ha hb
    rcases ha with ha | ha
    · omega
    · have := mem_cellsFrom ha; omega

theorem mem_write {m : Memory} {off : Nat} {bs : List Byte} {c : Host.Cell} (h : c ∈ Memory.write m off bs) :
    c ∈ m ∨ (off ≤ c.1 ∧ c.1 < off + bs.length) := by
  simp only [Memory.write, List.mem_append, List.mem_filter] at h
  rcases h with (h | h) | h
  · exact .inl h.1
  · exact .inr (mem_cellsFrom h)
  · exact .inl h.1

theorem BufferOk.nil (cap : Nat) : BufferOk [] cap := ⟨List.Pairwise.nil, by simp⟩

theorem BufferOk.write {m : Memory} {cap : Nat} (h : BufferOk m cap) (off : Nat) (bs : List Byte)
    (hb : bs = [] ∨ off + bs.length ≤ cap) : BufferOk (Memory.write m off bs) cap := by
  refine ⟨Memory.write_wf h.1 off bs, fun c hc => ?_⟩
  rcases mem_write hc with hc | hc
  · exact h.2 c hc
  · rcases hb with rfl | hb
    · simp at hc; omega
    · omega

end Sys2Proof.Machine
end

