-- ==== Sys2Proof/Laws/State.lean ====
section
/-! SUPPORT. One lemma per field per named update of the state, so that no proof unfolds an update. -/

namespace Sys2Proof.Machine

open Sys2Proof

/-! ### State.result -/

@[simp] theorem State.result_params (s : State) (r0 r1 r2 r3 : Word) : (s.result r0 r1 r2 r3).params = s.params := rfl
@[simp] theorem State.result_status (s : State) (r0 r1 r2 r3 : Word) : (s.result r0 r1 r2 r3).status = s.status.succeed := rfl
@[simp] theorem State.result_pend (s : State) (r0 r1 r2 r3 : Word) : (s.result r0 r1 r2 r3).pend = s.pend := rfl
@[simp] theorem State.result_ptr (s : State) (r0 r1 r2 r3 : Word) : (s.result r0 r1 r2 r3).ptr = s.ptr := rfl
@[simp] theorem State.result_nowLo (s : State) (r0 r1 r2 r3 : Word) : (s.result r0 r1 r2 r3).nowLo = s.nowLo := rfl
@[simp] theorem State.result_nowHi (s : State) (r0 r1 r2 r3 : Word) : (s.result r0 r1 r2 r3).nowHi = s.nowHi := rfl
@[simp] theorem State.result_clk (s : State) (r0 r1 r2 r3 : Word) : (s.result r0 r1 r2 r3).clk = s.clk := rfl
@[simp] theorem State.result_res (s : State) (r0 r1 r2 r3 : Word) : (s.result r0 r1 r2 r3).res = { r0 := r0, r1 := r1, r2 := r2, r3 := r3 } := rfl
@[simp] theorem State.result_nodeId (s : State) (r0 r1 r2 r3 : Word) : (s.result r0 r1 r2 r3).nodeId = s.nodeId := rfl
@[simp] theorem State.result_tx (s : State) (r0 r1 r2 r3 : Word) : (s.result r0 r1 r2 r3).tx = s.tx := rfl
@[simp] theorem State.result_wireLen (s : State) (r0 r1 r2 r3 : Word) : (s.result r0 r1 r2 r3).wireLen = s.wireLen := rfl
@[simp] theorem State.result_rx (s : State) (r0 r1 r2 r3 : Word) : (s.result r0 r1 r2 r3).rx = s.rx := rfl
@[simp] theorem State.result_table (s : State) (r0 r1 r2 r3 : Word) : (s.result r0 r1 r2 r3).table = s.table := rfl
@[simp] theorem State.result_txp (s : State) (r0 r1 r2 r3 : Word) : (s.result r0 r1 r2 r3).txp = s.txp := rfl
@[simp] theorem State.result_wire (s : State) (r0 r1 r2 r3 : Word) : (s.result r0 r1 r2 r3).wire = s.wire := rfl
@[simp] theorem State.result_rxp (s : State) (r0 r1 r2 r3 : Word) : (s.result r0 r1 r2 r3).rxp = s.rxp := rfl
@[simp] theorem State.result_snap (s : State) (r0 r1 r2 r3 : Word) : (s.result r0 r1 r2 r3).snap = s.snap := rfl
@[simp] theorem State.result_turns (s : State) (r0 r1 r2 r3 : Word) : (s.result r0 r1 r2 r3).turns = s.turns := rfl
@[simp] theorem State.result_readData (s : State) (r0 r1 r2 r3 : Word) : (s.result r0 r1 r2 r3).readData = s.readData := rfl

/-! ### State.raise -/

@[simp] theorem State.raise_params (s : State) (e : ErrorKind) : (s.raise e).params = s.params := rfl
@[simp] theorem State.raise_status (s : State) (e : ErrorKind) : (s.raise e).status = s.status.fail e := rfl
@[simp] theorem State.raise_pend (s : State) (e : ErrorKind) : (s.raise e).pend = s.pend := rfl
@[simp] theorem State.raise_ptr (s : State) (e : ErrorKind) : (s.raise e).ptr = s.ptr := rfl
@[simp] theorem State.raise_nowLo (s : State) (e : ErrorKind) : (s.raise e).nowLo = s.nowLo := rfl
@[simp] theorem State.raise_nowHi (s : State) (e : ErrorKind) : (s.raise e).nowHi = s.nowHi := rfl
@[simp] theorem State.raise_clk (s : State) (e : ErrorKind) : (s.raise e).clk = s.clk := rfl
@[simp] theorem State.raise_res (s : State) (e : ErrorKind) : (s.raise e).res = s.res := rfl
@[simp] theorem State.raise_nodeId (s : State) (e : ErrorKind) : (s.raise e).nodeId = s.nodeId := rfl
@[simp] theorem State.raise_tx (s : State) (e : ErrorKind) : (s.raise e).tx = s.tx := rfl
@[simp] theorem State.raise_wireLen (s : State) (e : ErrorKind) : (s.raise e).wireLen = s.wireLen := rfl
@[simp] theorem State.raise_rx (s : State) (e : ErrorKind) : (s.raise e).rx = s.rx := rfl
@[simp] theorem State.raise_table (s : State) (e : ErrorKind) : (s.raise e).table = s.table := rfl
@[simp] theorem State.raise_txp (s : State) (e : ErrorKind) : (s.raise e).txp = s.txp := rfl
@[simp] theorem State.raise_wire (s : State) (e : ErrorKind) : (s.raise e).wire = s.wire := rfl
@[simp] theorem State.raise_rxp (s : State) (e : ErrorKind) : (s.raise e).rxp = s.rxp := rfl
@[simp] theorem State.raise_snap (s : State) (e : ErrorKind) : (s.raise e).snap = s.snap := rfl
@[simp] theorem State.raise_turns (s : State) (e : ErrorKind) : (s.raise e).turns = s.turns := rfl
@[simp] theorem State.raise_readData (s : State) (e : ErrorKind) : (s.raise e).readData = s.readData := rfl

/-! ### State.acceptCmd -/

@[simp] theorem State.acceptCmd_params (s : State) (w : Word) : (s.acceptCmd w).params = s.params := rfl
@[simp] theorem State.acceptCmd_status (s : State) (w : Word) : (s.acceptCmd w).status = s.status.accept w := rfl
@[simp] theorem State.acceptCmd_pend (s : State) (w : Word) : (s.acceptCmd w).pend = w := rfl
@[simp] theorem State.acceptCmd_ptr (s : State) (w : Word) : (s.acceptCmd w).ptr = s.ptr := rfl
@[simp] theorem State.acceptCmd_nowLo (s : State) (w : Word) : (s.acceptCmd w).nowLo = s.nowLo := rfl
@[simp] theorem State.acceptCmd_nowHi (s : State) (w : Word) : (s.acceptCmd w).nowHi = s.nowHi := rfl
@[simp] theorem State.acceptCmd_clk (s : State) (w : Word) : (s.acceptCmd w).clk = s.clk := rfl
@[simp] theorem State.acceptCmd_res (s : State) (w : Word) : (s.acceptCmd w).res = s.res := rfl
@[simp] theorem State.acceptCmd_nodeId (s : State) (w : Word) : (s.acceptCmd w).nodeId = s.nodeId := rfl
@[simp] theorem State.acceptCmd_tx (s : State) (w : Word) : (s.acceptCmd w).tx = s.tx := rfl
@[simp] theorem State.acceptCmd_wireLen (s : State) (w : Word) : (s.acceptCmd w).wireLen = s.wireLen := rfl
@[simp] theorem State.acceptCmd_rx (s : State) (w : Word) : (s.acceptCmd w).rx = s.rx := rfl
@[simp] theorem State.acceptCmd_table (s : State) (w : Word) : (s.acceptCmd w).table = s.table := rfl
@[simp] theorem State.acceptCmd_txp (s : State) (w : Word) : (s.acceptCmd w).txp = s.txp := rfl
@[simp] theorem State.acceptCmd_wire (s : State) (w : Word) : (s.acceptCmd w).wire = s.wire := rfl
@[simp] theorem State.acceptCmd_rxp (s : State) (w : Word) : (s.acceptCmd w).rxp = s.rxp := rfl
@[simp] theorem State.acceptCmd_snap (s : State) (w : Word) : (s.acceptCmd w).snap = s.snap := rfl
@[simp] theorem State.acceptCmd_turns (s : State) (w : Word) : (s.acceptCmd w).turns = s.turns := rfl
@[simp] theorem State.acceptCmd_readData (s : State) (w : Word) : (s.acceptCmd w).readData = s.readData := rfl

/-! ### State.dropCmd -/

@[simp] theorem State.dropCmd_params (s : State) : (s.dropCmd).params = s.params := rfl
@[simp] theorem State.dropCmd_status (s : State) : (s.dropCmd).status = s.status.drop := rfl
@[simp] theorem State.dropCmd_pend (s : State) : (s.dropCmd).pend = s.pend := rfl
@[simp] theorem State.dropCmd_ptr (s : State) : (s.dropCmd).ptr = s.ptr := rfl
@[simp] theorem State.dropCmd_nowLo (s : State) : (s.dropCmd).nowLo = s.nowLo := rfl
@[simp] theorem State.dropCmd_nowHi (s : State) : (s.dropCmd).nowHi = s.nowHi := rfl
@[simp] theorem State.dropCmd_clk (s : State) : (s.dropCmd).clk = s.clk := rfl
@[simp] theorem State.dropCmd_res (s : State) : (s.dropCmd).res = s.res := rfl
@[simp] theorem State.dropCmd_nodeId (s : State) : (s.dropCmd).nodeId = s.nodeId := rfl
@[simp] theorem State.dropCmd_tx (s : State) : (s.dropCmd).tx = s.tx := rfl
@[simp] theorem State.dropCmd_wireLen (s : State) : (s.dropCmd).wireLen = s.wireLen := rfl
@[simp] theorem State.dropCmd_rx (s : State) : (s.dropCmd).rx = s.rx := rfl
@[simp] theorem State.dropCmd_table (s : State) : (s.dropCmd).table = s.table := rfl
@[simp] theorem State.dropCmd_txp (s : State) : (s.dropCmd).txp = s.txp := rfl
@[simp] theorem State.dropCmd_wire (s : State) : (s.dropCmd).wire = s.wire := rfl
@[simp] theorem State.dropCmd_rxp (s : State) : (s.dropCmd).rxp = s.rxp := rfl
@[simp] theorem State.dropCmd_snap (s : State) : (s.dropCmd).snap = s.snap := rfl
@[simp] theorem State.dropCmd_turns (s : State) : (s.dropCmd).turns = s.turns := rfl
@[simp] theorem State.dropCmd_readData (s : State) : (s.dropCmd).readData = s.readData := rfl

/-! ### State.returns -/

@[simp] theorem State.returns_params (s : State) (v : Word) : (s.returns v).params = s.params := rfl
@[simp] theorem State.returns_status (s : State) (v : Word) : (s.returns v).status = s.status := rfl
@[simp] theorem State.returns_pend (s : State) (v : Word) : (s.returns v).pend = s.pend := rfl
@[simp] theorem State.returns_ptr (s : State) (v : Word) : (s.returns v).ptr = s.ptr := rfl
@[simp] theorem State.returns_nowLo (s : State) (v : Word) : (s.returns v).nowLo = s.nowLo := rfl
@[simp] theorem State.returns_nowHi (s : State) (v : Word) : (s.returns v).nowHi = s.nowHi := rfl
@[simp] theorem State.returns_clk (s : State) (v : Word) : (s.returns v).clk = s.clk := rfl
@[simp] theorem State.returns_res (s : State) (v : Word) : (s.returns v).res = s.res := rfl
@[simp] theorem State.returns_nodeId (s : State) (v : Word) : (s.returns v).nodeId = s.nodeId := rfl
@[simp] theorem State.returns_tx (s : State) (v : Word) : (s.returns v).tx = s.tx := rfl
@[simp] theorem State.returns_wireLen (s : State) (v : Word) : (s.returns v).wireLen = s.wireLen := rfl
@[simp] theorem State.returns_rx (s : State) (v : Word) : (s.returns v).rx = s.rx := rfl
@[simp] theorem State.returns_table (s : State) (v : Word) : (s.returns v).table = s.table := rfl
@[simp] theorem State.returns_txp (s : State) (v : Word) : (s.returns v).txp = s.txp := rfl
@[simp] theorem State.returns_wire (s : State) (v : Word) : (s.returns v).wire = s.wire := rfl
@[simp] theorem State.returns_rxp (s : State) (v : Word) : (s.returns v).rxp = s.rxp := rfl
@[simp] theorem State.returns_snap (s : State) (v : Word) : (s.returns v).snap = s.snap := rfl
@[simp] theorem State.returns_turns (s : State) (v : Word) : (s.returns v).turns = s.turns := rfl
@[simp] theorem State.returns_readData (s : State) (v : Word) : (s.returns v).readData = some v := rfl

/-! ### State.assertReset -/

@[simp] theorem State.assertReset_params (s : State) : s.assertReset.params = s.params := rfl
@[simp] theorem State.assertReset_status (s : State) : s.assertReset.status = (State.resetOf s.params).status := rfl
@[simp] theorem State.assertReset_pend (s : State) : s.assertReset.pend = (State.resetOf s.params).pend := rfl
@[simp] theorem State.assertReset_ptr (s : State) : s.assertReset.ptr = (State.resetOf s.params).ptr := rfl
@[simp] theorem State.assertReset_nowLo (s : State) : s.assertReset.nowLo = (State.resetOf s.params).nowLo := rfl
@[simp] theorem State.assertReset_nowHi (s : State) : s.assertReset.nowHi = (State.resetOf s.params).nowHi := rfl
@[simp] theorem State.assertReset_clk (s : State) : s.assertReset.clk = (State.resetOf s.params).clk := rfl
@[simp] theorem State.assertReset_res (s : State) : s.assertReset.res = (State.resetOf s.params).res := rfl
@[simp] theorem State.assertReset_nodeId (s : State) : s.assertReset.nodeId = (State.resetOf s.params).nodeId := rfl
@[simp] theorem State.assertReset_tx (s : State) : s.assertReset.tx = (State.resetOf s.params).tx := rfl
@[simp] theorem State.assertReset_wireLen (s : State) : s.assertReset.wireLen = (State.resetOf s.params).wireLen := rfl
@[simp] theorem State.assertReset_rx (s : State) : s.assertReset.rx = (State.resetOf s.params).rx := rfl
@[simp] theorem State.assertReset_table (s : State) : s.assertReset.table = (State.resetOf s.params).table := rfl
@[simp] theorem State.assertReset_txp (s : State) : s.assertReset.txp = (State.resetOf s.params).txp := rfl
@[simp] theorem State.assertReset_wire (s : State) : s.assertReset.wire = (State.resetOf s.params).wire := rfl
@[simp] theorem State.assertReset_rxp (s : State) : s.assertReset.rxp = (State.resetOf s.params).rxp := rfl
@[simp] theorem State.assertReset_snap (s : State) : s.assertReset.snap = (State.resetOf s.params).snap := rfl
@[simp] theorem State.assertReset_turns (s : State) : s.assertReset.turns = s.turns := rfl
@[simp] theorem State.assertReset_readData (s : State) : s.assertReset.readData = s.readData := rfl

/-! ### statusWrite -/

@[simp] theorem statusWrite_params (v : Word) (s : State) : (statusWrite v s).params = s.params := rfl
@[simp] theorem statusWrite_status (v : Word) (s : State) : (statusWrite v s).status = s.status.hostWrite v := rfl
@[simp] theorem statusWrite_pend (v : Word) (s : State) : (statusWrite v s).pend = s.pend := rfl
@[simp] theorem statusWrite_ptr (v : Word) (s : State) : (statusWrite v s).ptr = s.ptr := rfl
@[simp] theorem statusWrite_nowLo (v : Word) (s : State) : (statusWrite v s).nowLo = s.nowLo := rfl
@[simp] theorem statusWrite_nowHi (v : Word) (s : State) : (statusWrite v s).nowHi = s.nowHi := rfl
@[simp] theorem statusWrite_clk (v : Word) (s : State) : (statusWrite v s).clk = s.clk := rfl
@[simp] theorem statusWrite_res (v : Word) (s : State) : (statusWrite v s).res = s.res := rfl
@[simp] theorem statusWrite_nodeId (v : Word) (s : State) : (statusWrite v s).nodeId = s.nodeId := rfl
@[simp] theorem statusWrite_tx (v : Word) (s : State) : (statusWrite v s).tx = s.tx := rfl
@[simp] theorem statusWrite_wireLen (v : Word) (s : State) : (statusWrite v s).wireLen = s.wireLen := rfl
@[simp] theorem statusWrite_rx (v : Word) (s : State) : (statusWrite v s).rx = s.rx := rfl
@[simp] theorem statusWrite_table (v : Word) (s : State) : (statusWrite v s).table = s.table := rfl
@[simp] theorem statusWrite_txp (v : Word) (s : State) : (statusWrite v s).txp = s.txp := rfl
@[simp] theorem statusWrite_wire (v : Word) (s : State) : (statusWrite v s).wire = s.wire := rfl
@[simp] theorem statusWrite_rxp (v : Word) (s : State) : (statusWrite v s).rxp = s.rxp := rfl
@[simp] theorem statusWrite_snap (v : Word) (s : State) : (statusWrite v s).snap = s.snap := rfl
@[simp] theorem statusWrite_turns (v : Word) (s : State) : (statusWrite v s).turns = s.turns := rfl
@[simp] theorem statusWrite_readData (v : Word) (s : State) : (statusWrite v s).readData = s.readData := rfl

/-! ### STATUS -/

@[simp] theorem Status.succeed_busy (st : Status) : (st.succeed).busy = false := rfl
@[simp] theorem Status.succeed_err (st : Status) : (st.succeed).err = false := rfl
@[simp] theorem Status.succeed_overrun (st : Status) : (st.succeed).overrun = st.overrun := rfl
@[simp] theorem Status.succeed_errcode (st : Status) : (st.succeed).errcode = 0 := rfl
@[simp] theorem Status.succeed_lastop (st : Status) : (st.succeed).lastop = st.lastop := rfl
@[simp] theorem Status.fail_busy (st : Status) (e : ErrorKind) : (st.fail e).busy = false := rfl
@[simp] theorem Status.fail_err (st : Status) (e : ErrorKind) : (st.fail e).err = true := rfl
@[simp] theorem Status.fail_overrun (st : Status) (e : ErrorKind) : (st.fail e).overrun = st.overrun := rfl
@[simp] theorem Status.fail_errcode (st : Status) (e : ErrorKind) : (st.fail e).errcode = e.code := rfl
@[simp] theorem Status.fail_lastop (st : Status) (e : ErrorKind) : (st.fail e).lastop = st.lastop := rfl
@[simp] theorem Status.accept_busy (st : Status) (w : Word) : (st.accept w).busy = true := rfl
@[simp] theorem Status.accept_err (st : Status) (w : Word) : (st.accept w).err = false := rfl
@[simp] theorem Status.accept_overrun (st : Status) (w : Word) : (st.accept w).overrun = st.overrun := rfl
@[simp] theorem Status.accept_errcode (st : Status) (w : Word) : (st.accept w).errcode = 0 := rfl
@[simp] theorem Status.accept_lastop (st : Status) (w : Word) : (st.accept w).lastop = opcOf w := rfl
@[simp] theorem Status.drop_busy (st : Status) : (st.drop).busy = st.busy := rfl
@[simp] theorem Status.drop_err (st : Status) : (st.drop).err = st.err := rfl
@[simp] theorem Status.drop_overrun (st : Status) : (st.drop).overrun = true := rfl
@[simp] theorem Status.drop_errcode (st : Status) : (st.drop).errcode = st.errcode := rfl
@[simp] theorem Status.drop_lastop (st : Status) : (st.drop).lastop = st.lastop := rfl
@[simp] theorem Status.hostWrite_busy (st : Status) (v : Word) : (st.hostWrite v).busy = st.busy := by
  unfold Status.hostWrite; split <;> rfl
@[simp] theorem Status.hostWrite_err (st : Status) (v : Word) : (st.hostWrite v).err = st.err := by
  unfold Status.hostWrite; split <;> rfl
@[simp] theorem Status.hostWrite_errcode (st : Status) (v : Word) : (st.hostWrite v).errcode = st.errcode := by
  unfold Status.hostWrite; split <;> rfl
@[simp] theorem Status.hostWrite_lastop (st : Status) (v : Word) : (st.hostWrite v).lastop = st.lastop := by
  unfold Status.hostWrite; split <;> rfl
@[simp] theorem Status.hostWrite_overrun (st : Status) (v : Word) :
    (st.hostWrite v).overrun = (st.overrun && !v.getLsbD 2) := by
  unfold Status.hostWrite; split <;> simp_all

/-! ### writeReg, writeBuf and storeTo: what a stored word leaves alone -/

@[simp] theorem writeReg_params (r : Reg) (v : Word) (s : State) : (writeReg r v s).params = s.params := by
  cases r <;> rfl
@[simp] theorem writeReg_status (r : Reg) (v : Word) (s : State) : (writeReg r v s).status = s.status := by
  cases r <;> rfl
@[simp] theorem writeReg_pend (r : Reg) (v : Word) (s : State) : (writeReg r v s).pend = s.pend := by
  cases r <;> rfl
@[simp] theorem writeReg_ptr (r : Reg) (v : Word) (s : State) : (writeReg r v s).ptr = s.ptr := by
  cases r <;> rfl
@[simp] theorem writeReg_res (r : Reg) (v : Word) (s : State) : (writeReg r v s).res = s.res := by
  cases r <;> rfl
@[simp] theorem writeReg_rx (r : Reg) (v : Word) (s : State) : (writeReg r v s).rx = s.rx := by
  cases r <;> rfl
@[simp] theorem writeReg_table (r : Reg) (v : Word) (s : State) : (writeReg r v s).table = s.table := by
  cases r <;> rfl
@[simp] theorem writeReg_txp (r : Reg) (v : Word) (s : State) : (writeReg r v s).txp = s.txp := by
  cases r <;> rfl
@[simp] theorem writeReg_wire (r : Reg) (v : Word) (s : State) : (writeReg r v s).wire = s.wire := by
  cases r <;> rfl
@[simp] theorem writeReg_rxp (r : Reg) (v : Word) (s : State) : (writeReg r v s).rxp = s.rxp := by
  cases r <;> rfl
@[simp] theorem writeReg_snap (r : Reg) (v : Word) (s : State) : (writeReg r v s).snap = s.snap := by
  cases r <;> rfl
@[simp] theorem writeReg_turns (r : Reg) (v : Word) (s : State) : (writeReg r v s).turns = s.turns := by
  cases r <;> rfl
@[simp] theorem writeReg_readData (r : Reg) (v : Word) (s : State) : (writeReg r v s).readData = s.readData := by
  cases r <;> rfl
@[simp] theorem writeBuf_params (sp : Space) (k : Nat) (v : Word) (s : State) : (writeBuf sp k v s).params = s.params := by
  cases sp <;> rfl
@[simp] theorem writeBuf_status (sp : Space) (k : Nat) (v : Word) (s : State) : (writeBuf sp k v s).status = s.status := by
  cases sp <;> rfl
@[simp] theorem writeBuf_pend (sp : Space) (k : Nat) (v : Word) (s : State) : (writeBuf sp k v s).pend = s.pend := by
  cases sp <;> rfl
@[simp] theorem writeBuf_ptr (sp : Space) (k : Nat) (v : Word) (s : State) : (writeBuf sp k v s).ptr = s.ptr := by
  cases sp <;> rfl
@[simp] theorem writeBuf_nowLo (sp : Space) (k : Nat) (v : Word) (s : State) : (writeBuf sp k v s).nowLo = s.nowLo := by
  cases sp <;> rfl
@[simp] theorem writeBuf_nowHi (sp : Space) (k : Nat) (v : Word) (s : State) : (writeBuf sp k v s).nowHi = s.nowHi := by
  cases sp <;> rfl
@[simp] theorem writeBuf_clk (sp : Space) (k : Nat) (v : Word) (s : State) : (writeBuf sp k v s).clk = s.clk := by
  cases sp <;> rfl
@[simp] theorem writeBuf_res (sp : Space) (k : Nat) (v : Word) (s : State) : (writeBuf sp k v s).res = s.res := by
  cases sp <;> rfl
@[simp] theorem writeBuf_nodeId (sp : Space) (k : Nat) (v : Word) (s : State) : (writeBuf sp k v s).nodeId = s.nodeId := by
  cases sp <;> rfl
@[simp] theorem writeBuf_tx (sp : Space) (k : Nat) (v : Word) (s : State) : (writeBuf sp k v s).tx = s.tx := by
  cases sp <;> rfl
@[simp] theorem writeBuf_wireLen (sp : Space) (k : Nat) (v : Word) (s : State) : (writeBuf sp k v s).wireLen = s.wireLen := by
  cases sp <;> rfl
@[simp] theorem writeBuf_rx (sp : Space) (k : Nat) (v : Word) (s : State) : (writeBuf sp k v s).rx = s.rx := by
  cases sp <;> rfl
@[simp] theorem writeBuf_table (sp : Space) (k : Nat) (v : Word) (s : State) : (writeBuf sp k v s).table = s.table := by
  cases sp <;> rfl
@[simp] theorem writeBuf_rxp (sp : Space) (k : Nat) (v : Word) (s : State) : (writeBuf sp k v s).rxp = s.rxp := by
  cases sp <;> rfl
@[simp] theorem writeBuf_snap (sp : Space) (k : Nat) (v : Word) (s : State) : (writeBuf sp k v s).snap = s.snap := by
  cases sp <;> rfl
@[simp] theorem writeBuf_turns (sp : Space) (k : Nat) (v : Word) (s : State) : (writeBuf sp k v s).turns = s.turns := by
  cases sp <;> rfl
@[simp] theorem writeBuf_readData (sp : Space) (k : Nat) (v : Word) (s : State) : (writeBuf sp k v s).readData = s.readData := by
  cases sp <;> rfl

end Sys2Proof.Machine
end

