-- ==== Sys2Proof/Laws/Bus.lean ====
section
/-! SUPPORT. The register window: the address decoder inverts the register map, and what each bus write leaves in every
register (spec/10_state.md R21, spec/43_host_interface.md R241). -/

namespace Sys2Proof.Machine

open Sys2Proof

@[simp] theorem regAt_offset (r : Reg) : regAt r.offset = some r := by
  cases r <;> first | decide | (rename_i j; revert j; decide)

theorem offset_of_regAt {off : Nat} {r : Reg} (h : regAt off = some r) : r.offset = off := by
  simpa using List.find?_some h

theorem Reg.offset_lt (r : Reg) : r.offset < 0x150 := by
  cases r <;> simp [Reg.offset] <;> omega

theorem Reg.offset_mod (r : Reg) : r.offset % 4 = 0 := by
  cases r <;> simp [Reg.offset]

/-- The address decoder inverts the register map. -/
@[simp] theorem targetOf_offset (r : Reg) : targetOf r.offset = .reg r := by
  have := r.offset_lt
  simp [targetOf, show r.offset < 0x0100000 by omega]

theorem targetOf_eq_reg_iff (off : Nat) (r : Reg) : targetOf off = .reg r ↔ off = r.offset := by
  constructor
  · intro h
    unfold targetOf at h
    split at h
    · split at h
      · rename_i r' hr'
        cases h; exact (offset_of_regAt hr').symm
      · cases h
    · split at h
      · cases h
      · split at h
        · cases h
        · split at h
          · cases h
          · split at h <;> cases h
  · rintro rfl; exact targetOf_offset r

@[simp] theorem offset_toNat (r : Reg) : (BitVec.ofNat 25 r.offset).toNat = r.offset := by
  have := r.offset_lt
  simp; omega

@[simp] theorem supported_offset (r : Reg) : supported .word (BitVec.ofNat 25 r.offset) = true := by
  have h := r.offset_mod
  have h' := offset_toNat r
  unfold supported; rw [h', h]; decide

/-- The address decoder on the buffer windows (R63). -/
theorem targetOf_window (sp : Space) {k : Nat} (h : k < if sp = .snap then 0x400000 else 0x100000) :
    targetOf (windowBase sp + k) = .buf sp k := by
  cases sp <;> simp at h
  · simp [targetOf, windowBase, show ¬ 1048576 + k < 1048576 by omega, show 1048576 + k < 2097152 by omega]
  · simp [targetOf, windowBase, show ¬ 2097152 + k < 1048576 by omega, show ¬ 2097152 + k < 2097152 by omega,
      show 2097152 + k < 3145728 by omega]
  · simp [targetOf, windowBase, show ¬ 3145728 + k < 1048576 by omega, show ¬ 3145728 + k < 2097152 by omega,
      show ¬ 3145728 + k < 3145728 by omega, show 3145728 + k < 4194304 by omega]
  · simp [targetOf, windowBase, show ¬ 16777216 + k < 1048576 by omega, show ¬ 16777216 + k < 2097152 by omega,
      show ¬ 16777216 + k < 3145728 by omega, show ¬ 16777216 + k < 4194304 by omega,
      show 16777216 + k < 20971520 by omega]

/-- The reserved offsets above the registers (R21, R63, R65). -/
theorem targetOf_reserved {off : Nat}
    (h : (0x150 ≤ off ∧ off < 0x0100000) ∨ (0x0400000 ≤ off ∧ off < 0x1000000) ∨ 0x1400000 ≤ off) :
    targetOf off = .reserved := by
  unfold targetOf
  split
  · cases hr : regAt off with
    | none => rfl
    | some r => have := offset_of_regAt hr; have := r.offset_lt; omega
  · rw [if_neg (by omega), if_neg (by omega), if_neg (by omega), if_neg (by omega)]

/-- The reserved offsets among the registers (R21, R65). -/
theorem targetOf_gap {off : Nat} (h4 : off % 4 = 0) (h : (0x014 ≤ off ∧ off ≤ 0x01C) ∨ off = 0x04C ∨
    (0x098 ≤ off ∧ off ≤ 0x09C) ∨ (0x0C4 ≤ off ∧ off ≤ 0x0FC)) : targetOf off = .reserved := by
  have key : ∀ k : Fin 84, ((5 ≤ k.val ∧ k.val ≤ 7) ∨ k.val = 19 ∨ (38 ≤ k.val ∧ k.val ≤ 39) ∨
      (49 ≤ k.val ∧ k.val ≤ 63)) → targetOf (4 * k.val) = .reserved := by decide
  have := key ⟨off / 4, by omega⟩ (by simp only; omega)
  rwa [show 4 * (off / 4) = off by omega] at this

/-- The hazards among the registers, by offset (R247). -/
theorem hazards_of_register_offset {off : Nat} (h4 : off % 4 = 0) (hlt : off < 0x150) :
    (writeHazard (targetOf off) = true ↔
      (0x030 ≤ off ∧ off ≤ 0x048) ∨ (0x060 ≤ off ∧ off ≤ 0x094) ∨ (0x0A0 ≤ off ∧ off ≤ 0x0C0)) ∧
    (readHazard (targetOf off) = true ↔
      (0x050 ≤ off ∧ off ≤ 0x05C) ∨ off = 0x0C0 ∨ (0x100 ≤ off ∧ off ≤ 0x14C)) := by
  have key : ∀ k : Fin 84,
      (writeHazard (targetOf (4 * k.val)) = true ↔
        (12 ≤ k.val ∧ k.val ≤ 18) ∨ (24 ≤ k.val ∧ k.val ≤ 37) ∨ (40 ≤ k.val ∧ k.val ≤ 48)) ∧
      (readHazard (targetOf (4 * k.val)) = true ↔
        (20 ≤ k.val ∧ k.val ≤ 23) ∨ k.val = 48 ∨ (64 ≤ k.val ∧ k.val ≤ 83)) := by decide
  have := key ⟨off / 4, by omega⟩
  simp only [show 4 * (off / 4) = off by omega] at this
  exact ⟨this.1.trans (by omega), this.2.trans (by omega)⟩

/-- The registers that ignore writes (R21, R65). -/
theorem storeTo_readOnly {off : Nat} (h4 : off % 4 = 0)
    (h : off ≤ 0x010 ∨ off = 0x02C ∨ (0x050 ≤ off ∧ off ≤ 0x05C) ∨ (0x100 ≤ off ∧ off ≤ 0x14C)) (v : Word) (s : State) :
    writeHazard (targetOf off) = false ∧ targetOf off ≠ .reg .tick ∧ storeTo (targetOf off) v s = s := by
  have key : ∀ k : Fin 84, (k.val ≤ 4 ∨ k.val = 11 ∨ (20 ≤ k.val ∧ k.val ≤ 23) ∨ (64 ≤ k.val ∧ k.val ≤ 83)) →
      ∃ r : Reg, targetOf (4 * k.val) = .reg r ∧ r.isRW = false ∧ r ≠ .cmd ∧ r ≠ .status ∧ r ≠ .tick := by
    intro k
    have hr : ∀ k : Fin 84, (k.val ≤ 4 ∨ k.val = 11 ∨ (20 ≤ k.val ∧ k.val ≤ 23) ∨ (64 ≤ k.val ∧ k.val ≤ 83)) →
      (match targetOf (4 * k.val) with
      | .reg r => !r.isRW && r != .cmd && r != .status && r != .tick
      | _ => false) = true := by decide
    intro hk
    have := hr k hk
    split at this
    · rename_i r he; exact ⟨r, he, by simpa [and_assoc] using this⟩
    · cases this
  obtain ⟨r, hr, hrw, hc, hs, ht⟩ := key ⟨off / 4, by omega⟩ (by simp only; omega)
  simp only [show 4 * (off / 4) = off by omega] at hr
  rw [hr]
  refine ⟨hrw, by simpa using ht, ?_⟩
  cases r <;> first | rfl | exact absurd rfl hc | exact absurd rfl hs | simp [Reg.isRW] at hrw

/-- A word access at an aligned offset of the window is a supported one (R60, R62). -/
theorem supported_word {off : Nat} (hlt : off < 0x2000000) (h4 : off % 4 = 0) :
    supported .word (BitVec.ofNat 25 off) = true := by
  have : off % 2 ^ 25 = off := Nat.mod_eq_of_lt (by omega)
  simp only [supported, BitVec.toNat_ofNat, this, h4, and_self, decide_true]

/-- A word read at an aligned offset (R240). -/
theorem busRead_word {off : Nat} (hlt : off < 0x2000000) (h4 : off % 4 = 0) (s : State) :
    busRead .word (BitVec.ofNat 25 off) s =
      if s.status.busy = true ∧ readHazard (targetOf off) = true then .fault .busyHazard
      else readTarget (targetOf off) s := by
  have : (BitVec.ofNat 25 off).toNat = off := by simp; omega
  unfold busRead
  rw [supported_word hlt h4, this]; simp

/-- A read of a register (R240). -/
theorem busRead_reg (r : Reg) (s : State) :
    busRead .word (BitVec.ofNat 25 r.offset) s =
      if s.status.busy = true ∧ readHazard (.reg r) = true then .fault .busyHazard
      else .next (s.returns (readReg r s)) := by
  have := r.offset_lt
  rw [busRead_word (by omega) r.offset_mod, targetOf_offset]; rfl

/-- A stored word is what its register then reads (16 bits of it in the three 16-bit registers), and every other register
reads as before. -/
theorem readReg_writeReg (r r' : Reg) (v : Word) (s : State) (h : r.isRW = true) :
    readReg r' (writeReg r v s) =
      if r' = r then (if r = .txTotal ∨ r = .txIndex ∨ r = .txFlags then (v.setWidth 16).setWidth 32 else v)
      else readReg r' s := by
  cases r <;> first
    | (simp [Reg.isRW] at h; done)
    | (cases r' <;> simp [readReg, writeReg, Ident.word_setWord, eq_comm])

/-- A word write at an aligned offset (R241). -/
theorem busWrite_word {off : Nat} (hlt : off < 0x2000000) (h4 : off % 4 = 0) (v : Word) (s : State) :
    busWrite .word (BitVec.ofNat 25 off) v s =
      if s.status.busy = true ∧ writeHazard (targetOf off) = true then .done (.fault .busyHazard)
      else if targetOf off = .reg .tick then tickWrite v s
      else .done (.next (storeTo (targetOf off) v s)) := by
  have : (BitVec.ofNat 25 off).toNat = off := by simp; omega
  unfold busWrite
  rw [supported_word hlt h4, this]; simp

/-- A write of a register other than TICK (R241). -/
theorem busWrite_reg {r : Reg} (ht : r ≠ .tick) (v : Word) (s : State) :
    busWrite .word (BitVec.ofNat 25 r.offset) v s =
      if s.status.busy = true ∧ r.isRW = true then .done (.fault .busyHazard)
      else .done (.next (storeTo (.reg r) v s)) := by
  have := r.offset_lt
  rw [busWrite_word (by omega) r.offset_mod, targetOf_offset]
  simp [ht, writeHazard]

/-- A write of TICK (R230, R241). -/
theorem busWrite_tick (v : Word) (s : State) :
    busWrite .word (BitVec.ofNat 25 Reg.tick.offset) v s = tickWrite v s := by
  rw [busWrite_word (by decide) (by decide), targetOf_offset]
  simp [writeHazard, Reg.isRW]

/-- What no bus write but a tick changes (R241), whatever it addresses. -/
theorem storeTo_frame (tgt : Target) (v : Word) (s : State) :
    (storeTo tgt v s).params = s.params ∧ (storeTo tgt v s).ptr = s.ptr ∧ (storeTo tgt v s).res = s.res ∧
    (storeTo tgt v s).rx = s.rx ∧ (storeTo tgt v s).rxp = s.rxp ∧ (storeTo tgt v s).snap = s.snap ∧
    (storeTo tgt v s).table = s.table ∧ (storeTo tgt v s).turns = s.turns ∧
    (storeTo tgt v s).readData = s.readData := by
  cases tgt with
  | reserved => exact ⟨rfl, rfl, rfl, rfl, rfl, rfl, rfl, rfl, rfl⟩
  | buf sp k => cases sp <;> exact ⟨rfl, rfl, rfl, rfl, rfl, rfl, rfl, rfl, rfl⟩
  | reg r =>
    cases r <;> first
      | exact ⟨rfl, rfl, rfl, rfl, rfl, rfl, rfl, rfl, rfl⟩
      | (simp only [storeTo, cmdWrite]; split <;> exact ⟨rfl, rfl, rfl, rfl, rfl, rfl, rfl, rfl, rfl⟩)

end Sys2Proof.Machine
end

