-- ==== Sys2Proof/Laws/Codec.lean ====
section
/-! SUPPORT. Frames: when the sentinel registers hold the sentinels, and cutting an encoded frame into its fields
(spec/30_encoding.md R96, R98). -/

namespace Sys2Proof.Machine

open Sys2Proof

/-- The header registers hold the header sentinel (R98). -/
theorem RxRegs.header_eq_iff (rx : RxRegs) :
    rx.header = headerSentinel ↔ rx.hdr0 = 0xAA55AA55 ∧ rx.hdr1 = 0xAA55AA55 := by
  constructor
  · intro h
    have h1 : wordBytes rx.hdr0 = [0xAA, 0x55, 0xAA, 0x55] := congrArg (List.take 4) h
    have h2 : wordBytes rx.hdr1 = [0xAA, 0x55, 0xAA, 0x55] := congrArg (List.drop 4) h
    have h1 := congrArg beWord h1
    have h2 := congrArg beWord h2
    rw [beWord_wordBytes] at h1 h2
    rw [h1, h2]; decide
  · rintro ⟨h1, h2⟩; simp only [RxRegs.header, h1, h2]; decide

/-- The footer registers hold the footer sentinel (R98). -/
theorem RxRegs.footer_eq_iff (rx : RxRegs) :
    rx.footer = footerSentinel ↔ rx.ftr0 = 0x55AA55AA ∧ rx.ftr1 = 0x55AA55AA := by
  constructor
  · intro h
    have h1 : wordBytes rx.ftr0 = [0x55, 0xAA, 0x55, 0xAA] := congrArg (List.take 4) h
    have h2 : wordBytes rx.ftr1 = [0x55, 0xAA, 0x55, 0xAA] := congrArg (List.drop 4) h
    have h1 := congrArg beWord h1
    have h2 := congrArg beWord h2
    rw [beWord_wordBytes] at h1 h2
    rw [h1, h2]; decide
  · rintro ⟨h1, h2⟩; simp only [RxRegs.footer, h1, h2]; decide

/-- Cutting the bytes of a frame at a part of it. -/
theorem frameBytes_slice {tx : TxRegs} {pay : List Byte} {ck : Word} {k n : Nat} (xs ys zs : List Byte)
    (hf : frameBytes tx pay ck = xs ++ ys ++ zs) (hx : xs.length = k) (hy : ys.length = n) :
    slice (frameBytes tx pay ck) k n = ys := by
  rw [hf, slice_append_mid _ _ _ _ _ hx.symm hy.symm]

/-- The payload of an encoded frame, and its length field (R96). -/
theorem frameBytes_payload (tx : TxRegs) (pay : List Byte) (ck : Word) :
    slice (frameBytes tx pay ck) 58 pay.length = pay ∧ slice (frameBytes tx pay ck) 44 4 = wordBytes tx.len :=
  ⟨frameBytes_slice (headerSentinel ++ wordBytes tx.slot ++ tx.node.bytes ++ wordBytes tx.len ++
      wordBytes tx.fragId ++ halfBytes tx.total ++ halfBytes tx.index ++ halfBytes tx.flags) pay
      (wordBytes ck ++ footerSentinel) (by simp [frameBytes]) (by simp) rfl,
    frameBytes_slice (headerSentinel ++ wordBytes tx.slot ++ tx.node.bytes) (wordBytes tx.len)
      (wordBytes tx.fragId ++ halfBytes tx.total ++ halfBytes tx.index ++ halfBytes tx.flags ++ pay ++ wordBytes ck ++
        footerSentinel) (by simp [frameBytes]) (by simp) (by simp)⟩

end Sys2Proof.Machine
end

