-- ==== Sys2Proof/Laws/Decode.lean ====
section
/-! SUPPORT. The fields of a command word, and what the decoder's answers say (spec/30_encoding.md R90 to R94). -/

namespace Sys2Proof

theorem opcOf_toNat (w : Word) : (opcOf w).toNat = w.toNat % 256 := by
  simp [opcOf]

theorem argOf_toNat (w : Word) : (argOf w).toNat = w.toNat / 256 := by
  have := w.isLt
  simp only [argOf, BitVec.extractLsb'_toNat, Nat.shiftRight_eq_div_pow]; omega

theorem toNat_append_opc (arg : BitVec 24) (opc : BitVec 8) : (arg ++ opc).toNat = arg.toNat * 256 + opc.toNat := by
  rw [BitVec.toNat_append, ← Nat.shiftLeft_add_eq_or_of_lt opc.isLt, Nat.shiftLeft_eq]

@[simp] theorem opcOf_append (arg : BitVec 24) (opc : BitVec 8) : opcOf (arg ++ opc) = opc := by
  have := opc.isLt
  exact BitVec.eq_of_toNat_eq (by rw [opcOf_toNat, toNat_append_opc]; omega)

@[simp] theorem argOf_append (arg : BitVec 24) (opc : BitVec 8) : argOf (arg ++ opc) = arg := by
  have := opc.isLt
  exact BitVec.eq_of_toNat_eq (by rw [argOf_toNat, toNat_append_opc]; omega)

@[simp] theorem opcOf_cmdWord (opc : BitVec 8) (arg : Nat) : opcOf (cmdWord opc arg) = opc := by
  simp [cmdWord]

@[simp] theorem argOf_cmdWord (opc : BitVec 8) (arg : Nat) : argOf (cmdWord opc arg) = BitVec.ofNat 24 arg := by
  simp [cmdWord]

/-- A word is its two fields. -/
theorem word_eq_iff (w v : Word) : w = v ↔ opcOf w = opcOf v ∧ argOf w = argOf v := by
  constructor
  · rintro rfl; exact ⟨rfl, rfl⟩
  · rintro ⟨h1, h2⟩
    have h1 := congrArg BitVec.toNat h1
    have h2 := congrArg BitVec.toNat h2
    rw [opcOf_toNat, opcOf_toNat] at h1
    rw [argOf_toNat, argOf_toNat] at h2
    exact BitVec.eq_of_toNat_eq (by omega)

theorem withoutArg_eq_ok {i j : Instr} {w : Word} : withoutArg i w = .ok j ↔ i = j ∧ argOf w = 0 := by
  unfold withoutArg; split <;> simp_all

/-- What the CMD decoder answers, by OPC and ARG (R93, R94). -/
theorem decodeCmd_eq_ok_iff (w : Word) (i : Instr) :
    decodeCmd w = .ok i ↔
      (i = .clkCompute ∧ opcOf w = 0x01 ∧ argOf w = 0) ∨ (i = .codecEncode ∧ opcOf w = 0x10 ∧ argOf w = 0) ∨
      (i = .codecDecode ∧ opcOf w = 0x11 ∧ argOf w = 0) ∨ (i = .codecValidate ∧ opcOf w = 0x12 ∧ argOf w = 0) ∨
      (i = .schedAllocate (argOf w).toNat ∧ opcOf w = 0x20) ∨
      (i = .schedAllocConsec (argOf w).toNat ∧ opcOf w = 0x21) ∨
      (i = .schedRelease (argOf w).toNat ∧ opcOf w = 0x22) ∨ (i = .schedSnapshot ∧ opcOf w = 0x23 ∧ argOf w = 0) := by
  unfold decodeCmd
  split_ifs <;> simp_all [withoutArg_eq_ok, @eq_comm _ i]

/-- The CMD decoder never answers TICK. -/
theorem decodeCmd_port {w : Word} {i : Instr} (h : decodeCmd w = .ok i) : i.port = .cmd := by
  rcases (decodeCmd_eq_ok_iff w i).1 h with
    ⟨rfl, _⟩ | ⟨rfl, _⟩ | ⟨rfl, _⟩ | ⟨rfl, _⟩ | ⟨rfl, _⟩ | ⟨rfl, _⟩ | ⟨rfl, _⟩ | ⟨rfl, _⟩ <;> rfl

theorem decodeTick_eq_ok_iff (w : Word) (i : Instr) : decodeTick w = .ok i ↔ i = .tick ∧ w.getLsbD 0 = true := by
  unfold decodeTick; split <;> simp_all [@eq_comm _ i]

end Sys2Proof
end

