-- ==== Sys2Proof/Laws/Sched.lean ====
section
/-! SUPPORT. The slot table: what each shared operation of the scheduler does to every record, and what each of its searches
finds (spec/42_scheduler.md R192, R194, R210, R220). -/

namespace Sys2Proof.Machine

open Sys2Proof

/-! ### Records -/

theorem slotAt_of_getElem? {t : Table} {i : Nat} {r : SlotRecord} (h : t[i]? = some r) : slotAt t i = r := by
  simp [slotAt, List.getD_eq_getElem?_getD, h]

theorem isFree_iff {t : Table} {i : Nat} {r : SlotRecord} (h : t[i]? = some r) :
    isFree t i = true ↔ r.status = .free := by
  simp [isFree, slotAt_of_getElem? h]

@[simp] theorem freeSlot_length (t : Table) (j : Nat) : (freeSlot t j).length = t.length := by simp [freeSlot]

@[simp] theorem assignSlot_length (t : Table) (j : Nat) (id : Ident) (now : Long) :
    (assignSlot t j id now).length = t.length := by simp [assignSlot]

@[simp] theorem freeSlots_length (t : Table) (js : List Nat) : (freeSlots t js).length = t.length := by
  unfold freeSlots
  induction js generalizing t with
  | nil => rfl
  | cons j js ih => simp [ih]

@[simp] theorem assignSlots_length (t : Table) (js : List Nat) (id : Ident) (now : Long) :
    (assignSlots t js id now).length = t.length := by
  unfold assignSlots
  induction js generalizing t with
  | nil => rfl
  | cons j js ih => simp [ih]

theorem freeSlots_getElem? (t : Table) (js : List Nat) (i : Nat) :
    (freeSlots t js)[i]? = if i ∈ js ∧ i < t.length then some SlotRecord.freeRecord else t[i]? := by
  unfold freeSlots
  induction js generalizing t with
  | nil => simp
  | cons j js ih =>
    rw [List.foldl_cons, ih]
    by_cases h : i ∈ js
    · by_cases hl : i < t.length <;> simp [h, hl, freeSlot]
    · simp only [h, false_and, if_false, List.mem_cons, or_false, freeSlot, List.getElem?_set]
      by_cases hj : i = j
      · subst hj; by_cases hl : i < t.length <;> simp [hl]
      · simp [hj, Ne.symm hj]

theorem assignSlots_getElem? (t : Table) (js : List Nat) (id : Ident) (now : Long) (i : Nat) :
    (assignSlots t js id now)[i]? = if i ∈ js ∧ i < t.length then
      some { status := .assigned, owner := id, assignedAt := now, carriedFragmentId := 0 } else t[i]? := by
  unfold assignSlots
  induction js generalizing t with
  | nil => simp
  | cons j js ih =>
    rw [List.foldl_cons, ih]
    by_cases h : i ∈ js
    · by_cases hl : i < t.length <;> simp [h, hl, assignSlot]
    · simp only [h, false_and, if_false, List.mem_cons, or_false, assignSlot, List.getElem?_set]
      by_cases hj : i = j
      · subst hj; by_cases hl : i < t.length <;> simp [hl]
      · simp [hj, Ne.symm hj]

theorem SlotRecord.fresh_iff {r : SlotRecord} {d : Nat} {now : Int} :
    r.fresh d now = true ↔ now - r.assignedAt.toInt < 10 * d := decide_eq_true_iff

theorem SlotRecord.preemptable_iff {r : SlotRecord} {d : Nat} {now : Int} :
    r.preemptable d now = true ↔ 5 * d < now - r.assignedAt.toInt := decide_eq_true_iff

theorem SlotRecord.ownedBy_iff {r : SlotRecord} {id : Ident} :
    r.ownedBy id = true ↔ r.status = .assigned ∧ r.owner = id := decide_eq_true_iff

/-! ### Searches -/

theorem mem_ownedSlots {n : Nat} {t : Table} {id : Ident} {i : Nat} :
    i ∈ ownedSlots n t id ↔ i < n ∧ (slotAt t i).ownedBy id = true := by
  simp [ownedSlots]

/-- Step 2 releases exactly the records `id` owns (R194). -/
theorem freeSlots_ownedSlots (t : Table) (id : Ident) :
    freeSlots t (ownedSlots t.length t id) = t.map (fun r => if r.ownedBy id then SlotRecord.freeRecord else r) := by
  apply List.ext_getElem?
  intro i
  rw [freeSlots_getElem?, List.getElem?_map]
  by_cases hl : i < t.length
  · have h : t[i]? = some t[i] := List.getElem?_eq_getElem hl
    by_cases ho : t[i].ownedBy id <;> simp [mem_ownedSlots, slotAt_of_getElem? h, hl, ho]
  · simp [hl]

/-- The number of slots `id` owns. -/
theorem ownedSlots_length (t : Table) (id : Ident) :
    (ownedSlots t.length t id).length = t.countP (fun r => r.ownedBy id) := by
  unfold ownedSlots
  rw [← List.countP_eq_length_filter]
  have h : t = (List.range t.length).map (slotAt t) := by
    apply List.ext_getElem?
    intro i
    by_cases hl : i < t.length
    · simp [hl, slotAt]
    · simp [hl]
  conv_rhs => rw [h]
  rw [List.countP_map]; rfl

theorem mem_ringAhead {n p j : Nat} : j ∈ ringAhead n p ↔ ∃ k, 2 ≤ k ∧ k < n ∧ (p + k) % n = j := by
  simp only [ringAhead, List.mem_map, List.mem_range'_1]
  constructor
  · rintro ⟨k, hk, rfl⟩; exact ⟨k, by omega, by omega, rfl⟩
  · rintro ⟨k, h2, hn, rfl⟩; exact ⟨k, by omega, rfl⟩

/-- The first hit of a search through `off, off + 1, …`. -/
theorem find?_range'_eq_some {p : Nat → Bool} {off len k : Nat} (h1 : off ≤ k) (h2 : k < off + len) (hp : p k = true)
    (hmin : ∀ j, off ≤ j → j < k → p j = false) : (List.range' off len).find? p = some k := by
  induction len generalizing off with
  | zero => omega
  | succ len ih =>
    rw [List.range'_succ, List.find?_cons]
    rcases Nat.eq_or_lt_of_le h1 with rfl | h
    · simp [hp]
    · simp [hmin off (Nat.le_refl _) h, ih (off := off + 1) (by omega) (by omega) (fun j hj => hmin j (by omega))]

/-- The first Free slot two or more positions ahead (R194 step 5). -/
theorem ringAhead_find? {n p k : Nat} {f : Nat → Bool} (h2 : 2 ≤ k) (hn : k < n) (hf : f ((p + k) % n) = true)
    (hmin : ∀ j, 2 ≤ j → j < k → f ((p + j) % n) = false) : (ringAhead n p).find? f = some ((p + k) % n) := by
  rw [ringAhead, List.find?_map,
    find?_range'_eq_some (p := f ∘ fun j => (p + j) % n) (k := k) h2 (by omega) hf (fun j hj hk => hmin j hj hk)]; rfl

theorem ringAhead_find?_none {n p : Nat} {f : Nat → Bool} (h : ∀ k, 2 ≤ k → k < n → f ((p + k) % n) = false) :
    (ringAhead n p).find? f = none := by
  rw [List.find?_eq_none]
  intro j hj
  obtain ⟨k, h2, hn, rfl⟩ := mem_ringAhead.1 hj
  simp [h k h2 hn]

/-- Every slot lies some way ahead of `p` on the ring. -/
theorem exists_ahead {n p i : Nat} (hp : p < n) (hi : i < n) : ∃ k, k < n ∧ (p + k) % n = i := by
  by_cases h : p ≤ i
  · exact ⟨i - p, by omega, by rw [Nat.mod_eq_of_lt (by omega)]; omega⟩
  · refine ⟨n - p + i, by omega, ?_⟩
    rw [show p + (n - p + i) = i + n by omega, Nat.add_mod_right, Nat.mod_eq_of_lt hi]

/-! ### The oldest slot -/

theorem oldestFrom_spec (t : Table) (i b : Nat) (tb : Int) :
    (oldestFrom t i b tb = b ∧ (∀ (k : Nat) (r : SlotRecord), t[k]? = some r → tb ≤ r.assignedAt.toInt)) ∨
    (∃ (k : Nat) (r : SlotRecord), oldestFrom t i b tb = i + k ∧ t[k]? = some r ∧ r.assignedAt.toInt < tb ∧
      (∀ (k' : Nat) (r' : SlotRecord), t[k']? = some r' → r.assignedAt.toInt ≤ r'.assignedAt.toInt) ∧
      (∀ (k' : Nat) (r' : SlotRecord), k' < k → t[k']? = some r' → r.assignedAt.toInt < r'.assignedAt.toInt)) := by
  induction t generalizing i b tb with
  | nil => left; simp [oldestFrom]
  | cons r rs ih =>
    unfold oldestFrom
    split
    · rename_i hlt
      right
      rcases ih (i + 1) i r.assignedAt.toInt with ⟨he, hall⟩ | ⟨k, r', he, hk, hlt', hall, hfirst⟩
      · refine ⟨0, r, by omega, rfl, hlt, fun k' r' hk' => ?_, by omega⟩
        cases k' with
        | zero => cases hk'; exact Int.le_refl _
        | succ k' => exact hall k' r' (by simpa using hk')
      · refine ⟨k + 1, r', by omega, by simpa using hk, by omega, fun k' r'' hk' => ?_, fun k' r'' hlt'' hk' => ?_⟩
        · cases k' with
          | zero => cases hk'; omega
          | succ k' => exact hall k' r'' (by simpa using hk')
        · cases k' with
          | zero => cases hk'; omega
          | succ k' => exact hfirst k' r'' (by omega) (by simpa using hk')
    · rename_i hge
      rcases ih (i + 1) b tb with ⟨he, hall⟩ | ⟨k, r', he, hk, hlt', hall, hfirst⟩
      · left
        refine ⟨he, fun k' r' hk' => ?_⟩
        cases k' with
        | zero => cases hk'; omega
        | succ k' => exact hall k' r' (by simpa using hk')
      · right
        refine ⟨k + 1, r', by omega, by simpa using hk, hlt', fun k' r'' hk' => ?_, fun k' r'' hlt'' hk' => ?_⟩
        · cases k' with
          | zero => cases hk'; omega
          | succ k' => exact hall k' r'' (by simpa using hk')
        · cases k' with
          | zero => cases hk'; omega
          | succ k' => exact hfirst k' r'' (by omega) (by simpa using hk')

/-- Step 6's slot: the smallest `assignedAt`, the lowest slot on a tie (R194). -/
theorem oldestSlot_spec {t : Table} (h : t ≠ []) :
    ∃ r, t[oldestSlot t]? = some r ∧ (∀ (k : Nat) (r' : SlotRecord), t[k]? = some r' → r.assignedAt.toInt ≤ r'.assignedAt.toInt) ∧
      (∀ (k : Nat) (r' : SlotRecord), k < oldestSlot t → t[k]? = some r' → r.assignedAt.toInt < r'.assignedAt.toInt) := by
  cases t with
  | nil => exact absurd rfl h
  | cons r rs =>
    simp only [oldestSlot]
    rcases oldestFrom_spec rs 1 0 r.assignedAt.toInt with ⟨he, hall⟩ | ⟨k, r', he, hk, hlt', hall, hfirst⟩
    · rw [he]
      refine ⟨r, rfl, fun k r' hk => ?_, by omega⟩
      cases k with
      | zero => cases hk; exact Int.le_refl _
      | succ k => exact hall k r' (by simpa using hk)
    · rw [he]
      refine ⟨r', by rw [Nat.add_comm]; simpa using hk, fun k' r'' hk' => ?_, fun k' r'' hlt hk' => ?_⟩
      · cases k' with
        | zero => cases hk'; omega
        | succ k' => exact hall k' r'' (by simpa using hk')
      · cases k' with
        | zero => cases hk'; omega
        | succ k' => exact hfirst k' r'' (by omega) (by simpa using hk')

/-- Step 6's slot is the only one with its two properties. -/
theorem oldestSlot_unique {t : Table} {o : Nat} {r : SlotRecord} (ho : t[o]? = some r)
    (hall : ∀ (k : Nat) (r' : SlotRecord), t[k]? = some r' → r.assignedAt.toInt ≤ r'.assignedAt.toInt)
    (hfirst : ∀ (k : Nat) (r' : SlotRecord), k < o → t[k]? = some r' → r.assignedAt.toInt < r'.assignedAt.toInt) : oldestSlot t = o := by
  have hne : t ≠ [] := by rintro rfl; simp at ho
  obtain ⟨r', h1, h2, h3⟩ := oldestSlot_spec hne
  rcases Nat.lt_trichotomy (oldestSlot t) o with h | h | h
  · have := hfirst _ _ h h1; have := h2 _ _ ho; omega
  · exact h
  · have := h3 _ _ h ho; have := hall _ _ h1; omega

/-- What steps 3 to 7 find on a table of N records (R194): a slot, Free at steps 3 to 5, or the oldest at step 6, when
none is Free; nothing exactly when none is Free and the oldest is not preemptable. -/
theorem pickSlot_spec {n d p : Nat} {t : Table} {now : Int} (hlen : t.length = n) (hp : p < n) :
    (∃ j k, pickSlot n d t p now = some (j, k) ∧ j < n ∧ isFree t j = true ∧ (k = 3 ∨ k = 4 ∨ k = 5)) ∨
    ((∀ i, i < n → isFree t i = false) ∧
      ((pickSlot n d t p now = some (oldestSlot t, 6) ∧ oldestSlot t < n ∧
          (slotAt t (oldestSlot t)).preemptable d now = true) ∨
        (pickSlot n d t p now = none ∧ (slotAt t (oldestSlot t)).preemptable d now = false))) := by
  unfold pickSlot
  by_cases h3 : isFree t p = true
  · left; exact ⟨p, 3, by simp [h3], hp, h3, .inl rfl⟩
  by_cases h4 : isFree t ((p + 1) % n) = true
  · left; exact ⟨(p + 1) % n, 4, by simp [h3, h4], Nat.mod_lt _ (by omega), h4, .inr (.inl rfl)⟩
  cases h5 : (ringAhead n p).find? (isFree t) with
  | some j =>
    left
    obtain ⟨k, _, _, rfl⟩ := mem_ringAhead.1 (List.mem_of_find?_eq_some h5)
    exact ⟨(p + k) % n, 5, by simp [h3, h4], Nat.mod_lt _ (by omega), by simpa using List.find?_some h5, .inr (.inr rfl)⟩
  | none =>
    right
    have hall : ∀ i, i < n → isFree t i = false := by
      intro i hi
      obtain ⟨k, hk, rfl⟩ := exists_ahead hp hi
      match k, hk with
      | 0, _ => simpa [Nat.mod_eq_of_lt hp] using h3
      | 1, _ => simpa using h4
      | k + 2, hk =>
        rw [List.find?_eq_none] at h5
        simpa using h5 _ (mem_ringAhead.2 ⟨k + 2, by omega, hk, rfl⟩)
    refine ⟨hall, ?_⟩
    have hne : t ≠ [] := by rintro rfl; simp at hlen; omega
    obtain ⟨r, hr, _⟩ := oldestSlot_spec hne
    have hlt : oldestSlot t < n := by
      rw [← hlen]; exact (List.getElem?_eq_some_iff.1 hr).1
    by_cases h6 : (slotAt t (oldestSlot t)).preemptable d now = true
    · left; exact ⟨by simp [h3, h4, h6], hlt, h6⟩
    · right; exact ⟨by simp [h3, h4, h6], by simpa using h6⟩

/-! ### Windows -/

theorem windowFree_iff {t : Table} {first count : Nat} (h : first + count ≤ t.length) :
    windowFree t first count = true ↔
      ∀ j, first ≤ j → j < first + count → ∃ r, t[j]? = some r ∧ r.status = .free := by
  simp only [windowFree, List.all_eq_true, List.mem_range'_1]
  constructor
  · intro hw j h1 h2
    have hl : j < t.length := by omega
    exact ⟨t[j], List.getElem?_eq_getElem hl, (isFree_iff (List.getElem?_eq_getElem hl)).1 (hw j ⟨h1, h2⟩)⟩
  · rintro hw j ⟨h1, h2⟩
    obtain ⟨r, hr, hf⟩ := hw j h1 h2
    exact (isFree_iff hr).2 hf

/-! ### Snapshots -/

@[simp] theorem SlotRecord.entry_length (r : SlotRecord) : r.entry.length = 64 := by simp [SlotRecord.entry]

@[simp] theorem snapshotBytes_length (t : Table) : (snapshotBytes t).length = 64 * t.length := by
  unfold snapshotBytes
  induction t with
  | nil => rfl
  | cons r t ih => simp [ih]; omega

/-- Entry i is at byte 64·i (R220). -/
theorem snapshotBytes_slice {t : Table} {i : Nat} {r : SlotRecord} (h : t[i]? = some r) (k n : Nat) (hk : k + n ≤ 64) :
    slice (snapshotBytes t) (64 * i + k) n = slice r.entry k n := by
  unfold snapshotBytes
  induction t generalizing i with
  | nil => simp at h
  | cons r' t ih =>
    cases i with
    | zero =>
      cases h
      rw [List.flatMap_cons, slice, slice, List.drop_append_of_le_length (by simp; omega),
        List.take_append_of_le_length (by simp; omega)]
      simp
    | succ i =>
      have := ih (i := i) (by simpa using h)
      rw [List.flatMap_cons, ← this, slice, slice, show 64 * (i + 1) + k = r'.entry.length + (64 * i + k) by simp; omega,
        List.drop_append, List.drop_eq_nil_of_le (by omega)]
      simp

end Sys2Proof.Machine
end

