-- ==== Sys2Proof/Laws/Exec.lean ====
section
/-! SUPPORT. What each instruction can answer, said once: one inversion lemma per meaning (if it answers `next t`, then one of
these cases holds), and that a meaning stops only by UninitRead. Later proofs cite these and unfold no meaning. -/

namespace Sys2Proof.Machine

open Sys2Proof

/-! ### The end of a command in the words of R244 and R264 -/

theorem result_eq_succeeded (s : State) (r0 r1 r2 r3 : Word) : s.result r0 r1 r2 r3 = succeeded s r0 r1 r2 r3 := rfl

theorem raise_eq_failed (s : State) (e : ErrorKind) : s.raise e = failed s e.code := rfl

/-! ### One lemma per meaning -/

theorem exec_clkCompute_cases {s t : State} (h : exec .clkCompute s = .next t) :
    ((s.clk.dur ≤ 0 ∨ s.clk.slotCount ≤ 0) ∧ t = s.raise .invalidConfiguration) ∨
    (0 < s.clk.dur ∧ 0 < s.clk.slotCount ∧
      t = s.result (BitVec.ofInt 32 (clockSlot s.now s.clk.epoch s.clk.dur s.clk.slotCount)) 0 0 0) := by
  simp only [exec, execClkCompute] at h
  split at h
  · rename_i hc; cases h; exact .inl ⟨hc, rfl⟩
  · rename_i hc; cases h; exact .inr ⟨by omega, by omega, rfl⟩

theorem exec_codecEncode_cases {s t : State} (h : exec .codecEncode s = .next t) :
    (s.params.maxPayload < s.tx.len.toNat ∧ t = s.raise .lengthMismatch) ∨
    (s.tx.len.toNat ≤ s.params.maxPayload ∧ ∃ pay, Memory.readRange s.txp 0 s.tx.len.toNat = some pay ∧
      t = ({ s with wire := Memory.write s.wire 0 (frameBytes s.tx pay (txChecksum s pay))
                    wireLen := BitVec.ofNat 32 (70 + s.tx.len.toNat) } : State).result
        (txChecksum s pay) (BitVec.ofNat 32 (70 + s.tx.len.toNat)) 0 0) := by
  simp only [exec, execCodecEncode] at h
  split at h
  · rename_i hc; cases h; exact .inl ⟨hc, rfl⟩
  · rename_i hc
    split at h
    · cases h
    · rename_i pay hp; cases h; exact .inr ⟨by omega, pay, hp, rfl⟩

theorem exec_codecDecode_cases {s t : State} (h : exec .codecDecode s = .next t) :
    (s.wireLen.toNat < 70 ∧ t = s.raise .tooShort) ∨
    (70 ≤ s.wireLen.toNat ∧ t = s.raise .lengthMismatch) ∨
    (70 ≤ s.wireLen.toNat ∧ s.wireLen.toNat ≤ s.params.maxPayload + 70 ∧ ∃ lenBytes w,
      Memory.readRange s.wire 44 4 = some lenBytes ∧ s.wireLen.toNat - 58 = beNat lenBytes + 12 ∧
      Memory.readRange s.wire 0 s.wireLen.toNat = some w ∧
      t = ({ s with rx := RxRegs.ofFrame w (beNat lenBytes)
                    rxp := Memory.write s.rxp 0 (slice w 58 (beNat lenBytes)) } : State).result
        (RxRegs.ofFrame w (beNat lenBytes)).len (RxRegs.ofFrame w (beNat lenBytes)).nodeLen 0 0) := by
  simp only [exec, execCodecDecode] at h
  split at h
  · rename_i hc; cases h; exact .inl ⟨hc, rfl⟩
  · rename_i hc
    split at h
    · cases h; exact .inr (.inl ⟨by omega, rfl⟩)
    · rename_i hm
      split at h
      · cases h
      · rename_i lenBytes hl
        split at h
        · cases h; exact .inr (.inl ⟨by omega, rfl⟩)
        · rename_i he
          split at h
          · cases h
          · rename_i w hw; cases h
            exact .inr (.inr ⟨by omega, by omega, lenBytes, w, hl, by omega, hw, rfl⟩)

theorem exec_codecValidate_cases {s t : State} (h : exec .codecValidate s = .next t) :
    (s.rx.header ≠ headerSentinel ∧ t = s.raise .invalidHeader) ∨
    (s.rx.header = headerSentinel ∧ s.rx.footer ≠ footerSentinel ∧ t = s.raise .invalidFooter) ∨
    (s.rx.header = headerSentinel ∧ s.rx.footer = footerSentinel ∧
      ∃ pay, Memory.readRange s.rxp 0 s.rx.len.toNat = some pay ∧
        ((rxChecksum s pay ≠ s.rx.cksum ∧ t = s.raise .checksumMismatch) ∨
          (rxChecksum s pay = s.rx.cksum ∧ t = s.result (rxChecksum s pay) 0 0 0))) := by
  simp only [exec, execCodecValidate] at h
  split at h
  · rename_i hc; cases h; exact .inl ⟨hc, rfl⟩
  · rename_i hc
    rw [not_not] at hc
    split at h
    · rename_i hf; cases h; exact .inr (.inl ⟨hc, hf, rfl⟩)
    · rename_i hf
      rw [not_not] at hf
      split at h
      · cases h
      · rename_i pay hp
        refine .inr (.inr ⟨hc, hf, pay, hp, ?_⟩)
        split at h
        · rename_i hk; cases h; exact .inl ⟨hk, rfl⟩
        · rename_i hk
          rw [not_not] at hk
          rw [if_neg (by rw [Memory.readRange_length hp]; simp)] at h
          cases h; exact .inr ⟨hk, rfl⟩

theorem exec_schedAllocate_cases {s t : State} {priority : Nat} (h : exec (.schedAllocate priority) s = .next t) :
    (∃ i is, (ownedSlots s.params.n s.table s.nodeId).filter
        (fun i => (slotAt s.table i).fresh s.params.slotDuration s.now) = i :: is ∧
      t = s.result (BitVec.ofNat 32 i) 1 0 0) ∨
    ((ownedSlots s.params.n s.table s.nodeId).filter
        (fun i => (slotAt s.table i).fresh s.params.slotDuration s.now) = [] ∧
      ((∃ j k, pickSlot s.params.n s.params.slotDuration
            (freeSlots s.table (ownedSlots s.params.n s.table s.nodeId)) s.ptr.toNat s.now = some (j, k) ∧
          t = ({ s with table := assignSlot (freeSlots s.table (ownedSlots s.params.n s.table s.nodeId)) j s.nodeId
                          s.now64 } : State).result (BitVec.ofNat 32 j) (BitVec.ofNat 32 k)
                (BitVec.ofNat 32 (ownedSlots s.params.n s.table s.nodeId).length) 0) ∨
        (pickSlot s.params.n s.params.slotDuration
            (freeSlots s.table (ownedSlots s.params.n s.table s.nodeId)) s.ptr.toNat s.now = none ∧
          t = s.raise .noSlotAvailable))) := by
  simp only [exec, execSchedAllocate] at h
  split at h
  · rename_i i is hf; cases h; exact .inl ⟨i, is, hf, rfl⟩
  · rename_i hf
    refine .inr ⟨hf, ?_⟩
    split at h
    · rename_i j k hp; cases h; exact .inl ⟨j, k, hp, rfl⟩
    · rename_i hp; cases h; exact .inr ⟨hp, rfl⟩

theorem exec_schedAllocConsec_cases {s t : State} {count : Nat} (h : exec (.schedAllocConsec count) s = .next t) :
    t = s.raise .insufficientConsecutiveSlots ∨
    (0 < count ∧ count ≤ s.params.n ∧ ∃ first, firstWindow s.params.n s.table count = some first ∧
      t = ({ s with table := assignSlots s.table (List.range' first count) s.nodeId s.now64 } : State).result
        (BitVec.ofNat 32 first) (BitVec.ofNat 32 count) 0 0) := by
  simp only [exec, execSchedAllocConsec] at h
  split at h
  · cases h; exact .inl rfl
  · split at h
    · rename_i first hf; cases h; exact .inr ⟨by omega, by omega, first, hf, rfl⟩
    · cases h; exact .inl rfl

theorem exec_schedRelease_cases {s t : State} {slotId : Nat} (h : exec (.schedRelease slotId) s = .next t) :
    (s.params.n ≤ slotId ∧ t = s.raise .invalidSlotId) ∨
    (slotId < s.params.n ∧
      t = ({ s with table := freeSlot s.table slotId } : State).result (BitVec.ofNat 32 slotId) 0 0 0) := by
  simp only [exec, execSchedRelease] at h
  split at h
  · rename_i hc; cases h; exact .inl ⟨hc, rfl⟩
  · rename_i hc; cases h; exact .inr ⟨by omega, rfl⟩

theorem exec_schedSnapshot_cases {s t : State} (h : exec .schedSnapshot s = .next t) :
    t = ({ s with snap := Memory.write s.snap 0 (snapshotBytes s.table) } : State).result
      (BitVec.ofNat 32 (assignedCount s.table)) s.ptr 0 0 := by
  cases h; rfl

theorem exec_tick_cases {s t : State} (h : exec .tick s = .next t) :
    t = { s with ptr := BitVec.ofNat 32 ((s.ptr.toNat + 1) % s.params.n) } := by
  cases h; rfl

/-! ### What every instruction leaves -/

/-- What no command and no tick writes, and what all but a few do (the frame of every instruction). -/
theorem exec_frame {i : Instr} {s t : State} (h : exec i s = .next t) :
    t.params = s.params ∧ t.pend = s.pend ∧ t.nowLo = s.nowLo ∧ t.nowHi = s.nowHi ∧ t.clk = s.clk ∧
    t.nodeId = s.nodeId ∧ t.tx = s.tx ∧ t.txp = s.txp ∧ t.turns = s.turns ∧ t.readData = s.readData ∧
    t.status.overrun = s.status.overrun ∧ t.status.lastop = s.status.lastop ∧
    (i ≠ .tick → t.ptr = s.ptr ∧ t.status.busy = false) ∧
    (i ≠ .codecEncode → t.wire = s.wire ∧ t.wireLen = s.wireLen) ∧
    (i ≠ .codecDecode → t.rx = s.rx ∧ t.rxp = s.rxp) ∧
    (i ≠ .schedSnapshot → t.snap = s.snap) ∧
    ((∀ n, i ≠ .schedAllocate n ∧ i ≠ .schedAllocConsec n ∧ i ≠ .schedRelease n) → t.table = s.table) := by
  cases i with
  | clkCompute => rcases exec_clkCompute_cases h with ⟨_, rfl⟩ | ⟨_, _, rfl⟩ <;> simp [Status.fail, Status.succeed]
  | codecEncode =>
    rcases exec_codecEncode_cases h with ⟨_, rfl⟩ | ⟨_, _, _, rfl⟩ <;> simp [Status.fail, Status.succeed]
  | codecDecode =>
    rcases exec_codecDecode_cases h with ⟨_, rfl⟩ | ⟨_, rfl⟩ | ⟨_, _, _, _, _, _, _, rfl⟩ <;>
      simp [Status.fail, Status.succeed]
  | codecValidate =>
    rcases exec_codecValidate_cases h with ⟨_, rfl⟩ | ⟨_, _, rfl⟩ | ⟨_, _, _, _, ⟨_, rfl⟩ | ⟨_, rfl⟩⟩ <;>
      simp [Status.fail, Status.succeed]
  | schedAllocate priority =>
    rcases exec_schedAllocate_cases h with ⟨_, _, _, rfl⟩ | ⟨_, ⟨_, _, _, rfl⟩ | ⟨_, rfl⟩⟩ <;>
      simp [Status.fail, Status.succeed]
  | schedAllocConsec count =>
    rcases exec_schedAllocConsec_cases h with rfl | ⟨_, _, _, _, rfl⟩ <;> simp [Status.fail, Status.succeed]
  | schedRelease slotId =>
    rcases exec_schedRelease_cases h with ⟨_, rfl⟩ | ⟨_, rfl⟩ <;> simp [Status.fail, Status.succeed]
  | schedSnapshot => rw [exec_schedSnapshot_cases h]; simp [Status.succeed]
  | tick => rw [exec_tick_cases h]; simp

/-! ### Stops -/

/-- A meaning never refuses, and faults only by UninitRead (R64, R268). -/
theorem exec_stops (i : Instr) (s : State) :
    (∀ r, exec i s ≠ .refused r) ∧ ∀ f, exec i s = .fault f → f = .uninitRead := by
  cases i with
  | clkCompute => simp only [exec, execClkCompute]; split <;> simp
  | codecEncode =>
    simp only [exec, execCodecEncode]
    split
    · simp
    · split <;> simp [eq_comm]
  | codecDecode =>
    simp only [exec, execCodecDecode]
    split
    · simp
    · split
      · simp
      · split
        · simp [eq_comm]
        · split
          · simp
          · split <;> simp [eq_comm]
  | codecValidate =>
    simp only [exec, execCodecValidate]
    split
    · simp
    · split
      · simp
      · split
        · simp [eq_comm]
        · split
          · simp
          · split <;> simp
  | schedAllocate priority =>
    simp only [exec, execSchedAllocate]
    split
    · simp
    · split <;> simp
  | schedAllocConsec count =>
    simp only [exec, execSchedAllocConsec]
    split
    · simp
    · split <;> simp
  | schedRelease slotId => simp only [exec, execSchedRelease]; split <;> simp
  | schedSnapshot => simp [exec, execSchedSnapshot]
  | tick => simp [exec, execTick]

/-- Where a meaning stops (R64): only a codec command does, on a byte it reads that is not written. -/
theorem exec_fault_cases {i : Instr} {s : State} {f : Fault} (h : exec i s = .fault f) :
    f = .uninitRead ∧
    ((i = .codecEncode ∧ ∃ j, j < s.tx.len.toNat ∧ Memory.read? s.txp j = none) ∨
      (i = .codecDecode ∧ ∃ j, j < s.wireLen.toNat ∧ Memory.read? s.wire j = none) ∨
      (i = .codecValidate ∧ ∃ j, j < s.rx.len.toNat ∧ Memory.read? s.rxp j = none)) := by
  refine ⟨(exec_stops i s).2 f h, ?_⟩
  have unread {m : Memory} {n : Nat} (hr : Memory.readRange m 0 n = none) : ∃ j, j < n ∧ Memory.read? m j = none := by
    simpa using (Memory.readRange_eq_none_iff m 0 n).1 hr
  cases i with
  | codecEncode =>
    refine .inl ⟨rfl, ?_⟩
    simp only [exec, execCodecEncode] at h
    split at h
    · cases h
    · split at h
      · exact unread ‹_›
      · cases h
  | codecDecode =>
    refine .inr (.inl ⟨rfl, ?_⟩)
    simp only [exec, execCodecDecode] at h
    split at h
    · cases h
    · split at h
      · cases h
      · split at h
        · rename_i hlen _ hr
          obtain ⟨j, hj, hn⟩ := (Memory.readRange_eq_none_iff _ _ _).1 hr
          exact ⟨44 + j, by omega, hn⟩
        · split at h
          · cases h
          · split at h
            · exact unread ‹_›
            · cases h
  | codecValidate =>
    refine .inr (.inr ⟨rfl, ?_⟩)
    simp only [exec, execCodecValidate] at h
    split at h
    · cases h
    · split at h
      · cases h
      · split at h
        · exact unread ‹_›
        · split at h
          · cases h
          · split at h <;> cases h
  | clkCompute => simp only [exec, execClkCompute] at h; split at h <;> cases h
  | schedAllocate priority =>
    simp only [exec, execSchedAllocate] at h
    split at h
    · cases h
    · split at h <;> cases h
  | schedAllocConsec count =>
    simp only [exec, execSchedAllocConsec] at h
    split at h
    · cases h
    · split at h <;> cases h
  | schedRelease slotId => simp only [exec, execSchedRelease] at h; split at h <;> cases h
  | schedSnapshot => simp [exec, execSchedSnapshot] at h
  | tick => simp [exec, execTick] at h

end Sys2Proof.Machine
end

