-- ==== Sys2Proof/Laws/Flags.lean ====
section
/-! SUPPORT. The bits of the STATUS word (spec/10_state.md R25). -/

namespace Sys2Proof.Machine

open Sys2Proof

/-- Every bit of the STATUS word (R25). -/
theorem Status.word_getLsbD (st : Status) (i : Nat) :
    st.word.getLsbD i = if i = 0 then st.busy else if i = 1 then st.err else if i = 2 then st.overrun
      else if i < 8 then false else if i < 16 then st.errcode.getLsbD (i - 8) else st.lastop.getLsbD (i - 16) := by
  have hw : st.word.getLsbD i = BitVec.getLsbD ((0 : BitVec 8) ++ st.lastop ++ st.errcode ++ (0 : BitVec 5) ++ BitVec.ofBool st.overrun ++ BitVec.ofBool st.err ++
    BitVec.ofBool st.busy) i := rfl
  rw [hw]
  simp only [BitVec.getLsbD_append]
  by_cases h0 : i = 0
  · subst h0; cases st.busy <;> simp
  by_cases h1 : i = 1
  · subst h1; cases st.err <;> simp
  by_cases h2 : i = 2
  · subst h2; cases st.overrun <;> simp
  have e1 : i - 1 - 1 - 1 - 5 = i - 8 := by omega
  have e2 : i - 1 - 1 - 1 - 5 - 8 = i - 16 := by omega
  rw [e1]
  simp only [h0, h1, h2, show ¬ i < 1 by omega, show ¬ i - 1 < 1 by omega, show ¬ i - 1 - 1 < 1 by omega, if_false]
  by_cases h8 : i < 8
  · simp [h8, show i - 1 - 1 - 1 < 5 by omega]
  by_cases h16 : i < 16
  · simp [h8, h16, show ¬ i - 1 - 1 - 1 < 5 by omega, show i - 8 < 8 by omega]
  simp only [h8, h16, show ¬ i - 1 - 1 - 1 < 5 by omega, show ¬ i - 8 < 8 by omega, if_false, show i - 8 - 8 = i - 16 by omega]
  by_cases h24 : i - 16 < 8
  · simp [h24]
  · simp [h24, BitVec.getLsbD_of_ge _ _ (show 8 ≤ i - 16 by omega)]

end Sys2Proof.Machine
end

