-- ==== Sys2Proof/Laws/Inv.lean ====
section
/-! SUPPORT. The shared updates keep the invariant (Sys2Proof/Safety.lean). -/

namespace Sys2Proof.Machine

open Sys2Proof

theorem Inv.of_raise {s : State} {e : ErrorKind} (h : Inv s) (he : e ≠ .connectionClosed ∧ e ≠ .timeout) :
    Inv (s.raise e) := by
  refine { h with pendingStatus := ?_, errMatchesCode := ?_, codeProduced := ?_ }
  · simp [Status.fail]
  · cases e <;> simp [Status.fail, ErrorKind.code]
  · cases e <;> simp_all [Status.fail, ErrorKind.code, producedCodes]

theorem Inv.of_result {s : State} {a b c d : Word} (h : Inv s) : Inv (s.result a b c d) := by
  refine { h with pendingStatus := ?_, errMatchesCode := ?_, codeProduced := ?_ }
  · simp [Status.succeed]
  · simp [Status.succeed]
  · simp [Status.succeed, producedCodes]

theorem Inv.of_turns {s : State} {r : List Turn} (h : Inv s) : Inv { s with turns := r } := { h with }

theorem Inv.of_returns {s : State} {v : Word} (h : Inv s) : Inv (s.returns v) := { h with }

theorem Inv.of_assignSlot {s : State} {j : Nat} {id : Ident} {now : Long} (h : Inv s) :
    Inv { s with table := assignSlot s.table j id now } := by
  refine { h with tableLength := ?_, freeIsBlank := ?_, carriedZero := ?_ }
  · simpa using h.tableLength
  · intro r hr hf
    rcases List.mem_or_eq_of_mem_set hr with hr | rfl
    · exact h.freeIsBlank r hr hf
    · cases hf
  · intro r hr
    rcases List.mem_or_eq_of_mem_set hr with hr | rfl
    · exact h.carriedZero r hr
    · rfl

theorem Inv.of_freeSlot {s : State} {j : Nat} (h : Inv s) :
    Inv { s with table := freeSlot s.table j } := by
  refine { h with tableLength := ?_, freeIsBlank := ?_, carriedZero := ?_ }
  · simpa using h.tableLength
  · intro r hr hf
    rcases List.mem_or_eq_of_mem_set hr with hr | rfl
    · exact h.freeIsBlank r hr hf
    · rfl
  · intro r hr
    rcases List.mem_or_eq_of_mem_set hr with hr | rfl
    · exact h.carriedZero r hr
    · rfl

theorem Inv.of_freeSlots {s : State} {js : List Nat} (h : Inv s) :
    Inv { s with table := freeSlots s.table js } := by
  unfold freeSlots
  induction js generalizing s with
  | nil => exact h
  | cons j js ih => exact ih (s := { s with table := freeSlot s.table j }) h.of_freeSlot

theorem Inv.of_assignSlots {s : State} {js : List Nat} {id : Ident} {now : Long} (h : Inv s) :
    Inv { s with table := assignSlots s.table js id now } := by
  unfold assignSlots
  induction js generalizing s with
  | nil => exact h
  | cons j js ih => exact ih (s := { s with table := assignSlot s.table j id now }) h.of_assignSlot

end Sys2Proof.Machine
end

