-- ==== Sys2Proof/Laws/PerInstr.lean ====
section
/-! SUPPORT. For each instruction: the fields of its encoded word (spec/30_encoding.md R90 to R93). -/

namespace Sys2Proof.Laws.EncodedFields

open Sys2Proof

/-- The OPC the opcode map gives an instruction (R93); TICK has none. -/
def opcode : Instr → Option (BitVec 8)
  | .clkCompute => some 0x01
  | .codecEncode => some 0x10
  | .codecDecode => some 0x11
  | .codecValidate => some 0x12
  | .schedAllocate _ => some 0x20
  | .schedAllocConsec _ => some 0x21
  | .schedRelease _ => some 0x22
  | .schedSnapshot => some 0x23
  | .tick => none

/-- The operand an instruction carries in ARG (R92). -/
def operand : Instr → Nat
  | .clkCompute => 0
  | .codecEncode => 0
  | .codecDecode => 0
  | .codecValidate => 0
  | .schedAllocate priority => priority
  | .schedAllocConsec count => count
  | .schedRelease slotId => slotId
  | .schedSnapshot => 0
  | .tick => 0

/-- The encoded word of a well-formed command holds its OPC in bits 7:0 and its operand, whole, in bits 31:8. -/
def Statement (i : Instr) : Prop :=
  i.WellFormed = true → ∀ opc, opcode i = some opc → opcOf (encode i) = opc ∧ (argOf (encode i)).toNat = operand i

theorem clkCompute : Statement .clkCompute := by
  intro _ opc h; cases h; exact ⟨opcOf_cmdWord _ _, by decide⟩

theorem codecEncode : Statement .codecEncode := by
  intro _ opc h; cases h; exact ⟨opcOf_cmdWord _ _, by decide⟩

theorem codecDecode : Statement .codecDecode := by
  intro _ opc h; cases h; exact ⟨opcOf_cmdWord _ _, by decide⟩

theorem codecValidate : Statement .codecValidate := by
  intro _ opc h; cases h; exact ⟨opcOf_cmdWord _ _, by decide⟩

theorem schedAllocate (priority : Nat) : Statement (.schedAllocate priority) := by
  intro hw opc h; cases h
  exact ⟨opcOf_cmdWord _ _, by simpa [encode, operand, Instr.WellFormed] using hw⟩

theorem schedAllocConsec (count : Nat) : Statement (.schedAllocConsec count) := by
  intro hw opc h; cases h
  exact ⟨opcOf_cmdWord _ _, by simpa [encode, operand, Instr.WellFormed] using hw⟩

theorem schedRelease (slotId : Nat) : Statement (.schedRelease slotId) := by
  intro hw opc h; cases h
  exact ⟨opcOf_cmdWord _ _, by simpa [encode, operand, Instr.WellFormed] using hw⟩

theorem schedSnapshot : Statement .schedSnapshot := by
  intro _ opc h; cases h; exact ⟨opcOf_cmdWord _ _, by decide⟩

theorem tick : Statement .tick := by
  intro _ opc h; cases h

end Sys2Proof.Laws.EncodedFields
end

