-- ==== Sys2Proof/Laws/Step.lean ====
section
/-! SUPPORT. What a step can do, said once: which turn it takes, and what comes of each (spec/43_host_interface.md). -/

namespace Sys2Proof.Machine

open Sys2Proof

/-! ### The turn taken -/

@[simp] theorem perform_run (i : Instr) (s : State) : perform (.run i s) = exec i s := rfl

@[simp] theorem perform_done (o : Host.Outcome State Fault Refusal) : perform (.done o) = o := rfl

/-- A step of a legal instance with a turn to come takes it. -/
theorem step_of_turn {s : State} {t : Turn} {rest : List Turn} (hl : legalParams s.params = true)
    (ht : s.turns = t :: rest) :
    step s = perform (takeTurn t { s with turns := rest }) := by
  simp [step, fetch, hl, ht]

/-- A step of a legal instance in which the engine has the next turn is the engine's. -/
theorem step_of_engine {s : State} {rest : List Turn} (hl : legalParams s.params = true) (he : EngineNext s rest) :
    step s = perform (engineTurn { s with turns := rest }) := by
  rcases he with he | ⟨he, rfl⟩
  · rw [step_of_turn hl he]; rfl
  · have : ({ s with turns := [] } : State) = s := by rw [← he]
    simp [step, fetch, hl, he, this]

/-- An illegal instance is refused (R6). -/
theorem step_of_illegal {s : State} (hl : legalParams s.params = false) : step s = .refused .illegalInstance := by
  simp [step, fetch, hl]

theorem legal_of_step_next {s t : State} (h : step s = .next t) : legalParams s.params = true := by
  by_contra hl
  rw [step_of_illegal (by simpa using hl)] at h
  cases h

/-- A word write that has the next turn. -/
theorem step_of_write {s : State} {off : Nat} {v : Word} {rest : List Turn} (hl : legalParams s.params = true)
    (h : WriteNext s off v rest) :
    step s = perform (busWrite .word (BitVec.ofNat 25 off) v { s with turns := rest }) := step_of_turn hl h

/-- A word read that has the next turn. -/
theorem step_of_read {s : State} {off : Nat} {rest : List Turn} (hl : legalParams s.params = true)
    (h : ReadNext s off rest) : step s = busRead .word (BitVec.ofNat 25 off) { s with turns := rest } :=
  step_of_turn hl h

/-- A word write of a register other than TICK that has the next turn (R241). -/
theorem step_of_write_reg {s : State} {r : Reg} {v : Word} {rest : List Turn} (ht : r ≠ .tick)
    (hl : legalParams s.params = true) (h : WriteNext s r.offset v rest) :
    step s = if s.status.busy = true ∧ r.isRW = true then .fault .busyHazard
      else .next (storeTo (.reg r) v { s with turns := rest }) := by
  rw [step_of_write hl h, busWrite_reg ht]; split <;> rfl

/-- A write of TICK that has the next turn (R230, R241). -/
theorem step_of_write_tick {s : State} {v : Word} {rest : List Turn} (hl : legalParams s.params = true)
    (h : WriteNext s 0x028 v rest) :
    step s = if v.getLsbD 0 = true then exec .tick { s with turns := rest } else .next { s with turns := rest } := by
  refine (step_of_write hl h).trans ?_
  refine (congrArg perform (busWrite_tick v _)).trans ?_
  simp only [tickWrite, decode, decodeTick]
  cases v.getLsbD 0 <;> rfl

/-- A word read of a register that has the next turn (R240). -/
theorem step_of_read_reg {s : State} {r : Reg} {rest : List Turn} (hl : legalParams s.params = true)
    (h : ReadNext s r.offset rest) :
    step s = if s.status.busy = true ∧ readHazard (.reg r) = true then .fault .busyHazard
      else .next { s with turns := rest, readData := some (readReg r s) } := by
  rw [step_of_read hl h, busRead_reg]; cases r <;> rfl

theorem core_run_succ_of_next {M : Host.Core} {k : Nat} {s t : M.State} (h : M.step s = .next t) :
    M.run (k + 1) s = M.run k t := by rw [Host.Core.run, h]

theorem core_run_succ_of_fault {M : Host.Core} {k : Nat} {s : M.State} {f : M.Fault} (h : M.step s = .fault f) :
    M.run (k + 1) s = .fault f := by rw [Host.Core.run, h]

theorem core_run_succ_of_refused {M : Host.Core} {k : Nat} {s : M.State} {r : M.Refusal}
    (h : M.step s = .refused r) : M.run (k + 1) s = .refused r := by rw [Host.Core.run, h]

theorem runFor_succ_of_next {k : Nat} {s t : State} (h : step s = .next t) : runFor (k + 1) s = runFor k t :=
  core_run_succ_of_next (M := Sys2Proof.core) h

theorem runFor_succ_of_fault {k : Nat} {s : State} {f : Fault} (h : step s = .fault f) :
    runFor (k + 1) s = .fault f := core_run_succ_of_fault (M := Sys2Proof.core) h

theorem runFor_succ_of_refused {k : Nat} {s : State} {r : Refusal} (h : step s = .refused r) :
    runFor (k + 1) s = .refused r := core_run_succ_of_refused (M := Sys2Proof.core) h

/-- One more step at the front of a run. -/
theorem runFor_succ (k : Nat) (s : State) :
    runFor (k + 1) s = match step s with
      | .next t => runFor k t
      | .fault f => .fault f
      | .refused r => .refused r := by
  cases h : step s with
  | next t => exact runFor_succ_of_next h
  | fault f => exact runFor_succ_of_fault h
  | refused r => exact runFor_succ_of_refused h

theorem runFor_one (s : State) : runFor 1 s = step s := by
  rw [runFor_succ]; cases step s <;> rfl

/-! ### The parts of a turn -/

/-- A bus read that answers returns a value and does nothing else (R66). -/
theorem busRead_cases {size : AccessSize} {off : Offset} {s t : State} (h : busRead size off s = .next t) :
    supported size off = true ∧ ∃ v, t = s.returns v := by
  unfold busRead at h
  split at h
  · cases h
  · rename_i hs
    refine ⟨by simpa using hs, ?_⟩
    split at h
    · cases h
    · unfold readTarget at h
      split at h
      · cases h; exact ⟨_, rfl⟩
      · cases h; exact ⟨_, rfl⟩
      · split at h
        · cases h; exact ⟨_, rfl⟩
        · cases h

/-- What a bus write comes to (R241): a tick, a store, or a model fault. -/
theorem busWrite_cases (size : AccessSize) (off : Offset) (v : Word) (s : State) :
    busWrite size off v s = .done (.fault .badAccess) ∨ busWrite size off v s = .done (.fault .busyHazard) ∨
    (size = .word ∧ off.toNat = 0x028 ∧ v.getLsbD 0 = true ∧ busWrite size off v s = .run .tick s) ∨
    (size = .word ∧ off.toNat = 0x028 ∧ v.getLsbD 0 = false ∧ busWrite size off v s = .done (.next s)) ∨
    (size = .word ∧ targetOf off.toNat ≠ .reg .tick ∧
      busWrite size off v s = .done (.next (storeTo (targetOf off.toNat) v s))) := by
  unfold busWrite
  split
  · exact .inl rfl
  · rename_i hs
    have hw : size = .word := by
      by_contra hw; exact hs (by simp [supported, hw])
    split
    · exact .inr (.inl rfl)
    · split
      · rename_i ht
        have ho : off.toNat = 0x028 := (targetOf_eq_reg_iff _ _).1 ht
        cases hv : v.getLsbD 0 with
        | true => exact .inr (.inr (.inl ⟨hw, ho, rfl, by simp only [tickWrite, decode, decodeTick, hv]; rfl⟩))
        | false =>
          exact .inr (.inr (.inr (.inl ⟨hw, ho, rfl, by simp only [tickWrite, decode, decodeTick, hv]; rfl⟩)))
      · rename_i ht
        exact .inr (.inr (.inr (.inr ⟨hw, ht, rfl⟩)))

/-- What the engine's turn comes to (R244, R245). -/
theorem engineTurn_cases (s : State) :
    (s.status.busy = false ∧ engineTurn s = .done (.next s)) ∨
    (s.status.busy = true ∧ ∃ i, decodeCmd s.pend = .ok i ∧ engineTurn s = .run i s) ∨
    (s.status.busy = true ∧ (∃ e, decodeCmd s.pend = .error e) ∧
      engineTurn s = .done (.next (s.raise .illegalCommand))) := by
  unfold engineTurn
  cases hb : s.status.busy with
  | false => exact .inl ⟨rfl, rfl⟩
  | true =>
    cases hd : decodeCmd s.pend with
    | ok i => exact .inr (.inl ⟨rfl, i, rfl, by simp [decode, hd]⟩)
    | error e => exact .inr (.inr ⟨rfl, ⟨e, rfl⟩, by simp [decode, hd]⟩)

/-! ### The step -/

/-- Everything a step that answers `next t` can have done. -/
theorem step_cases {s t : State} (h : step s = .next t) :
    (∃ rest, EngineNext s rest ∧ s.status.busy = false ∧ t = { s with turns := rest }) ∨
    (∃ rest i, EngineNext s rest ∧ s.status.busy = true ∧ decodeCmd s.pend = .ok i ∧
      exec i { s with turns := rest } = .next t) ∨
    (∃ rest, EngineNext s rest ∧ s.status.busy = true ∧ (∃ e, decodeCmd s.pend = .error e) ∧
      t = ({ s with turns := rest } : State).raise .illegalCommand) ∨
    (∃ size off v rest, s.turns = .read size off :: rest ∧ t = ({ s with turns := rest } : State).returns v) ∨
    (∃ off v rest, s.turns = .write .word off v :: rest ∧ off.toNat = 0x028 ∧ v.getLsbD 0 = true ∧
      exec .tick { s with turns := rest } = .next t) ∨
    (∃ off v rest, s.turns = .write .word off v :: rest ∧ off.toNat = 0x028 ∧ v.getLsbD 0 = false ∧
      t = { s with turns := rest }) ∨
    (∃ off v rest, s.turns = .write .word off v :: rest ∧ targetOf off.toNat ≠ .reg .tick ∧
      t = storeTo (targetOf off.toNat) v { s with turns := rest }) ∨
    (∃ w rest, s.turns = .reset w :: rest ∧ t = ({ s with turns := rest } : State).assertReset) := by
  have hl := legal_of_step_next h
  have engine : ∀ rest, EngineNext s rest →
      (s.status.busy = false ∧ t = { s with turns := rest }) ∨
      (∃ i, s.status.busy = true ∧ decodeCmd s.pend = .ok i ∧ exec i { s with turns := rest } = .next t) ∨
      (s.status.busy = true ∧ (∃ e, decodeCmd s.pend = .error e) ∧
        t = ({ s with turns := rest } : State).raise .illegalCommand) := by
    intro rest he
    rw [step_of_engine hl he] at h
    rcases engineTurn_cases { s with turns := rest } with ⟨hb, hx⟩ | ⟨hb, i, hd, hx⟩ | ⟨hb, hd, hx⟩
    · rw [hx] at h; cases h; exact .inl ⟨hb, rfl⟩
    · rw [hx] at h; exact .inr (.inl ⟨i, hb, hd, h⟩)
    · rw [hx] at h; cases h; exact .inr (.inr ⟨hb, hd, rfl⟩)
  have engine' : ∀ rest, EngineNext s rest →
      (∃ rest, EngineNext s rest ∧ s.status.busy = false ∧ t = { s with turns := rest }) ∨
      (∃ rest i, EngineNext s rest ∧ s.status.busy = true ∧ decodeCmd s.pend = .ok i ∧
        exec i { s with turns := rest } = .next t) ∨
      (∃ rest, EngineNext s rest ∧ s.status.busy = true ∧ (∃ e, decodeCmd s.pend = .error e) ∧
        t = ({ s with turns := rest } : State).raise .illegalCommand) := by
    intro rest he
    rcases engine rest he with ⟨h1, h2⟩ | ⟨i, h1, h2, h3⟩ | ⟨h1, h2, h3⟩
    · exact .inl ⟨rest, he, h1, h2⟩
    · exact .inr (.inl ⟨rest, i, he, h1, h2, h3⟩)
    · exact .inr (.inr ⟨rest, he, h1, h2, h3⟩)
  cases ht : s.turns with
  | nil =>
    rcases engine' [] (.inr ⟨ht, rfl⟩) with h | h | h
    · exact .inl h
    · exact .inr (.inl h)
    · exact .inr (.inr (.inl h))
  | cons a rest =>
    cases a with
    | engine =>
      rcases engine' rest (.inl ht) with h | h | h
      · exact .inl h
      · exact .inr (.inl h)
      · exact .inr (.inr (.inl h))
    | read size off =>
      rw [step_of_turn hl ht] at h
      obtain ⟨_, v, rfl⟩ := busRead_cases h
      exact .inr (.inr (.inr (.inl ⟨size, off, v, rest, rfl, rfl⟩)))
    | write size off v =>
      rw [step_of_turn hl ht] at h
      simp only [takeTurn] at h
      rcases busWrite_cases size off v { s with turns := rest } with
        hx | hx | ⟨rfl, ho, hv, hx⟩ | ⟨rfl, ho, hv, hx⟩ | ⟨rfl, ho, hx⟩ <;> rw [hx] at h
      · cases h
      · cases h
      · exact .inr (.inr (.inr (.inr (.inl ⟨off, v, rest, rfl, ho, hv, h⟩))))
      · cases h; exact .inr (.inr (.inr (.inr (.inr (.inl ⟨off, v, rest, rfl, ho, hv, rfl⟩)))))
      · cases h; exact .inr (.inr (.inr (.inr (.inr (.inr (.inl ⟨off, v, rest, rfl, ho, rfl⟩))))))
    | reset w =>
      rw [step_of_turn hl ht] at h
      cases h
      exact .inr (.inr (.inr (.inr (.inr (.inr (.inr ⟨w, rest, rfl, rfl⟩))))))

/-- Where a bus read stops (R240, R247, R62, R64). -/
theorem busRead_fault_cases {size : AccessSize} {off : Offset} {s : State} {f : Fault}
    (h : busRead size off s = .fault f) :
    (f = .badAccess ∧ supported size off = false) ∨
    (supported size off = true ∧ f = .busyHazard ∧ s.status.busy = true ∧ readHazard (targetOf off.toNat) = true) ∨
    (supported size off = true ∧ f = .uninitRead ∧
      ∃ sp k, targetOf off.toNat = .buf sp k ∧ s.busWord sp k = none) := by
  unfold busRead at h
  split at h
  · rename_i hs
    cases h
    exact .inl ⟨rfl, hs⟩
  · rename_i hs
    have hs : supported size off = true := by simpa using hs
    split at h
    · rename_i hh
      cases h
      exact .inr (.inl ⟨hs, rfl, hh⟩)
    · unfold readTarget at h
      split at h
      · cases h
      · cases h
      · rename_i sp k ht
        split at h
        · cases h
        · rename_i hw
          cases h
          exact .inr (.inr ⟨hs, rfl, sp, k, ht, hw⟩)

/-- Where a bus write stops (R241, R247, R62). -/
theorem busWrite_fault_cases {size : AccessSize} {off : Offset} {v : Word} {s : State} {f : Fault}
    (h : perform (busWrite size off v s) = .fault f) :
    (f = .badAccess ∧ supported size off = false) ∨
    (supported size off = true ∧ f = .busyHazard ∧ s.status.busy = true ∧ writeHazard (targetOf off.toNat) = true) := by
  unfold busWrite at h
  split at h
  · rename_i hs
    cases h
    exact .inl ⟨rfl, hs⟩
  · rename_i hs
    split at h
    · rename_i hh
      cases h
      exact .inr ⟨by simpa using hs, rfl, hh⟩
    · split at h
      · unfold tickWrite at h
        split at h
        · rename_i hd
          rw [((decodeTick_eq_ok_iff _ _).1 hd).1] at h
          cases h
        · cases h
      · cases h

/-- Everything a step that faults can have done: a bus access, or the completion of a codec command. -/
theorem step_fault_cases {s : State} {f : Fault} (h : step s = .fault f) :
    legalParams s.params = true ∧
    ((∃ size off rest, s.turns = .read size off :: rest ∧ busRead size off { s with turns := rest } = .fault f) ∨
      (∃ size off v rest, s.turns = .write size off v :: rest ∧
        perform (busWrite size off v { s with turns := rest }) = .fault f) ∨
      (∃ rest i, EngineNext s rest ∧ s.status.busy = true ∧ decodeCmd s.pend = .ok i ∧
        exec i { s with turns := rest } = .fault f)) := by
  have hl : legalParams s.params = true := by
    by_contra hl
    rw [step_of_illegal (by simpa using hl)] at h
    cases h
  refine ⟨hl, ?_⟩
  have engine : ∀ rest, EngineNext s rest → ∃ rest i, EngineNext s rest ∧ s.status.busy = true ∧
      decodeCmd s.pend = .ok i ∧ exec i { s with turns := rest } = .fault f := by
    intro rest he
    rw [step_of_engine hl he] at h
    rcases engineTurn_cases { s with turns := rest } with ⟨_, hx⟩ | ⟨hb, i, hd, hx⟩ | ⟨_, _, hx⟩
    · rw [hx] at h; cases h
    · rw [hx] at h; exact ⟨rest, i, he, hb, hd, h⟩
    · rw [hx] at h; cases h
  cases ht : s.turns with
  | nil => exact .inr (.inr (engine [] (.inr ⟨ht, rfl⟩)))
  | cons a rest =>
    have hs := step_of_turn hl ht
    rw [h] at hs
    cases a with
    | engine => exact .inr (.inr (engine rest (.inl ht)))
    | read size off => exact .inl ⟨size, off, rest, rfl, hs.symm⟩
    | write size off v => exact .inr (.inl ⟨size, off, v, rest, rfl, hs.symm⟩)
    | reset w => cases hs

/-- What a store leaves (R241): CMD, STATUS, a plain register, a buffer word, or nothing. -/
theorem storeTo_cases (tgt : Target) (v : Word) (s : State) :
    (tgt = .reg .cmd ∧ storeTo tgt v s = cmdWrite v s) ∨ (tgt = .reg .status ∧ storeTo tgt v s = statusWrite v s) ∨
    (∃ r, tgt = .reg r ∧ storeTo tgt v s = writeReg r v s) ∨
    (∃ sp k, tgt = .buf sp k ∧ storeTo tgt v s = writeBuf sp k v s) ∨
    (tgt = .reserved ∧ storeTo tgt v s = s) := by
  unfold storeTo
  split
  · exact .inl ⟨rfl, rfl⟩
  · exact .inr (.inl ⟨rfl, rfl⟩)
  · rename_i r _ _; exact .inr (.inr (.inl ⟨r, rfl, rfl⟩))
  · rename_i sp k; exact .inr (.inr (.inr (.inl ⟨sp, k, rfl, rfl⟩)))
  · exact .inr (.inr (.inr (.inr ⟨rfl, rfl⟩)))

end Sys2Proof.Machine
end

