-- ==== Sys2Proof/Tests/Slice0.lean ====
section
/-! SUPPORT. The model's own tests. Every expected value is the spec's: spec/95_test_vectors.md (the vector is named in the
test's comment) or an encoding of spec/30_encoding.md written out bit by bit. Then, for every statement of
Sys2Proof/Certificates/Slice0/Obligations.lean that has hypotheses, a witness: concrete states and operands that meet them. -/

namespace Sys2Proof.Tests

open Sys2Proof Sys2Proof.Machine

/-! ### Helpers -/

/-- A property of the next state, if there is one. -/
def after {α : Type} (o : Host.Outcome State Fault Refusal) (f : State → α) : Option α :=
  match o with
  | .next t => some (f t)
  | .fault _ => none
  | .refused _ => none

theorem exists_of_after {α : Type} {o : Host.Outcome State Fault Refusal} {f : State → α} {a : α}
    (h : after o f = some a) : ∃ t, o = .next t ∧ f t = a := by
  cases o with
  | next t => exact ⟨t, rfl, Option.some.inj h⟩
  | fault f => cases h
  | refused r => cases h

/-- The fault of an outcome, if it is one. -/
def faultOf (o : Host.Outcome State Fault Refusal) : Option Fault :=
  match o with
  | .next _ => none
  | .fault f => some f
  | .refused _ => none

/-- The instance of the vectors V-SCH-8 to V-SCH-10: N = 3, D = 10; here with MAX_PAYLOAD = 8. -/
def p3 : Params := { Params.reference with n := 3, slotDuration := 10, maxPayload := 8 }

def s3 : State := State.resetOf p3

/-- The id of a one-character name: its byte, then 31 zero bytes. -/
def idOf (w0 : Word) : Ident := { Ident.zero with w0 := w0 }

/-- An Assigned record. -/
def assignedTo (owner : Ident) (at_ : Long) : SlotRecord :=
  { status := .assigned, owner := owner, assignedAt := at_, carriedFragmentId := 0 }

def wr (off : Nat) (v : Word) : Turn := .write .word (BitVec.ofNat 25 off) v

def rd (off : Nat) : Turn := .read .word (BitVec.ofNat 25 off)

/-- `s` with the bits of NOW. -/
def atTime (s : State) (now : Long) : State :=
  { s with nowLo := now.extractLsb' 0 32, nowHi := now.extractLsb' 32 32 }

/-- `s` with the bits of NOW, CLK_EPOCH, CLK_DUR and CLK_SLOTS. -/
def withClock (s : State) (now epoch dur : Long) (slots : Word) : State :=
  { atTime s now with
    clk := { epochLo := epoch.extractLsb' 0 32, epochHi := epoch.extractLsb' 32 32, durLo := dur.extractLsb' 0 32,
             durHi := dur.extractLsb' 32 32, slots := slots } }

/-- The 75 bytes of frame F1 (spec/95_test_vectors.md 2.3). -/
def f1 : List Byte :=
  [0xAA, 0x55, 0xAA, 0x55, 0xAA, 0x55, 0xAA, 0x55, 0x00, 0x00, 0x00, 0x03, 0x41] ++ List.replicate 31 0x00 ++
    [0x00, 0x00, 0x00, 0x05, 0x00, 0x00, 0x00, 0x00, 0x00, 0x01, 0x00, 0x00, 0x00, 0x00] ++
    [0x48, 0x45, 0x4C, 0x4C, 0x4F, 0x2A, 0xAA, 0x9D, 0x4F, 0x55, 0xAA, 0x55, 0xAA, 0x55, 0xAA, 0x55, 0xAA]

/-- The reset state with F1's fields in the TX frame. -/
def txF1 : State :=
  { s3 with
    tx := { slot := 3, fragId := 0, total := 1, index := 0, flags := 0, len := 5, node := idOf 0x41000000 }
    txp := cellsFrom 0 [0x48, 0x45, 0x4C, 0x4C, 0x4F] }

/-- The reset state with a frame in WIRE. -/
def wireOf (bs : List Byte) : State := { s3 with wire := cellsFrom 0 bs, wireLen := BitVec.ofNat 32 bs.length }

/-- The RX registers of V-DEC-1. -/
def rxF1 : RxRegs :=
  { slot := 3, fragId := 0, total := 1, index := 0, flags := 0, len := 5, cksum := 0x2AAA9D4F, nodeLen := 1,
    hdr0 := 0xAA55AA55, hdr1 := 0xAA55AA55, ftr0 := 0x55AA55AA, ftr1 := 0x55AA55AA, node := idOf 0x41000000 }

/-- The reset state with F1 decoded. -/
def validF1 : State := { s3 with rx := rxF1, rxp := cellsFrom 0 [0x48, 0x45, 0x4C, 0x4C, 0x4F] }

/-- The table of V-SCH-9 and V-SCH-10. -/
def full3 (a b c : Long) : Table := [assignedTo (idOf 0x50000000) a, assignedTo (idOf 0x51000000) b, assignedTo (idOf 0x52000000) c]

/-- Node "S" at a time, with a table. -/
def node3 (t : Table) (now : Long) : State := { atTime s3 now with table := t, nodeId := idOf 0x53000000 }

/-! ### WellFormed: an operand that does not fit ARG is refused (R90, R92) -/

theorem test_wf_priority_too_wide : (Instr.schedAllocate 16777216).WellFormed = false := by decide

theorem test_wf_count_too_wide : (Instr.schedAllocConsec 16777216).WellFormed = false := by decide

theorem test_wf_slot_id_too_wide : (Instr.schedRelease 16777216).WellFormed = false := by decide

theorem test_wf_widest_operands : (Instr.schedAllocate 16777215).WellFormed = true ∧
    (Instr.schedAllocConsec 16777215).WellFormed = true ∧ (Instr.schedRelease 16777215).WellFormed = true := by decide

/-! ### Decoding: words written out from R90 to R93, ARG in bits 31:8 and OPC in bits 7:0 -/

theorem test_decode_clk_compute : decode .cmd 0b000000000000000000000000_00000001 = .ok .clkCompute := by decide

theorem test_decode_codec_encode : decode .cmd 0b000000000000000000000000_00010000 = .ok .codecEncode := by decide

theorem test_decode_codec_decode : decode .cmd 0b000000000000000000000000_00010001 = .ok .codecDecode := by decide

theorem test_decode_codec_validate : decode .cmd 0b000000000000000000000000_00010010 = .ok .codecValidate := by decide

theorem test_decode_sched_allocate :
    decode .cmd 0b100000000000000000000001_00100000 = .ok (.schedAllocate 8388609) := by decide

theorem test_decode_sched_alloc_consec :
    decode .cmd 0b000000000000000000000011_00100001 = .ok (.schedAllocConsec 3) := by decide

theorem test_decode_sched_release :
    decode .cmd 0b000000000000000100000011_00100010 = .ok (.schedRelease 259) := by decide

theorem test_decode_sched_snapshot : decode .cmd 0b000000000000000000000000_00100011 = .ok .schedSnapshot := by decide

theorem test_decode_tick : decode .tick 0b10000000000000000000000000000001 = .ok .tick := by decide

/-- V-HOST-1, V-HOST-4, V-HOST-5, V-CLK-20, and a TICK word with bit 0 clear (V-TCK-2): each rejected by name. -/
theorem test_decode_rejects : decode .cmd 0x00000000 = .error .unassignedOpcode ∧
    decode .cmd 0x00000024 = .error .unassignedOpcode ∧ decode .cmd 0x00000100 = .error .unassignedOpcode ∧
    decode .cmd 0x00000101 = .error .reservedArgument ∧ decode .tick 0x00000000 = .error .noTickRequest := by decide

/-- The one word that two rows of the opcode table share: 32 bits of it are CLK_COMPUTE's, the 8 of TICK's row TICK's. -/
theorem test_decode_table_word_shared :
    decodeTableWord 32 0x00000001 = some .clkCompute ∧ decodeTableWord 8 0x00000001 = some .tick := by decide

/-! ### One step each -/

/-- V-CLK-8: now = -1. -/
theorem test_clk_compute_negative_delta :
    after (step ((withClock s3 (-1) 0 10 4).withFetchWord 32 0x01)) (fun t => (t.status.word, t.res.r0)) =
      some (0x00010000, 3) := by decide

/-- V-CLK-13: delta = -(2^64 - 1), exact. -/
theorem test_clk_compute_no_overflow :
    after (step ((withClock s3 0x8000000000000000 0x7FFFFFFFFFFFFFFF 1 7).withFetchWord 32 0x01)) (fun t => t.res.r0) =
      some 6 := by decide

/-- V-COD-1 and its bus view: the words at WIRE+44 and WIRE+60. -/
theorem test_codec_encode_f1 :
    after (step (txF1.withFetchWord 32 0x10))
      (fun t => (t.res.r0, t.wireLen, t.busWord .wire 44, t.busWord .wire 60)) =
      some (0x2AAA9D4F, 75, some 0x00000005, some 0x4C4C4F2A) := by decide

/-- V-COD-5 at MAX_PAYLOAD = 8: TX_LEN = 9 fails with LengthMismatch. -/
theorem test_codec_encode_too_long :
    after (step (({ s3 with tx := { s3.tx with len := 9 } } : State).withFetchWord 32 0x10))
      (fun t => (t.status.word, t.wireLen)) = some (0x00100402, 0) := by decide

set_option maxRecDepth 20000 in
/-- V-DEC-1. -/
theorem test_codec_decode_f1 :
    after (step ((wireOf f1).withFetchWord 32 0x11)) (fun t => (t.status.word, t.res.r0, t.res.r1, t.rx)) =
      some (0x00110000, 5, 1, rxF1) := by decide

/-- V-DEC-7: the first 74 bytes of F1. -/
theorem test_codec_decode_short_by_one :
    after (step ((wireOf (f1.take 74)).withFetchWord 32 0x11)) (fun t => (t.status.word, t.rx.slot)) =
      some (0x00110402, 0) := by decide

/-- V-VAL-1. -/
theorem test_codec_validate_f1 :
    after (step (validF1.withFetchWord 32 0x12)) (fun t => (t.status.word, t.res.r0)) =
      some (0x00120000, 0x2AAA9D4F) := by decide

/-- V-VAL-6: the footer is checked before the checksum. -/
theorem test_codec_validate_order :
    after (step (({ validF1 with rx := { rxF1 with ftr1 := 0x55AA55AB, cksum := 0x2AAA9D4E } } : State).withFetchWord 32
      0x12)) (fun t => t.status.word) = some 0x00120202 := by decide

/-- V-SCH-8: the oldest slot, the lowest on a tie. -/
theorem test_sched_allocate_preempts :
    after (step ((node3 (full3 5 0 0) 56).withFetchWord 32 0x120)) (fun t => (t.status.word, t.res.r0, t.res.r1, t.table)) =
      some (0x00200000, 1, 6, [assignedTo (idOf 0x50000000) 5, assignedTo (idOf 0x53000000) 56, assignedTo (idOf 0x52000000) 0]) := by decide

/-- V-SCH-9: age 50 is not over 5·D. -/
theorem test_sched_allocate_none :
    after (step ((node3 (full3 0 0 0) 50).withFetchWord 32 0x120)) (fun t => (t.status.word, t.table)) =
      some (0x00200602, full3 0 0 0) := by decide

/-- V-SCH-C9 and V-SCH-C10: the scan does not wrap, and takes the first window. -/
def edgesFree : State :=
  { State.reset with
    table := List.replicate 2 SlotRecord.freeRecord ++ List.replicate 6 (assignedTo (idOf 0x41000000) 0) ++
      List.replicate 2 SlotRecord.freeRecord }

theorem test_sched_alloc_consec_no_wrap :
    after (step (edgesFree.withFetchWord 32 0x321)) (fun t => (t.status.word, t.table)) =
      some (0x00210702, edgesFree.table) := by decide

theorem test_sched_alloc_consec_first_fit :
    after (step (edgesFree.withFetchWord 32 0x221)) (fun t => (t.status.word, t.res.r0, t.res.r1)) =
      some (0x00210000, 0, 2) := by decide

/-- V-REL-1, with the slot 2 of three. -/
theorem test_sched_release :
    after (step ((node3 (full3 0 0 0) 0).withFetchWord 32 0x222)) (fun t => (t.status.word, t.res.r0, t.table[2]?)) =
      some (0x00220000, 2, some SlotRecord.freeRecord) := by decide

/-- V-REL-4: slotId 16 777 215. -/
theorem test_sched_release_invalid :
    after (step (s3.withFetchWord 32 0xFFFFFF22)) (fun t => t.status.word) = some 0x00220802 := by decide

/-- V-SNP-3: entry 0 of a table with T[0] held by A since -1. -/
theorem test_sched_snapshot :
    after (step ((({ s3 with table := [assignedTo (idOf 0x41000000) (-1), .freeRecord, .freeRecord] }) : State).withFetchWord 32
      0x23)) (fun t => (t.res.r0, t.busWord .snap 0, t.busWord .snap 4, t.busWord .snap 36, t.busWord .snap 40)) =
      some (1, some 1, some 0x41000000, some 0xFFFFFFFF, some 0xFFFFFFFF) := by decide

/-- V-SNP-5: ARG ≠ 0 is IllegalCommand. -/
theorem test_sched_snapshot_illegal :
    after (step (s3.withCommand 0x00000123)) (fun t => (t.status.word, t.snap)) = some (0x00230C02, []) := by decide

/-- V-TCK-1 on three slots: the last slot wraps to 0. -/
theorem test_tick_wraps :
    after (step (({ s3 with ptr := 2 } : State).withFetchWord 8 0x01)) (fun t => (t.ptr, t.status.word)) =
      some (0, 0) := by decide

/-- V-TCK-3: bits 31:1 are ignored. -/
theorem test_tick_ignores_high_bits :
    after (step (s3.withTickWrite 0xFFFFFFFF)) (fun t => t.ptr) = some 1 := by decide

/-! ### Bus accesses -/

/-- V-MEM-5: bits 31:16 of a TX_FLAGS write are ignored. -/
theorem test_bus_write_tx_flags :
    after (step { s3 with turns := [wr 0x090 0xABCD0008] }) (fun t => readReg .txFlags t) = some 0x00000008 := by decide

/-- V-SNP-4: an unwritten buffer byte. -/
theorem test_bus_read_unwritten : faultOf (step { s3 with turns := [rd 0x1000000] }) = some .uninitRead := by decide

/-- V-MEM-4: an access of 16 bits, and one at offset 2. -/
theorem test_bus_bad_access : faultOf (step { s3 with turns := [.read .half 0] }) = some .badAccess ∧
    faultOf (step { s3 with turns := [rd 0x002] }) = some .badAccess := by decide

/-- V-MEM-7: a write to TX_LEN while BUSY = 1. -/
theorem test_bus_busy_hazard :
    faultOf (step { s3.acceptCmd 0x10 with turns := [wr 0x094 5] }) = some .busyHazard := by decide

/-! ### Witnesses -/

theorem test_witness_DecodeInvertsEncode : (Instr.schedRelease 16777215).WellFormed = true := by decide

theorem test_witness_EngineRunsThePendingCommand :
    legalParams (s3.acceptCmd 0x322).params = true ∧ (s3.acceptCmd 0x322).status.busy = true ∧
    EngineNext (s3.acceptCmd 0x322) [] ∧ EngineNext { s3.acceptCmd 0x322 with turns := [.engine, rd 0] } [rd 0] ∧
    decode .cmd (s3.acceptCmd 0x322).pend = .ok (.schedRelease 3) :=
  ⟨by decide, rfl, .inr ⟨rfl, rfl⟩, .inl rfl, by decide⟩

theorem test_witness_TickDoorbell :
    legalParams s3.params = true ∧
    (WriteNext { s3 with turns := [wr 0x028 0xFFFFFFFF] } 0x028 0xFFFFFFFF [] ∧
      (0xFFFFFFFF : Word).getLsbD 0 = true) ∧
    (WriteNext { s3 with turns := [wr 0x028 0xFFFFFFFE] } 0x028 0xFFFFFFFE [] ∧
      (0xFFFFFFFE : Word).getLsbD 0 = false) ∧
    ReadNext { s3 with turns := [rd 0x028] } 0x028 [] :=
  ⟨by decide, ⟨rfl, by decide⟩, ⟨rfl, by decide⟩, rfl⟩

/-- An unassigned OPC (the whole word 0, and the OPC after the last), and a reserved ARG (the smallest and the largest). -/
theorem test_witness_IllegalWordsCompleteWithIllegalCommand :
    legalParams s3.params = true ∧ s3.status.busy = false ∧
    (∀ w ∈ [0x00000000, 0x00000024, 0xFFFFFFFF],
      BitVec.toNat (w : Word) % 256 ∉ [0x01, 0x10, 0x11, 0x12, 0x20, 0x21, 0x22, 0x23]) ∧
    (∀ w ∈ [0x00000101, 0xFFFFFF23],
      BitVec.toNat (w : Word) % 256 ∈ [0x01, 0x10, 0x11, 0x12, 0x23] ∧ BitVec.toNat (w : Word) / 256 ≠ 0) ∧
    ({ s3 with turns := [wr 0x020 0, .engine] } : State).turns = [.write .word 0x020 0, .engine] ∧
    WriteNext { s3 with turns := [wr 0x028 3] } 0x028 3 [] :=
  ⟨by decide, rfl, by simp, by simp, rfl, rfl⟩

theorem test_witness_CmdWriteIsAcceptedWhenIdle :
    legalParams s3.params = true ∧ s3.status.busy = false ∧
    WriteNext { s3 with turns := [wr 0x020 0, .engine] } 0x020 0 [.engine] ∧
    decode .cmd 0 = .error .unassignedOpcode ∧ [Turn.engine] = .engine :: [] :=
  ⟨by decide, rfl, rfl, by decide, rfl⟩

theorem test_witness_CmdWriteIsDroppedWhenBusy :
    legalParams (s3.acceptCmd 0x23).params = true ∧ (s3.acceptCmd 0x23).status.busy = true ∧
    WriteNext { s3.acceptCmd 0x23 with turns := [wr 0x020 0x10] } 0x020 0x10 [] := ⟨by decide, rfl, rfl⟩

theorem test_witness_StatusWriteClearsOnlyOverrun :
    legalParams s3.params = true ∧ WriteNext { s3.acceptCmd 0x23 with turns := [wr 0x024 4] } 0x024 4 [] :=
  ⟨by decide, rfl⟩

theorem test_witness_ResetRestoresEveryPiece :
    legalParams s3.params = true ∧ ({ s3.acceptCmd 0x23 with turns := [.reset (some 1)] } : State).turns =
      [.reset (some 1)] := ⟨by decide, rfl⟩

/-- The widest legal instance. -/
def widest : Params :=
  { Params.reference with n := 65536, slotDuration := 2 ^ 63 - 1, maxPayload := 1048506 }

theorem test_witness_RegistersAfterReset :
    legalParams widest = true ∧ Reg.rxNode 7 ∉ [Reg.id, .paramN, .paramMaxPay, .paramDurLo, .paramDurHi] := by decide

theorem test_witness_ConstantRegistersReadTheParameters :
    legalParams s3.params = true ∧
    (∀ off ∈ [0x000, 0x004, 0x008, 0x00C, 0x010], ReadNext { s3 with turns := [rd off] } off [] ∧
      WriteNext { s3 with turns := [wr off 5] } off 5 []) := ⟨by decide, fun _ _ => ⟨rfl, rfl⟩⟩

theorem test_witness_StatusReadsAsLaidOut :
    legalParams s3.params = true ∧ ReadNext { s3 with turns := [rd 0x024] } 0x024 [] := ⟨by decide, rfl⟩

/-- The first and the last register of the map, and PTR, RES3 and RX_NODELEN, read while idle; TX_LEN and PTR, read while
busy. -/
theorem test_witness_RegisterReadReturnsItsValue :
    legalParams s3.params = true ∧ (s3.acceptCmd 1).params = s3.params ∧
    (∀ off, ReadNext { s3 with turns := [rd off] } off [] ∧ ReadNext { s3.acceptCmd 1 with turns := [rd off] } off []) ∧
    s3.status.busy = false ∧
    (∀ off ∈ [0x02C, 0x094],
      ¬((0x050 ≤ off ∧ off ≤ 0x05C) ∨ off = 0x0C0 ∨ (0x100 ≤ off ∧ off ≤ 0x14C))) ∧
    (∀ x ∈ [(0x000, 0x54444D41), (0x02C, s3.ptr), (0x05C, s3.res.r3), (0x11C, s3.rx.nodeLen), (0x14C, s3.rx.node.w7)],
      x ∈ registerReads s3) ∧
    (∀ x ∈ [(0x02C, (s3.acceptCmd 1).ptr), (0x094, (s3.acceptCmd 1).tx.len)], x ∈ registerReads (s3.acceptCmd 1)) :=
  ⟨by decide, rfl, fun _ => ⟨rfl, rfl⟩, rfl, by decide, by simp [registerReads],
    by simp [registerReads]⟩

/-- The first and the last RW register, and a 16-bit one. -/
theorem test_witness_RegisterWriteStoresTheValue :
    legalParams s3.params = true ∧ s3.status.busy = false ∧
    (∀ off, WriteNext { s3 with turns := [wr off 0xABCD0008] } off 0xABCD0008 []) ∧
    (0x030, { s3 with nowLo := 0xABCD0008 }) ∈ registerWrites 0xABCD0008 s3 ∧
    (0x090, { s3 with tx.flags := 0x0008 }) ∈ registerWrites 0xABCD0008 s3 ∧
    (0x0C0, { s3 with wireLen := 0xABCD0008 }) ∈ registerWrites 0xABCD0008 s3 :=
  ⟨by decide, rfl, fun _ => rfl, by simp [registerWrites], by simp [registerWrites], by simp [registerWrites]⟩

theorem test_witness_BufferWriteStoresItsBytes :
    legalParams s3.params = true ∧ s3.status.busy = false ∧
    (∀ k ∈ [0, 8, 0xFFFFC], k % 4 = 0 ∧ k < 0x100000) ∧
    (∀ k ∈ [0, 8, 0xFFFFC], WriteNext { s3 with turns := [wr (0x0100000 + k) 5] } (0x0100000 + k) 5 [] ∧
      WriteNext { s3 with turns := [wr (0x0200000 + k) 5] } (0x0200000 + k) 5 []) :=
  ⟨by decide, rfl, by decide, fun _ _ => ⟨rfl, rfl⟩⟩

/-- An unwritten word of each buffer; and the last word of TXP, written, and one beyond SNAP's capacity. -/
theorem test_witness_BufferReadReturnsItsBytes :
    legalParams s3.params = true ∧ (∀ sp : Space, s3.status.busy = true → sp = .txp) ∧
    (0x3FFFFC % 4 = 0 ∧ 0x3FFFFC < (if Space.snap = Space.snap then 0x400000 else 0x100000)) ∧
    (∃ j, j < 4 ∧ 0 + j < capacity s3.params .rxp ∧ Memory.read? (s3.buffer .rxp) (0 + j) = none) ∧
    (∀ j, j < 4 → 4 + j < capacity s3.params .txp →
      ∃ b, Memory.read? (({ s3 with txp := cellsFrom 4 [1, 2, 3, 4] } : State).buffer .txp) (4 + j) = some b) ∧
    (∀ j, j < 4 → 0x3FFFFC + j < capacity s3.params .snap →
      ∃ b, Memory.read? (s3.buffer .snap) (0x3FFFFC + j) = some b) ∧
    (∀ sp k, ReadNext { s3 with turns := [rd (windowBase sp + k)] } (windowBase sp + k) []) := by
  refine ⟨by decide, fun _ h => ?_, by decide, ⟨0, by decide⟩, fun j hj _ => ?_, fun j _ h => ?_, fun _ _ => rfl⟩
  · cases h
  · match j, hj with
    | 0, _ => exact ⟨1, rfl⟩
    | 1, _ => exact ⟨2, rfl⟩
    | 2, _ => exact ⟨3, rfl⟩
    | 3, _ => exact ⟨4, rfl⟩
  · have hc : capacity s3.params .snap = 192 := rfl
    omega

/-- Each range of the statement at both of its ends. -/
theorem test_witness_ReservedOffsetsReadZero :
    legalParams s3.params = true ∧
    (∀ off ∈ [0x014, 0x01C, 0x04C, 0x098, 0x09C, 0x0C4, 0x0FC, 0x150, 0x0FFFFC, 0x0400000, 0x0FFFFFC, 0x1400000, 0x1FFFFFC],
      off % 4 = 0 ∧ ((0x014 ≤ off ∧ off ≤ 0x01C) ∨ off = 0x04C ∨ (0x098 ≤ off ∧ off ≤ 0x09C) ∨
        (0x0C4 ≤ off ∧ off ≤ 0x0FC) ∨ (0x150 ≤ off ∧ off ≤ 0x0FFFFC) ∨ (0x0400000 ≤ off ∧ off ≤ 0x0FFFFFF) ∨
        (0x1400000 ≤ off ∧ off ≤ 0x1FFFFFF))) ∧
    (∀ off ∈ [0x000, 0x010, 0x02C, 0x050, 0x05C, 0x100, 0x14C], off % 4 = 0 ∧
      (off ≤ 0x010 ∨ off = 0x02C ∨ (0x050 ≤ off ∧ off ≤ 0x05C) ∨ (0x100 ≤ off ∧ off ≤ 0x14C))) ∧
    (∀ off, ReadNext { s3 with turns := [rd off] } off [] ∧ WriteNext { s3 with turns := [wr off 7] } off 7 []) :=
  ⟨by decide, by decide, by decide, fun _ => ⟨rfl, rfl⟩⟩

theorem test_witness_ResultBuffersIgnoreHostWrites :
    legalParams s3.params = true ∧
    (∀ off ∈ [0x0300000, 0x03FFFFC, 0x1000000, 0x13FFFFC], off % 4 = 0 ∧
      ((0x0300000 ≤ off ∧ off < 0x0400000) ∨ (0x1000000 ≤ off ∧ off < 0x1400000))) ∧
    (∀ off, WriteNext { s3 with turns := [wr off 7] } off 7 []) := ⟨by decide, by decide, fun _ => rfl⟩

theorem test_witness_ReadsHaveNoSideEffect :
    ({ s3 with turns := [rd 0x024] } : State).turns = [.read .word 0x024] ∧
    ∃ t, step { s3 with turns := [rd 0x024] } = .next t := ⟨rfl, _, rfl⟩

theorem test_witness_UnsupportedAccessFaults :
    legalParams s3.params = true ∧ (AccessSize.byte ≠ .word ∨ (0 : Offset).toNat % 4 ≠ 0) ∧
    (AccessSize.word ≠ .word ∨ (2 : Offset).toNat % 4 ≠ 0) ∧
    ({ s3 with turns := [.read .byte 0] } : State).turns = [.read .byte 0] ∧
    ({ s3 with turns := [.write .word 2 0] } : State).turns = [.write .word 2 0] :=
  ⟨by decide, by decide, by decide, rfl, rfl⟩

/-- The ends of the hazard ranges, and the allowed offsets beside them. -/
theorem test_witness_BusyHazardsAreExactlyTheForbiddenAccesses :
    legalParams (s3.acceptCmd 1).params = true ∧ (s3.acceptCmd 1).status.busy = true ∧
    (∀ off ∈ [0x02C, 0x030, 0x048, 0x04C, 0x05C, 0x060, 0x094, 0x098, 0x0A0, 0x0C0, 0x0C4, 0x100, 0x14C, 0x150, 0x0FFFFC,
      0x0100000, 0x02FFFFC, 0x0300000, 0x03FFFFC, 0x0400000, 0x1000000, 0x13FFFFC, 0x1400000, 0x1FFFFFC],
      off % 4 = 0 ∧ off < 0x2000000) ∧
    (∀ off, WriteNext { s3.acceptCmd 1 with turns := [wr off 7] } off 7 [] ∧
      ReadNext { s3.acceptCmd 1 with turns := [rd off] } off []) :=
  ⟨by decide, rfl, by decide, fun _ => ⟨rfl, rfl⟩⟩

theorem test_witness_IdleHoldsAllState :
    legalParams s3.params = true ∧ s3.status.busy = false ∧ EngineNext s3 [] := ⟨by decide, rfl, .inr ⟨rfl, rfl⟩⟩

/-- An instance that is refused, and one that is not. -/
theorem test_witness_OnlyIllegalInstancesAreRefused :
    step (State.resetOf { p3 with n := 0 }) = .refused .illegalInstance ∧ ∃ t, step s3 = .next t := ⟨rfl, _, rfl⟩

theorem test_witness_ParametersAndTableSizeNeverChange :
    s3.table.length = s3.params.n ∧ ∃ t, step s3 = .next t := ⟨rfl, _, rfl⟩

/-- A command that changes the table, and a tick that changes PTR. -/
theorem test_witness_SchedulerStateChangesOnlyByItsOwners :
    (∃ t, step (s3.withCommand 0x120) = .next t ∧ decide (t.table ≠ (s3.withCommand 0x120).table) = true) ∧
    ∃ t, step (s3.withTickWrite 1) = .next t ∧ decide (t.ptr ≠ (s3.withTickWrite 1).ptr) = true :=
  ⟨exists_of_after (by decide), exists_of_after (by decide)⟩

set_option maxRecDepth 20000 in
theorem test_witness_RxFrameChangesOnlyByDecode :
    ∃ t, step ((wireOf f1).withCommand 0x11) = .next t ∧ decide (t.rx ≠ (wireOf f1).rx ∨ t.rxp ≠ (wireOf f1).rxp) = true :=
  exists_of_after (by decide)

theorem test_witness_OperandsChangeOnlyByHostWrites :
    ∃ t, step { s3 with turns := [wr 0x030 9] } = .next t ∧ decide (t.nowLo ≠ s3.nowLo) = true :=
  exists_of_after (by decide)

/-- A step that goes on, one that faults and one that is refused. -/
theorem test_witness_PendIsNotReadWhileIdle :
    s3.status.busy = false ∧ (∃ t, step s3 = .next t) ∧
    step { s3 with turns := [.read .byte 0] } = .fault .badAccess ∧
    step (State.resetOf { p3 with n := 0 }) = .refused .illegalInstance := ⟨rfl, ⟨_, rfl⟩, rfl, rfl⟩

theorem test_witness_PendingCommandSeesAnInterveningTick :
    legalParams (s3.acceptCmd 0x20).params = true ∧ (s3.acceptCmd 0x20).status.busy = true ∧
    decode .cmd (s3.acceptCmd 0x20).pend = .ok (.schedAllocate 0) ∧
    (s3.acceptCmd 0x20).ptr.toNat < (s3.acceptCmd 0x20).params.n ∧
    ({ s3.acceptCmd 0x20 with turns := [wr 0x028 1, .engine] } : State).turns =
      [.write .word 0x028 0x00000001, .engine] := ⟨by decide, rfl, by decide, by decide, rfl⟩

theorem test_witness_PendingCommandCompletes :
    legalParams (s3.acceptCmd 0).params = true ∧ (s3.acceptCmd 0).status.busy = true := ⟨by decide, rfl⟩

/-- Each fault: an unsupported access; a forbidden write and a forbidden read; an unwritten byte read by the host, and by
each codec command. -/
theorem test_witness_ModelFaultsAriseOnlyWhereTheSpecSays :
    step { s3 with turns := [.read .byte 0] } = .fault .badAccess ∧
    step { s3.acceptCmd 0x10 with turns := [wr 0x0C0 5] } = .fault .busyHazard ∧
    step { s3.acceptCmd 0x10 with turns := [rd 0x0C0] } = .fault .busyHazard ∧
    step { s3 with turns := [rd 0x1000000] } = .fault .uninitRead ∧
    step (({ txF1 with txp := [] } : State).acceptCmd 0x10) = .fault .uninitRead ∧
    step (({ s3 with wireLen := 70 } : State).acceptCmd 0x11) = .fault .uninitRead ∧
    step (({ validF1 with rxp := [] } : State).acceptCmd 0x12) = .fault .uninitRead :=
  ⟨rfl, rfl, rfl, rfl, rfl, rfl, rfl⟩

theorem test_witness_FailedCommandsChangeOnlyStatus :
    (s3.acceptCmd 0x01).status.busy = true ∧ EngineNext (s3.acceptCmd 0x01) [] ∧
    ∃ t, step (s3.acceptCmd 0x01) = .next t ∧ t.status.err = true :=
  ⟨rfl, .inr ⟨rfl, rfl⟩, exists_of_after (by decide)⟩

theorem test_witness_EachCommandRaisesOnlyItsErrors :
    (∀ i ∈ [Instr.clkCompute, .codecEncode, .codecDecode, .codecValidate, .schedAllocate 0, .schedAllocConsec 0,
      .schedRelease 3, .schedSnapshot], i.port = .cmd) ∧
    (∃ t, exec .clkCompute s3 = .next t) ∧ (∃ t, exec .codecEncode s3 = .next t) ∧
    (∃ t, exec .codecDecode s3 = .next t) ∧ (∃ t, exec .codecValidate s3 = .next t) ∧
    (∃ t, exec (.schedAllocate 0) s3 = .next t) ∧ (∃ t, exec (.schedAllocConsec 0) s3 = .next t) ∧
    (∃ t, exec (.schedRelease 3) s3 = .next t) ∧ ∃ t, exec .schedSnapshot s3 = .next t :=
  ⟨by decide, ⟨_, rfl⟩, ⟨_, rfl⟩, ⟨_, rfl⟩, ⟨_, rfl⟩, ⟨_, rfl⟩, ⟨_, rfl⟩, ⟨_, rfl⟩, ⟨_, rfl⟩⟩

theorem test_witness_InvariantHoldsAtReset : legalParams widest = true ∧ legalParams p3 = true := by decide

/-- The reset state of the three-slot instance meets the invariant. -/
theorem inv_s3 : Inv s3 :=
  { legal := by decide
    tableLength := rfl
    ptrInRange := by decide
    freeIsBlank := by decide
    carriedZero := by decide
    txpOk := ⟨List.Pairwise.nil, fun c h => by cases h⟩
    wireOk := ⟨List.Pairwise.nil, fun c h => by cases h⟩
    rxpOk := ⟨List.Pairwise.nil, fun c h => by cases h⟩
    snapOk := ⟨List.Pairwise.nil, fun c h => by cases h⟩
    pendingStatus := fun h => by cases h
    errMatchesCode := by decide
    codeProduced := by decide
    rxNodeLen := by decide
    rxLenBound := by decide
    rxPayloadWritten := fun k h => by cases h }

theorem test_witness_EveryStepKeepsTheInvariant : Inv s3 ∧ ∃ t, step s3 = .next t := ⟨inv_s3, _, rfl⟩

/-- A duration of 0, a slot count of -1, and the smallest legal pair. -/
theorem test_witness_ClkComputeGivesTheSlot :
    (1 : BitVec 24) ≠ 0 ∧
    (((withClock s3 5 0 0 4).clk.durHi ++ (withClock s3 5 0 0 4).clk.durLo).toInt ≤ 0 ∨
      (withClock s3 5 0 0 4).clk.slots.toInt ≤ 0) ∧
    (((withClock s3 5 0 10 (-1)).clk.durHi ++ (withClock s3 5 0 10 (-1)).clk.durLo).toInt ≤ 0 ∨
      (withClock s3 5 0 10 (-1)).clk.slots.toInt ≤ 0) ∧
    0 < ((withClock s3 5 0 1 1).clk.durHi ++ (withClock s3 5 0 1 1).clk.durLo).toInt ∧
    0 < (withClock s3 5 0 1 1).clk.slots.toInt := by decide

/-- The first and the last instant of a slot; one slot later; one period later. -/
theorem test_witness_ClkComputeIsAPeriodicRamp :
    0 < (withClock s3 30 0 10 4).clk.dur ∧ 0 < (withClock s3 30 0 10 4).clk.slotCount ∧
    (withClock s3 39 0 10 4).clk = (withClock s3 30 0 10 4).clk ∧
    (withClock s3 40 0 10 4).clk = (withClock s3 30 0 10 4).clk ∧
    (withClock s3 70 0 10 4).clk = (withClock s3 30 0 10 4).clk ∧
    (3 * 10 ≤ (withClock s3 30 0 10 4).now - 0 ∧ (withClock s3 30 0 10 4).now - 0 < (3 + 1) * 10) ∧
    (3 * 10 ≤ (withClock s3 39 0 10 4).now - 0 ∧ (withClock s3 39 0 10 4).now - 0 < (3 + 1) * 10) ∧
    (withClock s3 40 0 10 4).now = (withClock s3 30 0 10 4).now + (withClock s3 30 0 10 4).clk.dur ∧
    (withClock s3 70 0 10 4).now =
      (withClock s3 30 0 10 4).now + (withClock s3 30 0 10 4).clk.slotCount * (withClock s3 30 0 10 4).clk.dur := by
  decide

theorem test_witness_MapperAndSchedulerAreNotLinked :
    (∃ t, exec .clkCompute (withClock s3 25 0 10 4) = .next t) ∧ Instr.schedAllocate 0 ≠ .clkCompute ∧
    ∃ t, exec (.schedAllocate 0) s3 = .next t := ⟨⟨_, rfl⟩, by decide, _, rfl⟩

theorem test_witness_CkRefDetectsOneByteAndMissesPairs :
    (0x48 : Byte) ≠ 0x49 ∧ (List.replicate 31 (0 : Byte)).length = 31 := by decide

/-- Too long by one; an unwritten payload byte; the payload of F1; the empty payload. -/
theorem test_witness_EncodeWritesTheFrame :
    (1 : BitVec 24) ≠ 0 ∧ txF1.params.maxPayload < 9 ∧
    (txF1.tx.len.toNat ≤ txF1.params.maxPayload ∧
      ∃ j, j < txF1.tx.len.toNat ∧ Memory.read? ({ txF1 with txp := [] } : State).txp j = none) ∧
    (([0x48, 0x45, 0x4C, 0x4C, 0x4F] : List Byte).length = txF1.tx.len.toNat ∧
      ∀ j, j < txF1.tx.len.toNat → Memory.read? txF1.txp j = ([0x48, 0x45, 0x4C, 0x4C, 0x4F] : List Byte)[j]?) ∧
    (([] : List Byte).length = s3.tx.len.toNat ∧
      ∀ j, j < s3.tx.len.toNat → Memory.read? s3.txp j = ([] : List Byte)[j]?) :=
  ⟨by decide, by decide, ⟨by decide, 0, by decide, rfl⟩, ⟨by decide, by decide⟩, rfl, fun j h => by cases h⟩

theorem test_witness_EncodedFieldsLieAtTheirOffsets :
    ∃ t, exec .codecEncode txF1 = .next t ∧ t.status.err = false := exists_of_after (by decide)

/-- The bytes of F1 as a function of the offset. -/
def f1At (j : Nat) : Byte := f1.getD j 0

/-- WIRE_LEN 69, 70 + MAX_PAYLOAD + 1, and 75; an unwritten length field; a length field that disagrees with the count; an
unwritten payload byte; and F1. -/
theorem test_witness_DecodeParsesTheFrame :
    (1 : BitVec 24) ≠ 0 ∧ (wireOf (f1.take 69)).wireLen.toNat < 70 ∧
    (70 ≤ 79 ∧ s3.params.maxPayload + 70 < 79) ∧ (70 ≤ 75 ∧ 75 ≤ s3.params.maxPayload + 70) ∧
    (wireOf f1).wireLen.toNat = 75 ∧ (∃ j, j < 4 ∧ Memory.read? s3.wire (44 + j) = none) ∧
    (∀ j, j < 4 → Memory.read? (wireOf (f1.take 74)).wire (44 + j) = some (f1At (44 + j))) ∧
    74 - 58 ≠ (f1At 44 ++ f1At 45 ++ f1At 46 ++ f1At 47).toNat + 12 ∧
    75 - 58 = (f1At 44 ++ f1At 45 ++ f1At 46 ++ f1At 47).toNat + 12 ∧
    (∃ j, j < 75 ∧ Memory.read? (wireOf (f1.take 74)).wire j = none) ∧
    (∀ j, j < 75 → Memory.read? (wireOf f1).wire j = some (f1At j)) := by
  refine ⟨by decide, by decide, by decide, by decide, by decide, ⟨0, by decide⟩, by decide, by decide, by decide,
    ⟨74, by decide⟩, by decide⟩

/-- A wrong header, a wrong footer, an unwritten payload byte, a wrong and a right checksum. -/
theorem test_witness_ValidateChecksTheFrame :
    (1 : BitVec 24) ≠ 0 ∧ ¬(s3.rx.hdr0 = 0xAA55AA55 ∧ s3.rx.hdr1 = 0xAA55AA55) ∧
    (validF1.rx.hdr0 = 0xAA55AA55 ∧ validF1.rx.hdr1 = 0xAA55AA55) ∧
    ¬((0x55AA55AA : Word) = 0x55AA55AA ∧ (0x55AA55AB : Word) = 0x55AA55AA) ∧
    (validF1.rx.ftr0 = 0x55AA55AA ∧ validF1.rx.ftr1 = 0x55AA55AA) ∧
    (∃ j, j < validF1.rx.len.toNat ∧ Memory.read? ({ validF1 with rxp := [] } : State).rxp j = none) ∧
    (([0x48, 0x45, 0x4C, 0x4C, 0x4F] : List Byte).length = validF1.rx.len.toNat ∧
      ∀ j, j < validF1.rx.len.toNat → Memory.read? validF1.rxp j = ([0x48, 0x45, 0x4C, 0x4C, 0x4F] : List Byte)[j]?) ∧
    ckRef (cover headerSentinel 3 1 0 0 [0x48, 0x45, 0x4C, 0x4C, 0x4F]) = validF1.rx.cksum ∧
    ckRef (cover headerSentinel 3 1 0 0 [0x48, 0x45, 0x4C, 0x4C, 0x4F]) ≠ 0x2AAA9D4E := by
  refine ⟨by decide, by decide, by decide, by decide, by decide, ⟨0, by decide⟩, by decide, by decide, by decide⟩

/-- One that succeeds and one that fails. -/
theorem test_witness_ValidateSucceedsExactlyOnWellFormedFrames :
    (∃ t, exec .codecValidate validF1 = .next t ∧ t.status.err = false) ∧
    ∃ t, exec .codecValidate s3 = .next t ∧ t.status.err = true :=
  ⟨exists_of_after (by decide), exists_of_after (by decide)⟩

theorem test_witness_ValidateAlwaysCompletes : Inv s3 := inv_s3

theorem test_witness_ValidateIgnoresNodeIdAndFragmentId :
    ∃ t, exec .codecValidate validF1 = .next t ∧ t.status.err = false := exists_of_after (by decide)

theorem test_witness_EncodeDecodeValidateRoundTrip :
    legalParams txF1.params = true ∧
    (∃ t, exec .codecEncode txF1 = .next t ∧ t.status.err = false ∧ t.wire = t.wire ∧ t.wireLen = t.wireLen ∧
      t.params = txF1.params) := by
  refine ⟨by decide, ?_⟩
  obtain ⟨t, h, he⟩ := exists_of_after (o := exec .codecEncode txF1) (f := fun t => (t.status.err, t.params))
    (a := (false, p3)) (by decide)
  exact ⟨t, h, (Prod.mk.inj he).1, rfl, rfl, (Prod.mk.inj he).2⟩

/-- The functions of the statement on a three-slot table. -/
theorem test_witness_AllocateFollowsThePolicy (t : Table) (now : Long) (ht : t.length = 3) :
    let s := node3 t now
    ∃ (T : Nat → SlotRecord) (Own Young Free : Nat → Prop) (after : Nat → Table),
      3 = s.params.n ∧ 0 = s.ptr.toNat ∧ s.table.length = 3 ∧ 0 < 3 ∧ (∀ i, i < 3 → s.table[i]? = some (T i)) ∧
      (∀ i, Own i ↔ (T i).status = .assigned ∧ (T i).owner = s.nodeId) ∧
      (∀ i, Young i ↔
        (s.nowHi ++ s.nowLo).toInt - (T i).assignedAt.toInt < 10 * (s.params.slotDuration : Int)) ∧
      (∀ i, Free i ↔ (T i).status = .free ∨ Own i) ∧
      (∀ j, after j = (s.table.map fun r =>
          if r.status = .assigned ∧ r.owner = s.nodeId then
            { status := .free, owner := Ident.zero, assignedAt := 0, carriedFragmentId := 0 }
          else r).set j
            { status := .assigned, owner := s.nodeId, assignedAt := s.nowHi ++ s.nowLo, carriedFragmentId := 0 }) := by
  refine ⟨fun i => t.getD i SlotRecord.freeRecord, _, _, _, _, rfl, rfl, ht, by decide, fun i hi => ?_, fun _ => Iff.rfl,
    fun _ => Iff.rfl, fun _ => Iff.rfl, fun _ => rfl⟩
  have hi' : i < t.length := by omega
  show t[i]? = _
  simp [hi']

/-- Tables for each path: step 1 (S owns slot 1, age 99), steps 3 and 4 (slots 0, 1 Free), step 5 (slot 2 Free), step 6 (age
51) and step 7 (age 50), each with the step the meaning takes. -/
theorem test_witness_AllocateFollowsThePolicy_paths :
    after (exec (.schedAllocate 0) (node3 [assignedTo (idOf 0x50000000) 0, assignedTo (idOf 0x53000000) 0, .freeRecord] 99))
      (fun t => (t.res.r0, t.res.r1)) = some (1, 1) ∧
    after (exec (.schedAllocate 0) (node3 [.freeRecord, .freeRecord, .freeRecord] 0))
      (fun t => (t.res.r0, t.res.r1)) = some (0, 3) ∧
    after (exec (.schedAllocate 0) (node3 [assignedTo (idOf 0x50000000) 0, assignedTo (idOf 0x53000000) 0, .freeRecord] 100))
      (fun t => (t.res.r0, t.res.r1)) = some (1, 4) ∧
    after (exec (.schedAllocate 0) (node3 [assignedTo (idOf 0x50000000) 0, assignedTo (idOf 0x51000000) 0, .freeRecord] 0))
      (fun t => (t.res.r0, t.res.r1)) = some (2, 5) ∧
    after (exec (.schedAllocate 0) (node3 (full3 0 0 0) 51)) (fun t => (t.res.r0, t.res.r1)) = some (0, 6) ∧
    after (exec (.schedAllocate 0) (node3 (full3 0 0 0) 50)) (fun t => t.status.errcode) = some 6 := by decide

/-- A success at step 6 and the failure. -/
theorem test_witness_AllocateConsequences :
    (node3 (full3 0 0 0) 51).table.length = (node3 (full3 0 0 0) 51).params.n ∧
    (node3 (full3 0 0 0) 51).ptr.toNat < (node3 (full3 0 0 0) 51).params.n ∧
    (node3 (full3 0 0 0) 51).params.n ≤ 65536 ∧
    (∃ t, exec (.schedAllocate 0) (node3 (full3 0 0 0) 51) = .next t ∧ (t.status.err, t.res.r1) = (false, 6)) ∧
    ∃ t, exec (.schedAllocate 0) (node3 (full3 0 0 0) 50) = .next t ∧ t.status.err = true :=
  ⟨rfl, by decide, by decide, exists_of_after (by decide), exists_of_after (by decide)⟩

/-- The second call at age 99, the last at which the slot is fresh. -/
theorem test_witness_AllocateIsIdempotent :
    s3.table.length = s3.params.n ∧ s3.ptr.toNat < s3.params.n ∧ s3.params.n ≤ 65536 ∧
    ∃ (t u : State) (r : SlotRecord), exec (.schedAllocate 0) s3 = .next t ∧ t.status.err = false ∧ u.table = t.table ∧ u.nodeId = s3.nodeId ∧
      u.params = s3.params ∧ s3.now ≤ u.now ∧ t.table[t.res.r0.toNat]? = some r ∧
      u.now - r.assignedAt.toInt < 10 * (s3.params.slotDuration : Int) := by
  refine ⟨rfl, by decide, by decide, ?_⟩
  obtain ⟨t, h, he⟩ := exists_of_after (o := exec (.schedAllocate 0) s3)
    (f := fun t => (t.status.err, t.nodeId, t.params, t.table[t.res.r0.toNat]?))
    (a := (false, Ident.zero, p3, some (assignedTo Ident.zero 0))) (by decide)
  simp only [Prod.mk.injEq] at he
  obtain ⟨h1, h2, h3, h4⟩ := he
  have hn : (atTime t 99).now = 99 := by
    show BitVec.toInt ((99 : Long).extractLsb' 32 32 ++ (99 : Long).extractLsb' 0 32) = 99
    decide
  refine ⟨t, atTime t 99, assignedTo Ident.zero 0, h, h1, rfl, h2, h3, ?_, h4, ?_⟩
  · rw [hn]
    decide
  · rw [hn]
    decide

/-- Count 0 and N + 1; slots 1 and 2 as the first window of two; no window of two. -/
theorem test_witness_AllocConsecTakesTheFirstWindow :
    s3.table.length = s3.params.n ∧ s3.params.n < 4 ∧ 2 ≤ s3.params.n ∧ 1 + 2 ≤ s3.params.n ∧
    (∀ j, 1 ≤ j → j < 1 + 2 →
      ∃ r, ([assignedTo Ident.zero 0, .freeRecord, .freeRecord] : Table)[j]? = some r ∧ r.status = .free) ∧
    (∀ f, f < 1 → ∃ j r, f ≤ j ∧ j < f + 2 ∧
      ([assignedTo Ident.zero 0, .freeRecord, .freeRecord] : Table)[j]? = some r ∧ r.status = .assigned) ∧
    (∀ f, f + 2 ≤ 3 → ∃ j r, f ≤ j ∧ j < f + 2 ∧
      ([.freeRecord, assignedTo Ident.zero 0, .freeRecord] : Table)[j]? = some r ∧ r.status = .assigned) := by
  refine ⟨rfl, by decide, by decide, by decide, fun j h1 h2 => ?_, fun f hf => ?_, fun f hf => ?_⟩
  · match j, h1, h2 with
    | 1, _, _ => exact ⟨_, rfl, rfl⟩
    | 2, _, _ => exact ⟨_, rfl, rfl⟩
  · exact ⟨0, _, by omega, by omega, rfl, rfl⟩
  · exact ⟨1, _, by omega, by omega, rfl, rfl⟩

theorem test_witness_ConsecutiveAllocationScenario :
    State.reset.params.n = 10 ∧ State.reset.table = List.replicate 10 SlotRecord.freeRecord := ⟨rfl, rfl⟩

/-- The first id outside the table, and the last inside. -/
theorem test_witness_ReleaseFreesTheSlot : s3.params.n ≤ 3 ∧ 2 < s3.params.n := by decide

theorem test_witness_SnapshotCopiesTheTable :
    (1 : BitVec 24) ≠ 0 ∧ s3.table.length = s3.params.n ∧ s3.table[2]? = some SlotRecord.freeRecord ∧
    64 * s3.params.n ≤ 192 := by decide

theorem test_witness_TickAdvancesThePointer :
    ({ s3 with ptr := 2 } : State).ptr.toNat < s3.params.n ∧ s3.params.n ≤ 65536 := by decide

end Sys2Proof.Tests
end

section
/-! PROOFS. The TICK doorbell and the constant registers (spec/10_state.md R22, R23, R26). -/

namespace Sys2Proof.Machine

open Sys2Proof

/-! ### Accesses that BUSY does not forbid -/

/-- A read of a register that R247 does not list returns its value, also while BUSY = 1 (R240). -/
theorem step_of_read_unhazarded {s : State} {r : Reg} {rest : List Turn} (hr : readHazard (.reg r) = false)
    (hl : legalParams s.params = true) (h : ReadNext s r.offset rest) :
    step s = .next { s with turns := rest, readData := some (readReg r s) } := by
  rw [step_of_read_reg hl h, if_neg (by simp [hr])]

/-- A write to a read-only register is ignored, also while BUSY = 1 (R21, R65). -/
theorem step_of_write_readOnly {s : State} {off : Nat} {v : Word} {rest : List Turn} (h4 : off % 4 = 0)
    (hro : off ≤ 0x010 ∨ off = 0x02C ∨ (0x050 ≤ off ∧ off ≤ 0x05C) ∨ (0x100 ≤ off ∧ off ≤ 0x14C))
    (hl : legalParams s.params = true) (h : WriteNext s off v rest) :
    step s = .next { s with turns := rest } := by
  obtain ⟨hhaz, htick, hstore⟩ := storeTo_readOnly h4 hro v { s with turns := rest }
  rw [step_of_write hl h, busWrite_word (by omega) h4, if_neg (by simp [hhaz]), if_neg htick, hstore, perform_done]

/-! ### What the PARAM registers read as (R23) -/

/-- The ranges of R6 that let every parameter fit its registers. -/
theorem legalParams_fit {p : Params} (hl : legalParams p = true) :
    p.n < 2 ^ 32 ∧ p.maxPayload < 2 ^ 32 ∧ p.slotDuration < 2 ^ 64 := by
  simp only [legalParams, decide_eq_true_eq] at hl
  omega

theorem readReg_paramN_toNat {s : State} (hl : legalParams s.params = true) :
    (readReg .paramN s).toNat = s.params.n :=
  (BitVec.toNat_ofNat _ 32).trans (Nat.mod_eq_of_lt (legalParams_fit hl).1)

theorem readReg_paramMaxPay_toNat {s : State} (hl : legalParams s.params = true) :
    (readReg .paramMaxPay s).toNat = s.params.maxPayload :=
  (BitVec.toNat_ofNat _ 32).trans (Nat.mod_eq_of_lt (legalParams_fit hl).2.1)

theorem readReg_paramDurLo_toNat {s : State} (hl : legalParams s.params = true) :
    (readReg .paramDurLo s).toNat = s.params.slotDuration % 2 ^ 32 := by
  obtain ⟨-, -, hd⟩ := legalParams_fit hl
  simp only [readReg, BitVec.extractLsb'_toNat, BitVec.toNat_ofNat, Nat.shiftRight_eq_div_pow]
  omega

theorem readReg_paramDurHi_toNat {s : State} (hl : legalParams s.params = true) :
    (readReg .paramDurHi s).toNat = s.params.slotDuration / 2 ^ 32 := by
  obtain ⟨-, -, hd⟩ := legalParams_fit hl
  simp only [readReg, BitVec.extractLsb'_toNat, BitVec.toNat_ofNat, Nat.shiftRight_eq_div_pow]
  omega

/-! ### The obligations -/

/-- Settles O5: bit 0 of the word written chooses between the tick, whose one effect is PTR, and nothing. -/
theorem tickDoorbell : Obligations.TickDoorbell := by
  intro s rest w hl
  refine ⟨fun hw hbit => ?_, fun hw hbit => ?_, fun hr => ?_⟩
  · have hstep : step s = exec .tick { s with turns := rest } := by rw [step_of_write_tick hl hw, if_pos hbit]
    exact ⟨hstep, _, hstep⟩
  · rw [step_of_write_tick hl hw, hbit, if_neg Bool.false_ne_true]
  · exact step_of_read_unhazarded (r := .tick) rfl hl hr

/-- Settles O12: the five registers are read-only and no busy hazard, and a legal instance's parameters fit them. -/
theorem constantRegistersReadTheParameters : Obligations.ConstantRegistersReadTheParameters := by
  intro s rest hl
  refine ⟨fun h => ?_, fun h => ?_, fun h => ?_, fun h => ?_, fun h => ?_, fun off v hoff h => ?_⟩
  · exact step_of_read_unhazarded (r := .id) rfl hl h
  · exact ⟨_, readReg_paramN_toNat hl, step_of_read_unhazarded (r := .paramN) rfl hl h⟩
  · exact ⟨_, readReg_paramMaxPay_toNat hl, step_of_read_unhazarded (r := .paramMaxPay) rfl hl h⟩
  · exact ⟨_, readReg_paramDurLo_toNat hl, step_of_read_unhazarded (r := .paramDurLo) rfl hl h⟩
  · exact ⟨_, readReg_paramDurHi_toNat hl, step_of_read_unhazarded (r := .paramDurHi) rfl hl h⟩
  · have hread : off % 4 = 0 ∧ off ≤ 0x010 := by
      simp only [List.mem_cons, List.not_mem_nil, or_false] at hoff
      omega
    exact step_of_write_readOnly hread.1 (.inl hread.2) hl h

end Sys2Proof.Machine
end

section
/-! PROOFS. The reserved offsets and the registers that ignore an access (spec/20_memory.md R65). -/

namespace Sys2Proof.Machine

open Sys2Proof

/-- The reserved offsets of R65, between the registers, above them and outside the buffer windows of R63. -/
theorem targetOf_eq_reserved {off : Nat} (h4 : off % 4 = 0)
    (h : (0x014 ≤ off ∧ off ≤ 0x01C) ∨ off = 0x04C ∨ (0x098 ≤ off ∧ off ≤ 0x09C) ∨ (0x0C4 ≤ off ∧ off ≤ 0x0FC) ∨
      (0x150 ≤ off ∧ off ≤ 0x0FFFFC) ∨ (0x0400000 ≤ off ∧ off ≤ 0x0FFFFFF) ∨ (0x1400000 ≤ off ∧ off ≤ 0x1FFFFFF)) :
    targetOf off = .reserved := by
  by_cases hlt : off < 0x150
  · exact targetOf_gap h4 (by omega)
  · exact targetOf_reserved (by omega)

/-- A read of a reserved offset returns 0, also while BUSY = 1 (R65, R240). -/
theorem step_of_read_reserved {s : State} {off : Nat} {rest : List Turn} (ht : targetOf off = .reserved)
    (hlt : off < 0x2000000) (h4 : off % 4 = 0) (hl : legalParams s.params = true) (h : ReadNext s off rest) :
    step s = .next { s with turns := rest, readData := some 0 } := by
  rw [step_of_read hl h, busRead_word hlt h4, ht, if_neg (by simp [readHazard])]
  rfl

/-- A write of a reserved offset is ignored, also while BUSY = 1 (R65, R241). -/
theorem step_of_write_reserved {s : State} {off : Nat} {v : Word} {rest : List Turn} (ht : targetOf off = .reserved)
    (hlt : off < 0x2000000) (h4 : off % 4 = 0) (hl : legalParams s.params = true) (h : WriteNext s off v rest) :
    step s = .next { s with turns := rest } := by
  rw [step_of_write hl h, busWrite_word hlt h4, ht, if_neg (by simp [writeHazard]), if_neg (by simp), perform_done]
  rfl

/-- Settles O18: a reserved offset decodes to `Target.reserved`, which is no hazard, reads 0 and stores nothing; the
read-only registers store nothing, and CMD and TICK read 0. -/
theorem reservedOffsetsReadZero : Obligations.ReservedOffsetsReadZero := by
  intro s off rest hl h4
  refine ⟨fun hres => ?_, fun hro v hw => step_of_write_readOnly h4 hro hl hw, ?_⟩
  · have ht : targetOf off = .reserved := targetOf_eq_reserved h4 hres
    have hlt : off < 0x2000000 := by omega
    exact ⟨step_of_read_reserved ht hlt h4 hl, fun v => step_of_write_reserved ht hlt h4 hl⟩
  · rintro (rfl | rfl) hr
    · exact step_of_read_unhazarded (r := .cmd) rfl hl hr
    · exact step_of_read_unhazarded (r := .tick) rfl hl hr

end Sys2Proof.Machine
end

section
/-! PROOFS. The opcode map: which words are commands, and what becomes of the others (spec/30_encoding.md R93, R94). -/

namespace Sys2Proof

/-! ### The masks of R93 in terms of the fields of R90 -/

/-- The mask of R93 for a command with an operand compares OPC alone. -/
theorem and_opcMask_eq_iff (w : Word) (opc : BitVec 8) : w &&& 0x000000FF = (0 : BitVec 24) ++ opc ↔ opcOf w = opc := by
  have hmask : (w &&& 0x000000FF).toNat = (opcOf w).toNat := by
    rw [opcOf_toNat, BitVec.toNat_and]
    exact Nat.and_two_pow_sub_one_eq_mod w.toNat 8
  have hopc : ((0 : BitVec 24) ++ opc).toNat = opc.toNat := by simp [toNat_append_opc]
  rw [← BitVec.toNat_inj, ← BitVec.toNat_inj, hmask, hopc]

/-- The mask of R93 for a command whose ARG is reserved compares OPC, and ARG with 0. -/
theorem and_fullMask_eq_iff (w : Word) (opc : BitVec 8) :
    w &&& 0xFFFFFFFF = (0 : BitVec 24) ++ opc ↔ opcOf w = opc ∧ argOf w = 0 := by
  have hmask : w &&& 0xFFFFFFFF = w := BitVec.and_allOnes
  rw [hmask, word_eq_iff, opcOf_append, argOf_append]

/-- ARG is the word shifted right by 8 (R90). -/
theorem shiftRight_eight_toNat (w : Word) : (w >>> 8).toNat = (argOf w).toNat := by
  rw [argOf_toNat, BitVec.toNat_ushiftRight, Nat.shiftRight_eq_div_pow]

/-- The mask of the TICK row compares bit 0 (R91, R93). -/
theorem and_tickMask_eq_iff (w : Word) : w &&& 0x00000001 = 0x00000001 ↔ w.getLsbD 0 = true := by
  have hmask : (w &&& 0x00000001).toNat = w.toNat % 2 := by
    rw [BitVec.toNat_and]
    exact Nat.and_two_pow_sub_one_eq_mod w.toNat 1
  rw [← BitVec.toNat_inj, hmask, BitVec.getLsbD, Nat.testBit_zero, decide_eq_true_eq]
  rfl

/-- Settles O3: the decoder's answers by OPC and ARG, each field condition read as its row's mask. -/
theorem opcodeMapSelectsTheCommand : Obligations.OpcodeMapSelectsTheCommand := by
  intro w i
  refine ⟨(decodeCmd_eq_ok_iff w i).trans ?_, ?_⟩
  · rw [shiftRight_eight_toNat]
    have full (j : Instr) (opc : BitVec 8) := and_congr_right' (a := i = j) (and_fullMask_eq_iff w opc).symm
    have masked (j : Instr) (opc : BitVec 8) := and_congr_right' (a := i = j) (and_opcMask_eq_iff w opc).symm
    exact or_congr (full _ 0x01) (or_congr (full _ 0x10) (or_congr (full _ 0x11) (or_congr (full _ 0x12)
      (or_congr (masked _ 0x20) (or_congr (masked _ 0x21) (or_congr (masked _ 0x22) (full _ 0x23)))))))
  · exact (decodeTick_eq_ok_iff w i).trans (and_congr_right' (and_tickMask_eq_iff w).symm)

/-! ### The illegal words of R94 -/

/-- A legal command word has an assigned OPC, and ARG 0 unless its OPC is that of a command with an operand. -/
theorem fields_of_decodeCmd_ok {w : Word} {i : Instr} (h : decodeCmd w = .ok i) :
    w.toNat % 256 ∈ [0x01, 0x10, 0x11, 0x12, 0x20, 0x21, 0x22, 0x23] ∧
    (w.toNat % 256 ∈ [0x01, 0x10, 0x11, 0x12, 0x23] → w.toNat / 256 = 0) := by
  rw [← opcOf_toNat, ← argOf_toNat]
  rcases (decodeCmd_eq_ok_iff w i).1 h with
    ⟨-, ho, ha⟩ | ⟨-, ho, ha⟩ | ⟨-, ho, ha⟩ | ⟨-, ho, ha⟩ | ⟨-, ho⟩ | ⟨-, ho⟩ | ⟨-, ho⟩ | ⟨-, ho, ha⟩ <;>
  simp [*]

/-- The decoder rejects a word with an unassigned OPC, and one whose reserved ARG is not 0 (R94). -/
theorem decodeCmd_error_of_illegal {w : Word}
    (h : w.toNat % 256 ∉ [0x01, 0x10, 0x11, 0x12, 0x20, 0x21, 0x22, 0x23] ∨
      (w.toNat % 256 ∈ [0x01, 0x10, 0x11, 0x12, 0x23] ∧ w.toNat / 256 ≠ 0)) : ∃ e, decodeCmd w = .error e := by
  cases hd : decodeCmd w with
  | error e => exact ⟨e, rfl⟩
  | ok i =>
    obtain ⟨hopc, harg⟩ := fields_of_decodeCmd_ok hd
    rcases h with h | ⟨hmem, hne⟩
    · exact absurd hopc h
    · exact absurd (harg hmem) hne

end Sys2Proof

namespace Sys2Proof.Machine

open Sys2Proof

/-- A CMD write while BUSY = 0 is accepted, whatever the word (R242). -/
theorem step_of_write_cmd_idle {s : State} {w : Word} {rest : List Turn} (hb : s.status.busy = false)
    (hl : legalParams s.params = true) (h : WriteNext s 0x020 w rest) :
    step s = .next ({ s with turns := rest }.acceptCmd w) := by
  have hstore : storeTo (.reg .cmd) w { s with turns := rest } = { s with turns := rest }.acceptCmd w :=
    if_neg (by simp [hb])
  rw [step_of_write_reg (r := .cmd) (by decide) hl h, if_neg (by simp [hb]), hstore]

/-- The engine's turn on a pending word that is no command completes it with IllegalCommand (R94, R245). -/
theorem step_of_engine_illegal {s : State} {rest : List Turn} {e : DecodeError} (hb : s.status.busy = true)
    (hd : decodeCmd s.pend = .error e) (hl : legalParams s.params = true) (he : EngineNext s rest) :
    step s = .next ({ s with turns := rest }.raise .illegalCommand) := by
  rw [step_of_engine hl he]
  simp [engineTurn, decode, hb, hd]

/-- A word written to TICK, with a tick or without, changes no STATUS and stops nothing (R91, R94). -/
theorem step_of_write_tick_status {s : State} {w : Word} {rest : List Turn} (hl : legalParams s.params = true)
    (h : WriteNext s 0x028 w rest) : ∃ t, step s = .next t ∧ t.status = s.status := by
  rw [step_of_write_tick hl h]
  split
  · exact ⟨_, rfl, rfl⟩
  · exact ⟨_, rfl, rfl⟩

/-- Settles O6: the CMD write accepts the word undecoded, and the engine's turn, finding no command in it, raises
IllegalCommand. -/
theorem illegalWordsCompleteWithIllegalCommand : Obligations.IllegalWordsCompleteWithIllegalCommand := by
  intro s w rest hl
  refine ⟨fun hb hillegal ht => ?_, step_of_write_tick_status hl⟩
  obtain ⟨e, hd⟩ := decodeCmd_error_of_illegal hillegal
  have haccept := step_of_write_cmd_idle hb hl ht
  refine ⟨⟨_, haccept, rfl⟩, ?_⟩
  rw [runFor_succ_of_next haccept, runFor_one]
  exact step_of_engine_illegal rfl hd hl (.inl rfl)

end Sys2Proof.Machine
end

section
/-! PROOFS. The layout of an encoded frame in WIRE (spec/30_encoding.md R96). -/

namespace Sys2Proof.Machine

open Sys2Proof

/-- A buffer holds a sequence of two parts exactly when it holds the first and, right behind it, the second. -/
theorem Memory.readRange_append_iff (m : Memory) (off : Nat) (xs ys : List Byte) :
    Memory.readRange m off (xs ++ ys).length = some (xs ++ ys) ↔
      Memory.readRange m off xs.length = some xs ∧ Memory.readRange m (off + xs.length) ys.length = some ys := by
  simp only [Memory.readRange_eq_some_iff, true_and, List.length_append]
  constructor
  · intro h
    refine ⟨fun j hj => ?_, fun j hj => ?_⟩
    · rw [h j (by omega), List.getElem?_append_left hj]
    · rw [Nat.add_assoc, h _ (by omega), List.getElem?_append_right (by omega), Nat.add_sub_cancel_left]
  · rintro ⟨hx, hy⟩ j hj
    by_cases hlt : j < xs.length
    · rw [hx j hlt, List.getElem?_append_left hlt]
    · obtain ⟨k, rfl⟩ : ∃ k, j = xs.length + k := ⟨j - xs.length, by omega⟩
      rw [← Nat.add_assoc, hy k (by omega), List.getElem?_append_right (by omega), Nat.add_sub_cancel_left]

/-- ENCODE ends without an error only by writing the frame of the payload it read (R150). -/
theorem exec_codecEncode_ok {s t : State} (h : exec .codecEncode s = .next t) (hok : t.status.err = false) :
    ∃ pay, Memory.readRange s.txp 0 s.tx.len.toNat = some pay ∧
      t.wire = Memory.write s.wire 0 (frameBytes s.tx pay t.res.r0) ∧
      t.wireLen = BitVec.ofNat 32 (70 + s.tx.len.toNat) := by
  rcases exec_codecEncode_cases h with ⟨-, rfl⟩ | ⟨-, pay, hpay, rfl⟩
  · cases hok
  · exact ⟨pay, hpay, rfl, rfl⟩

/-- A buffer that holds a frame from byte 0 on holds each of its fields at the field's offset (R96). -/
theorem readRange_fields_of_frame {m : Memory} {tx : TxRegs} {pay : List Byte} {ck : Word}
    (h : Memory.readRange m 0 (frameBytes tx pay ck).length = some (frameBytes tx pay ck)) :
    Memory.readRange m 0 8 = some headerSentinel ∧
    Memory.readRange m 8 4 = some (wordBytes tx.slot) ∧
    Memory.readRange m 12 32 = some tx.node.bytes ∧
    Memory.readRange m 44 4 = some (wordBytes tx.len) ∧
    Memory.readRange m 48 4 = some (wordBytes tx.fragId) ∧
    Memory.readRange m 52 2 = some (halfBytes tx.total) ∧
    Memory.readRange m 54 2 = some (halfBytes tx.index) ∧
    Memory.readRange m 56 2 = some (halfBytes tx.flags) ∧
    Memory.readRange m 58 pay.length = some pay ∧
    Memory.readRange m (58 + pay.length) 4 = some (wordBytes ck) ∧
    Memory.readRange m (62 + pay.length) 8 = some footerSentinel := by
  have hftr : 62 + pay.length = 58 + pay.length + 4 := by omega
  rw [hftr]
  simp only [frameBytes, Memory.readRange_append_iff, and_assoc] at h
  simpa [← Nat.add_assoc] using h

/-- Settles O43: what ENCODE wrote to WIRE is the frame, which is cut at its fields. -/
theorem encodedFieldsLieAtTheirOffsets : Obligations.EncodedFieldsLieAtTheirOffsets := by
  rintro s t L rfl h hok
  obtain ⟨pay, hpay, hwire, hlen⟩ := exec_codecEncode_ok h hok
  have hframe := Memory.readRange_write s.wire (frameBytes s.tx pay t.res.r0)
  rw [← hwire] at hframe
  rw [hpay, ← Memory.readRange_length hpay]
  exact ⟨by rw [Memory.readRange_length hpay, hlen], readRange_fields_of_frame hframe⟩

end Sys2Proof.Machine
end

section
/-! PROOFS. The clock-to-slot mapper (spec/40_clock.md R120 to R122). -/

namespace Sys2Proof.Machine

open Sys2Proof

/-! ### The slot on exact integers (R121), and how it moves with time (R122) -/

theorem clockSlot_nonneg (now epoch dur : Int) {slots : Int} (hs : 0 < slots) : 0 ≤ clockSlot now epoch dur slots :=
  Int.emod_nonneg _ hs.ne'

theorem clockSlot_lt (now epoch dur : Int) {slots : Int} (hs : 0 < slots) : clockSlot now epoch dur slots < slots :=
  Int.emod_lt_of_pos _ hs

/-- The quotient of the mapper is the one whose time span of length `dur` holds `now`. -/
theorem clockSlot_eq_emod {now epoch dur slots q : Int} (hd : 0 < dur) (hlo : q * dur ≤ now - epoch)
    (hhi : now - epoch < (q + 1) * dur) : clockSlot now epoch dur slots = q % slots := by
  have hle : (now - epoch).fdiv dur ≤ q := by
    rw [Int.fdiv_eq_ediv_of_nonneg _ hd.le]
    exact Int.le_of_lt_add_one ((Int.ediv_lt_iff_lt_mul hd).2 hhi)
  have hge : q ≤ (now - epoch).fdiv dur := by
    rw [Int.fdiv_eq_ediv_of_nonneg _ hd.le]
    exact (Int.le_ediv_iff_mul_le hd).2 hlo
  rw [clockSlot, Int.le_antisymm hle hge]

theorem clockSlot_add_mul (now epoch k slots : Int) {dur : Int} (hd : 0 < dur) :
    clockSlot (now + k * dur) epoch dur slots = (clockSlot now epoch dur slots + k) % slots := by
  have hshift : now + k * dur - epoch = now - epoch + k * dur := by ring
  rw [clockSlot, clockSlot, hshift, Int.add_mul_fdiv_right _ _ hd.ne', Int.emod_add_emod]

theorem clockSlot_add_dur (now epoch : Int) {dur slots : Int} (hd : 0 < dur) (hs : 0 < slots) :
    clockSlot (now + dur) epoch dur slots =
      if clockSlot now epoch dur slots + 1 = slots then 0 else clockSlot now epoch dur slots + 1 := by
  have hnonneg := clockSlot_nonneg now epoch dur hs
  have hlt := clockSlot_lt now epoch dur hs
  have hnext := clockSlot_add_mul now epoch 1 slots hd
  rw [one_mul] at hnext
  rw [hnext]
  split
  case isTrue hlast => rw [hlast, Int.emod_self]
  case isFalse hinner => exact Int.emod_eq_of_lt (by omega) (by omega)

theorem clockSlot_add_period (now epoch : Int) {dur slots : Int} (hd : 0 < dur) :
    clockSlot (now + slots * dur) epoch dur slots = clockSlot now epoch dur slots := by
  rw [clockSlot_add_mul now epoch slots slots hd, Int.add_emod_right, clockSlot, Int.emod_emod]

/-! ### The slot as a word in RES0 -/

/-- The word CLK_COMPUTE leaves in RES0 at time `now`. -/
def ClkRegs.slotWord (c : ClkRegs) (now : Int) : Word :=
  BitVec.ofInt 32 (clockSlot now c.epoch c.dur c.slotCount)

theorem ClkRegs.slotCount_lt (c : ClkRegs) : c.slotCount < 2 ^ 31 := BitVec.toInt_lt

theorem ClkRegs.slotWord_toInt {c : ClkRegs} (hs : 0 < c.slotCount) (now : Int) :
    (c.slotWord now).toInt = clockSlot now c.epoch c.dur c.slotCount := by
  have hnonneg := clockSlot_nonneg now c.epoch c.dur hs
  have hlt := (clockSlot_lt now c.epoch c.dur hs).trans c.slotCount_lt
  exact BitVec.toInt_ofInt_eq_self (by decide) (by omega) hlt

theorem ClkRegs.slotWord_toNat {c : ClkRegs} (hs : 0 < c.slotCount) (now : Int) :
    ((c.slotWord now).toNat : Int) = clockSlot now c.epoch c.dur c.slotCount := by
  have hnonneg := clockSlot_nonneg now c.epoch c.dur hs
  have hlt := (clockSlot_lt now c.epoch c.dur hs).trans c.slotCount_lt
  rw [slotWord, BitVec.toNat_ofInt]
  omega

/-- The word at a time in the `q`-th duration after the epoch (R122: constant for `dur` time units). -/
theorem ClkRegs.slotWord_of_quotient {c : ClkRegs} {now q : Int} (hd : 0 < c.dur) (hlo : q * c.dur ≤ now - c.epoch)
    (hhi : now - c.epoch < (q + 1) * c.dur) : c.slotWord now = BitVec.ofInt 32 (q % c.slotCount) :=
  congrArg (BitVec.ofInt 32) (clockSlot_eq_emod hd hlo hhi)

theorem ClkRegs.slotWord_add_dur {c : ClkRegs} (hd : 0 < c.dur) (hs : 0 < c.slotCount) (now : Int) :
    c.slotWord (now + c.dur) =
      if (c.slotWord now).toInt + 1 = c.slotCount then 0 else c.slotWord now + 1 := by
  rw [slotWord_toInt hs, slotWord, clockSlot_add_dur now c.epoch hd hs]
  split
  case isTrue => rfl
  case isFalse => exact BitVec.ofInt_add _ 1

theorem ClkRegs.slotWord_add_period {c : ClkRegs} (hd : 0 < c.dur) (now : Int) :
    c.slotWord (now + c.slotCount * c.dur) = c.slotWord now :=
  congrArg (BitVec.ofInt 32) (clockSlot_add_period now c.epoch hd)

/-! ### What CLK_COMPUTE answers -/

theorem exec_clkCompute_of_nonpos {s : State} (h : s.clk.dur ≤ 0 ∨ s.clk.slotCount ≤ 0) :
    exec .clkCompute s = .next (failed s 9) := by
  rw [exec, execClkCompute, if_pos h, raise_eq_failed]
  rfl

theorem exec_clkCompute_of_pos {s : State} (hd : 0 < s.clk.dur) (hs : 0 < s.clk.slotCount) :
    exec .clkCompute s = .next (succeeded s (s.clk.slotWord s.now) 0 0 0) := by
  rw [exec, execClkCompute, if_neg (by omega), result_eq_succeeded, ClkRegs.slotWord]

/-- The decoder rejects a CLK_COMPUTE word with ARG not 0 (R94). -/
theorem decodeCmd_clkCompute_of_arg_ne_zero {a : BitVec 24} (ha : a ≠ 0) :
    decodeCmd (a ++ (0x01 : BitVec 8)) = .error .reservedArgument := by
  rw [decodeCmd, opcOf_append, if_pos rfl, withoutArg, argOf_append, if_neg ha]

/-! ### The obligations -/

/-- Settles O37: q is the floor quotient and r the mapper's slot, which RES0 holds without wrapping. -/
theorem clkComputeGivesTheSlot : Obligations.ClkComputeGivesTheSlot := by
  refine ⟨fun a ha => decodeCmd_clkCompute_of_arg_ne_zero ha, ?_⟩
  rintro s now epoch dur slots rfl rfl rfl rfl
  refine ⟨exec_clkCompute_of_nonpos, fun hd hs => ?_⟩
  refine ⟨(s.now - s.clk.epoch).fdiv s.clk.dur, clockSlot s.now s.clk.epoch s.clk.dur s.clk.slotCount, ?_,
    Int.lt_fdiv_add_one_mul_self _ hd, clockSlot_nonneg _ _ _ hs, clockSlot_lt _ _ _ hs, Int.dvd_self_sub_emod,
    s.clk.slotWord s.now, ClkRegs.slotWord_toNat hs s.now, exec_clkCompute_of_pos hd hs⟩
  rw [mul_comm]
  exact Int.mul_fdiv_self_le hd

/-- Settles O38: both results are the slot word of the same clock registers, a function of the time alone. -/
theorem clkComputeIsAPeriodicRamp : Obligations.ClkComputeIsAPeriodicRamp := by
  intro s s' hclk hd hs
  have hexec' : exec .clkCompute s' = .next (succeeded s' (s.clk.slotWord s'.now) 0 0 0) := by
    rw [← hclk] at hd hs ⊢
    exact exec_clkCompute_of_pos hd hs
  refine ⟨_, _, exec_clkCompute_of_pos hd hs, hexec', fun hnow => by rw [hnow], fun q hlo hhi hlo' hhi' => ?_,
    fun hnow => ?_, fun hnow => ?_⟩
  · rw [ClkRegs.slotWord_of_quotient hd hlo hhi, ClkRegs.slotWord_of_quotient hd hlo' hhi']
  · rw [hnow, ClkRegs.slotWord_add_dur hd hs]
  · rw [hnow, ClkRegs.slotWord_add_period hd]

end Sys2Proof.Machine
end

section
/-! PROOFS. The reference checksum function (spec/41_codec.md R141). -/

namespace Sys2Proof.Machine

open Sys2Proof

/-- One round of CK_REF in the words of R141, the rotate and the zero extension written out. -/
theorem ckStep_eq (c : Word) (b : Byte) : ckStep c b = ((c <<< 1) ||| (c >>> 31)) ^^^ (0 : BitVec 24) ++ b := by
  have hrot : c.rotateLeft 1 = (c <<< 1) ||| (c >>> 31) := rfl
  have hext : b.setWidth 32 = (0 : BitVec 24) ++ b := BitVec.setWidth_eq_append (by decide)
  rw [ckStep, hrot, hext]

@[simp] theorem ckRef_nil : ckRef [] = 0 := rfl

theorem ckRef_append_singleton (bs : List Byte) (b : Byte) : ckRef (bs ++ [b]) = ckStep (ckRef bs) b :=
  List.foldl_concat ..

/-- Settles O40: CK_REF is a fold, whose last round is the rotate and the exclusive or. -/
theorem ckRefIsTheRollingXor : Obligations.CkRefIsTheRollingXor := by
  refine ⟨ckRef_nil, fun bs b => ?_, by decide, by decide⟩
  rw [ckRef_append_singleton, ckStep_eq]

end Sys2Proof.Machine
end

section
/-! PROOFS. The rules of the codec commands: the answer of each in each of the cases of its rule
(spec/41_codec.md R150, R160, R170), in the order in which the rule takes them. -/

namespace Sys2Proof.Machine

open Sys2Proof

/-! ### MemRead from byte 0 -/

theorem Memory.readRange_zero_eq_some {m : Memory} {n : Nat} {bs : List Byte} (hlen : bs.length = n)
    (h : ∀ j, j < n → Memory.read? m j = bs[j]?) : Memory.readRange m 0 n = some bs :=
  (Memory.readRange_eq_some_iff m 0 n bs).2 ⟨hlen, by simpa using h⟩

theorem Memory.readRange_zero_eq_none {m : Memory} {n : Nat} (h : ∃ j, j < n ∧ Memory.read? m j = none) :
    Memory.readRange m 0 n = none :=
  (Memory.readRange_eq_none_iff m 0 n).2 (by simpa using h)

theorem Memory.read?_of_readRange_zero {m : Memory} {n j : Nat} {bs : List Byte}
    (h : Memory.readRange m 0 n = some bs) (hj : j < n) : Memory.read? m j = bs[j]? := by
  simpa using ((Memory.readRange_eq_some_iff m 0 n bs).1 h).2 j hj

/-! ### The words with a reserved ARG (R94) -/

/-- The decoder rejects the OPC of a command without an operand when ARG is not 0. -/
theorem decode_of_reserved_arg_ne_zero {a : BitVec 24} (ha : a ≠ 0) {opc : BitVec 8}
    (hopc : opc ∈ [0x01, 0x10, 0x11, 0x12, 0x23]) :
    decode .cmd (a ++ opc) = .error .reservedArgument := by
  simp only [decode, decodeCmd, withoutArg, opcOf_append, argOf_append, if_neg ha]
  simp only [List.mem_cons, List.not_mem_nil, or_false] at hopc
  rcases hopc with rfl | rfl | rfl | rfl | rfl <;> rfl

/-! ### CODEC_ENCODE (R150) -/

theorem exec_codecEncode_of_tooLong {s : State} (h : s.params.maxPayload < s.tx.len.toNat) :
    exec .codecEncode s = .next (failed s 4) := by
  rw [exec, execCodecEncode, if_pos h]
  rfl

theorem exec_codecEncode_of_unwritten {s : State} (hle : s.tx.len.toNat ≤ s.params.maxPayload)
    (hpay : Memory.readRange s.txp 0 s.tx.len.toNat = none) : exec .codecEncode s = .fault .uninitRead := by
  rw [exec, execCodecEncode, if_neg hle.not_gt, hpay]

theorem exec_codecEncode_of_payload {s : State} {pay : List Byte} (hle : s.tx.len.toNat ≤ s.params.maxPayload)
    (hpay : Memory.readRange s.txp 0 s.tx.len.toNat = some pay) :
    exec .codecEncode s = .next (succeeded
      { s with wire := Memory.write s.wire 0 (frameBytes s.tx pay (txChecksum s pay))
               wireLen := BitVec.ofNat 32 (70 + s.tx.len.toNat) }
      (txChecksum s pay) (BitVec.ofNat 32 (70 + s.tx.len.toNat)) 0 0) := by
  rw [exec, execCodecEncode, if_neg hle.not_gt, hpay]
  rfl

/-! ### CODEC_DECODE (R160) -/

theorem exec_codecDecode_of_tooShort {s : State} (h : s.wireLen.toNat < 70) :
    exec .codecDecode s = .next (failed s 5) := by
  rw [exec, execCodecDecode, if_pos h]
  rfl

theorem exec_codecDecode_of_tooLong {s : State} (hmin : 70 ≤ s.wireLen.toNat)
    (h : s.params.maxPayload + 70 < s.wireLen.toNat) : exec .codecDecode s = .next (failed s 4) := by
  rw [exec, execCodecDecode, if_neg hmin.not_gt, if_pos h]
  rfl

section
variable {s : State} (hmin : 70 ≤ s.wireLen.toNat) (hmax : s.wireLen.toNat ≤ s.params.maxPayload + 70)
include hmin hmax

theorem exec_codecDecode_of_unwritten_length (hlen : Memory.readRange s.wire 44 4 = none) :
    exec .codecDecode s = .fault .uninitRead := by
  rw [exec, execCodecDecode, if_neg hmin.not_gt, if_neg hmax.not_gt, hlen]

variable {lenBytes : List Byte} (hlen : Memory.readRange s.wire 44 4 = some lenBytes)
include hlen

theorem exec_codecDecode_of_length_mismatch (hne : s.wireLen.toNat - 58 ≠ beNat lenBytes + 12) :
    exec .codecDecode s = .next (failed s 4) := by
  simp only [exec, execCodecDecode, if_neg hmin.not_gt, if_neg hmax.not_gt, hlen, if_pos hne]
  rfl

variable (heq : s.wireLen.toNat - 58 = beNat lenBytes + 12)
include heq

theorem exec_codecDecode_of_unwritten_frame (hw : Memory.readRange s.wire 0 s.wireLen.toNat = none) :
    exec .codecDecode s = .fault .uninitRead := by
  simp only [exec, execCodecDecode, if_neg hmin.not_gt, if_neg hmax.not_gt, hlen, if_neg (not_not.2 heq), hw]

theorem exec_codecDecode_of_frame {w : List Byte} (hw : Memory.readRange s.wire 0 s.wireLen.toNat = some w) :
    exec .codecDecode s = .next (succeeded
      { s with rx := RxRegs.ofFrame w (beNat lenBytes)
               rxp := Memory.write s.rxp 0 (slice w 58 (beNat lenBytes)) }
      (BitVec.ofNat 32 (beNat lenBytes)) (BitVec.ofNat 32 (trimmedLen (slice w 12 32))) 0 0) := by
  simp only [exec, execCodecDecode, if_neg hmin.not_gt, if_neg hmax.not_gt, hlen, if_neg (not_not.2 heq), hw]
  rfl

end

/-! ### CODEC_VALIDATE (R170) -/

/-- The checksum VALIDATE recomputes once the header is known to be the sentinel. -/
theorem rxChecksum_of_header {s : State} (hh : s.rx.header = headerSentinel) (pay : List Byte) :
    rxChecksum s pay = checksumFn s.params.checksum
      (cover headerSentinel s.rx.slot s.rx.total s.rx.index s.rx.flags pay) := by
  rw [rxChecksum, hh]

theorem exec_codecValidate_of_header_ne {s : State} (hh : s.rx.header ≠ headerSentinel) :
    exec .codecValidate s = .next (failed s 1) := by
  rw [exec, execCodecValidate, if_pos hh]
  rfl

section
variable {s : State} (hh : s.rx.header = headerSentinel)
include hh

theorem exec_codecValidate_of_footer_ne (hf : s.rx.footer ≠ footerSentinel) :
    exec .codecValidate s = .next (failed s 2) := by
  rw [exec, execCodecValidate, if_neg (not_not.2 hh), if_pos hf]
  rfl

variable (hf : s.rx.footer = footerSentinel)
include hf

theorem exec_codecValidate_of_unwritten (hpay : Memory.readRange s.rxp 0 s.rx.len.toNat = none) :
    exec .codecValidate s = .fault .uninitRead := by
  rw [exec, execCodecValidate, if_neg (not_not.2 hh), if_neg (not_not.2 hf), hpay]

variable {pay : List Byte} (hpay : Memory.readRange s.rxp 0 s.rx.len.toNat = some pay)
include hpay

theorem exec_codecValidate_of_checksum_ne (hck : rxChecksum s pay ≠ s.rx.cksum) :
    exec .codecValidate s = .next (failed s 3) := by
  simp only [exec, execCodecValidate, if_neg (not_not.2 hh), if_neg (not_not.2 hf), hpay, if_pos hck]
  rfl

/-- The length check, the last, cannot fail: MemRead answers RX_LEN bytes (R171). -/
theorem exec_codecValidate_of_checksum_eq (hck : rxChecksum s pay = s.rx.cksum) :
    exec .codecValidate s = .next (succeeded s (rxChecksum s pay) 0 0 0) := by
  have hlen : s.rx.len.toNat = pay.length := (Memory.readRange_length hpay).symm
  simp only [exec, execCodecValidate, if_neg (not_not.2 hh), if_neg (not_not.2 hf), hpay, if_neg (not_not.2 hck),
    if_neg (not_not.2 hlen)]
  rfl

end

end Sys2Proof.Machine
end

section
/-! PROOFS. CODEC_ENCODE and CODEC_VALIDATE, whole (spec/41_codec.md R150, R170 to R172). -/

namespace Sys2Proof.Machine

open Sys2Proof

/-- Settles O42: the payload is read, and the frame written, by MemRead and MemWrite at byte 0. -/
theorem encodeWritesTheFrame : Obligations.EncodeWritesTheFrame := by
  refine ⟨fun _ ha => decode_of_reserved_arg_ne_zero ha (by decide), ?_⟩
  rintro s L rfl
  refine ⟨exec_codecEncode_of_tooLong,
    fun hle hno => exec_codecEncode_of_unwritten hle (Memory.readRange_zero_eq_none hno), ?_⟩
  rintro pay ck hle hlen hread hck
  have hck : ck = txChecksum s pay := hck
  have hexec := exec_codecEncode_of_payload hle (Memory.readRange_zero_eq_some hlen hread)
  rw [← hck] at hexec
  have hframe : (frameBytes s.tx pay ck).length = 70 + s.tx.len.toNat := by rw [frameBytes_length, hlen]
  refine ⟨_, hexec, fun j hj => ?_, fun j hj => ?_⟩
  · rw [Memory.read?_write, if_neg (by omega)]
  · rw [Memory.read?_write, if_pos (by omega), BitVec.ofNat_toNat, BitVec.setWidth_eq]
    rfl

/-- Settles O45: the sentinels are compared as registers, and the payload is what MemRead answers. -/
theorem validateChecksTheFrame : Obligations.ValidateChecksTheFrame := by
  refine ⟨fun _ ha => decode_of_reserved_arg_ne_zero ha (by decide), fun s => ?_⟩
  rw [← RxRegs.header_eq_iff, ← RxRegs.footer_eq_iff]
  refine ⟨exec_codecValidate_of_header_ne, exec_codecValidate_of_footer_ne, fun hh hf => ⟨fun hno =>
    exec_codecValidate_of_unwritten hh hf (Memory.readRange_zero_eq_none hno), fun pay ck hlen hread hck => ?_⟩⟩
  have hpay := Memory.readRange_zero_eq_some hlen hread
  have hck : ck = rxChecksum s pay := hck.trans (rxChecksum_of_header hh pay).symm
  rw [hck]
  exact ⟨exec_codecValidate_of_checksum_ne hh hf hpay, exec_codecValidate_of_checksum_eq hh hf hpay⟩

/-- Settles O46: each answer VALIDATE can give has its own code, none of them 4, and only the last has ERR clear. -/
theorem validateSucceedsExactlyOnWellFormedFrames : Obligations.ValidateSucceedsExactlyOnWellFormedFrames := by
  intro s t h
  rw [← RxRegs.header_eq_iff, ← RxRegs.footer_eq_iff]
  rcases exec_codecValidate_cases h with ⟨hh, rfl⟩ | ⟨-, hf, rfl⟩ | ⟨hh, hf, pay, hpay, hend⟩
  · exact ⟨by simp [ErrorKind.code], iff_of_false (by simp) fun hwf => hh hwf.1⟩
  · exact ⟨by simp [ErrorKind.code], iff_of_false (by simp) fun hwf => hf hwf.2.1⟩
  · have hck := rxChecksum_of_header hh
    rcases hend with ⟨hne, rfl⟩ | ⟨heq, rfl⟩
    · refine ⟨by simp [ErrorKind.code], iff_of_false (by simp) ?_⟩
      rintro ⟨-, -, pay', hlen, hread, hck'⟩
      rw [Memory.readRange_zero_eq_some hlen hread, Option.some_inj] at hpay
      subst hpay
      exact hne ((hck pay').trans hck')
    · exact ⟨by simp, iff_of_true rfl ⟨hh, hf, pay, Memory.readRange_length hpay,
        fun _ => Memory.read?_of_readRange_zero hpay, (hck pay).symm.trans heq⟩⟩

end Sys2Proof.Machine
end

section
/-! PROOFS. CODEC_DECODE, whole: the fields of a frame known byte by byte (spec/41_codec.md R160, R162). -/

namespace Sys2Proof.Machine

open Sys2Proof

theorem slice_slice (bs : List Byte) {a m k n : Nat} (h : k + n ≤ m) :
    slice (slice bs a m) k n = slice bs (a + k) n := by
  simp only [slice, List.drop_take, List.take_take, List.drop_drop]
  rw [Nat.min_eq_left (by omega)]

/-- The identifier cut from a frame is loaded from the frame's own words. -/
theorem Ident.ofBytes_slice (w : List Byte) (k : Nat) :
    Ident.ofBytes (slice w k 32) =
      { w0 := beWord (slice w k 4), w1 := beWord (slice w (k + 4) 4), w2 := beWord (slice w (k + 8) 4)
        w3 := beWord (slice w (k + 12) 4), w4 := beWord (slice w (k + 16) 4), w5 := beWord (slice w (k + 20) 4)
        w6 := beWord (slice w (k + 24) 4), w7 := beWord (slice w (k + 28) 4) } := by
  simp [Ident.ofBytes, slice_slice]

/-- The first `n` of the bytes `b 0`, `b 1`, … -/
def firstBytes (b : Nat → Byte) (n : Nat) : List Byte := (List.range n).map b

@[simp] theorem firstBytes_length (b : Nat → Byte) (n : Nat) : (firstBytes b n).length = n := by
  simp [firstBytes]

theorem firstBytes_getElem? (b : Nat → Byte) {n j : Nat} (h : j < n) : (firstBytes b n)[j]? = some (b j) := by
  simp [firstBytes, h]

section
variable (b : Nat → Byte) {n k : Nat}

theorem beWord_slice_firstBytes (h : k + 4 ≤ n) :
    beWord (slice (firstBytes b n) k 4) = b k ++ b (k + 1) ++ b (k + 2) ++ b (k + 3) := by
  rw [slice_four (b := b) (fun j hj => firstBytes_getElem? b (by simpa using hj)) (by simpa using h), beWord_four]

theorem beHalf_slice_firstBytes (h : k + 2 ≤ n) : beHalf (slice (firstBytes b n) k 2) = b k ++ b (k + 1) := by
  rw [slice_two (b := b) (fun j hj => firstBytes_getElem? b (by simpa using hj)) (by simpa using h), beHalf_two]

theorem slice_firstBytes_getElem? {m j : Nat} (h : k + m ≤ n) (hj : j < m) :
    (slice (firstBytes b n) k m)[j]? = some (b (k + j)) := by
  rw [slice_getElem? _ _ _ _ hj, firstBytes_getElem? b (by omega)]

end

/-- The RX registers of a frame known byte by byte (R160). -/
theorem RxRegs.ofFrame_firstBytes (b : Nat → Byte) (L : Nat) :
    RxRegs.ofFrame (firstBytes b (70 + L)) L =
      { hdr0 := b 0 ++ b 1 ++ b 2 ++ b 3, hdr1 := b 4 ++ b 5 ++ b 6 ++ b 7
        slot := b 8 ++ b 9 ++ b 10 ++ b 11
        node := {
          w0 := b 12 ++ b 13 ++ b 14 ++ b 15, w1 := b 16 ++ b 17 ++ b 18 ++ b 19
          w2 := b 20 ++ b 21 ++ b 22 ++ b 23, w3 := b 24 ++ b 25 ++ b 26 ++ b 27
          w4 := b 28 ++ b 29 ++ b 30 ++ b 31, w5 := b 32 ++ b 33 ++ b 34 ++ b 35
          w6 := b 36 ++ b 37 ++ b 38 ++ b 39, w7 := b 40 ++ b 41 ++ b 42 ++ b 43 }
        len := BitVec.ofNat 32 L
        fragId := b 48 ++ b 49 ++ b 50 ++ b 51
        total := b 52 ++ b 53, index := b 54 ++ b 55, flags := b 56 ++ b 57
        cksum := b (58 + L) ++ b (59 + L) ++ b (60 + L) ++ b (61 + L)
        ftr0 := b (62 + L) ++ b (63 + L) ++ b (64 + L) ++ b (65 + L)
        ftr1 := b (66 + L) ++ b (67 + L) ++ b (68 + L) ++ b (69 + L)
        nodeLen := BitVec.ofNat 32 (trimmedLen (slice (firstBytes b (70 + L)) 12 32)) } := by
  have word (k : Nat) (hk : k + 4 ≤ 70 + L) := beWord_slice_firstBytes b hk
  have half (k : Nat) (hk : k + 2 ≤ 70 + L) := beHalf_slice_firstBytes b hk
  simp (disch := omega) only [RxRegs.ofFrame, Ident.ofBytes_slice, word, half, Nat.add_right_comm _ L, Nat.reduceAdd]

/-- The trimmed length of the identifier field of a frame known byte by byte (R36, R162). -/
theorem trimmedLen_firstBytes (b : Nat → Byte) {n k : Nat} (h : 44 ≤ n)
    (hk : k = trimmedLen (slice (firstBytes b n) 12 32)) :
    k ≤ 32 ∧ (∀ j, k ≤ j → j < 32 → b (12 + j) = 0) ∧ (0 < k → b (12 + (k - 1)) ≠ 0) := by
  have hbyte : ∀ j, j < 32 → (slice (firstBytes b n) 12 32)[j]? = some (b (12 + j)) := fun j hj =>
    slice_firstBytes_getElem? b (by omega) hj
  subst hk
  obtain ⟨hle, hzero, hlast⟩ := trimmedLen_spec (bs := slice (firstBytes b n) 12 32) (by simp; omega)
  refine ⟨hle, fun j hj hj' => ?_, fun hpos => ?_⟩
  · simpa [hbyte j hj'] using hzero j hj hj'
  · simpa [hbyte _ (Nat.sub_one_lt_of_le hpos hle)] using hlast hpos

/-- Settles O44: the frame MemRead answers is `b 0`, `b 1`, …, so that each field is the bytes at its offset. -/
theorem decodeParsesTheFrame : Obligations.DecodeParsesTheFrame := by
  refine ⟨fun _ ha => decode_of_reserved_arg_ne_zero ha (by decide), ?_⟩
  rintro s C rfl
  refine ⟨exec_codecDecode_of_tooShort, exec_codecDecode_of_tooLong, fun hmin hmax hno =>
    exec_codecDecode_of_unwritten_length hmin hmax ((Memory.readRange_eq_none_iff _ _ _).2 hno), ?_⟩
  intro b hmin hmax hbytes
  have hlen : Memory.readRange s.wire 44 4 = some [b 44, b 45, b 46, b 47] := by
    refine (Memory.readRange_eq_some_iff _ _ _ _).2 ⟨rfl, fun j hj => ?_⟩
    rw [hbytes j hj]
    match j, hj with
    | 0, _ | 1, _ | 2, _ | 3, _ => rfl
  have hL : (b 44 ++ b 45 ++ b 46 ++ b 47).toNat = beNat [b 44, b 45, b 46, b 47] := by
    rw [← beWord_four, beWord_four_toNat, beNat_four]
  rw [hL]
  refine ⟨exec_codecDecode_of_length_mismatch hmin hmax hlen, fun heq hno =>
    exec_codecDecode_of_unwritten_frame hmin hmax hlen heq (Memory.readRange_zero_eq_none hno), fun heq hread => ?_⟩
  have hw := Memory.readRange_zero_eq_some (firstBytes_length b s.wireLen.toNat) fun j hj =>
    (hread j hj).trans (firstBytes_getElem? b hj).symm
  have hexec := exec_codecDecode_of_frame hmin hmax hlen heq hw
  generalize beNat [b 44, b 45, b 46, b 47] = L at heq hexec ⊢
  have hC : s.wireLen.toNat = 70 + L := by omega
  rw [hC, RxRegs.ofFrame_firstBytes] at hexec
  obtain ⟨hle, hzero, hlast⟩ := trimmedLen_firstBytes b (n := 70 + L) (by omega) rfl
  refine ⟨L, _, _, rfl, hle, hzero, hlast, fun j hj => ?_, fun j hj => ?_, hexec⟩
  · rw [Memory.read?_write, if_pos (by simp; omega), Nat.sub_zero, slice_firstBytes_getElem? b (by omega) hj]
  · rw [Memory.read?_write, if_neg (by simp; omega)]

end Sys2Proof.Machine
end

section
/-! PROOFS. The round trip of a frame through ENCODE, DECODE and VALIDATE (spec/41_codec.md R152). -/

namespace Sys2Proof.Machine

open Sys2Proof

/-- A part of a buffer's contents, read on its own, is the slice. -/
theorem slice_eq_of_readRange {m : Memory} {w bs : List Byte} {k n : Nat}
    (hw : Memory.readRange m 0 w.length = some w) (hk : k + n ≤ w.length)
    (hbs : Memory.readRange m k n = some bs) : slice w k n = bs := by
  have hslice : Memory.readRange m k n = some (slice w k n) := by
    refine (Memory.readRange_eq_some_iff _ _ _ _).2 ⟨by simp; omega, fun j hj => ?_⟩
    rw [slice_getElem? _ _ _ _ hj, Memory.read?_of_readRange_zero hw (by omega)]
  exact Option.some_inj.1 (hslice.symm.trans hbs)

/-- The sentinel registers of a decoded frame are its bytes there (R160). -/
theorem RxRegs.header_ofFrame {w : List Byte} (L : Nat) (h : 8 ≤ w.length) :
    (RxRegs.ofFrame w L).header = slice w 0 8 := by
  simp only [RxRegs.header, RxRegs.ofFrame]
  rw [wordBytes_beWord_of_length (by simp; omega), wordBytes_beWord_of_length (by simp; omega)]
  exact slice_append_slice w 0 4 4

theorem RxRegs.footer_ofFrame {w : List Byte} (L : Nat) (h : 70 + L ≤ w.length) :
    (RxRegs.ofFrame w L).footer = slice w (62 + L) 8 := by
  have hsecond : 66 + L = 62 + L + 4 := by omega
  simp only [RxRegs.footer, RxRegs.ofFrame, hsecond]
  rw [wordBytes_beWord_of_length (by simp; omega), wordBytes_beWord_of_length (by simp; omega)]
  exact slice_append_slice w (62 + L) 4 4

/-- The RX frame `rx` holds the TX frame `tx` with the checksum `ck`, between the sentinels. -/
structure RxRegs.Matches (rx : RxRegs) (tx : TxRegs) (ck : Word) : Prop where
  slot   : rx.slot = tx.slot
  node   : rx.node = tx.node
  len    : rx.len = tx.len
  fragId : rx.fragId = tx.fragId
  total  : rx.total = tx.total
  index  : rx.index = tx.index
  flags  : rx.flags = tx.flags
  cksum  : rx.cksum = ck
  header : rx.header = headerSentinel
  footer : rx.footer = footerSentinel

/-- Parsing inverts serialisation: the RX registers of an encoded frame hold the TX frame. -/
theorem RxRegs.ofFrame_frameBytes_matches {tx : TxRegs} {pay : List Byte} (ck : Word)
    (hlen : pay.length = tx.len.toNat) : (RxRegs.ofFrame (frameBytes tx pay ck) pay.length).Matches tx ck := by
  have hf := Memory.readRange_write [] (frameBytes tx pay ck)
  have cut {k n : Nat} {bs : List Byte} (hbs : Memory.readRange _ k n = some bs) (hk : k + n ≤ 70 + pay.length) :=
    slice_eq_of_readRange hf (by simpa using hk) hbs
  obtain ⟨hhdr, hslot, hnode, -, hfrag, htotal, hindex, hflags, -, hck, hftr⟩ := readRange_fields_of_frame hf
  exact {
    slot := by simp [RxRegs.ofFrame, cut hslot (by omega)]
    node := by simp [RxRegs.ofFrame, cut hnode (by omega)]
    len := by simp [RxRegs.ofFrame, hlen]
    fragId := by simp [RxRegs.ofFrame, cut hfrag (by omega)]
    total := by simp [RxRegs.ofFrame, cut htotal (by omega)]
    index := by simp [RxRegs.ofFrame, cut hindex (by omega)]
    flags := by simp [RxRegs.ofFrame, cut hflags (by omega)]
    cksum := by simp [RxRegs.ofFrame, cut hck (by omega)]
    header := by rw [RxRegs.header_ofFrame _ (by simp; omega), cut hhdr (by omega)]
    footer := by rw [RxRegs.footer_ofFrame _ (by simp), cut hftr (by omega)] }

/-- DECODE of a WIRE that holds an encoded frame loads its fields and its payload. -/
theorem exec_codecDecode_of_frameBytes {d : State} {tx : TxRegs} {pay : List Byte} {ck : Word}
    (hlen : pay.length = tx.len.toNat) (hmax : pay.length ≤ d.params.maxPayload)
    (hwl : d.wireLen.toNat = 70 + pay.length)
    (hw : Memory.readRange d.wire 0 (frameBytes tx pay ck).length = some (frameBytes tx pay ck)) :
    ∃ u, exec .codecDecode d = .next u ∧ u.status.err = false ∧
      u.rx = RxRegs.ofFrame (frameBytes tx pay ck) pay.length ∧ u.rxp = Memory.write d.rxp 0 pay := by
  obtain ⟨-, -, -, hlenBytes, -, -, -, -, hpay, -⟩ := readRange_fields_of_frame hw
  have hL : beNat (wordBytes tx.len) = pay.length := by rw [beNat_wordBytes, hlen]
  have hslice := slice_eq_of_readRange hw (by simp) hpay
  rw [frameBytes_length, ← hwl] at hw
  have hexec := exec_codecDecode_of_frame (by omega) (by omega) hlenBytes (by omega) hw
  rw [hL, hslice] at hexec
  exact ⟨_, hexec, rfl, rfl, rfl⟩

/-- An ENCODE that succeeds had a payload that fits, and answers its checksum (R150). -/
theorem exec_codecEncode_ok_checksum {s t : State} {pay : List Byte} (h : exec .codecEncode s = .next t)
    (hok : t.status.err = false) (hpay : Memory.readRange s.txp 0 s.tx.len.toNat = some pay) :
    s.tx.len.toNat ≤ s.params.maxPayload ∧ t.res.r0 = txChecksum s pay := by
  rcases exec_codecEncode_cases h with ⟨-, rfl⟩ | ⟨hmax, pay', hpay', rfl⟩
  · cases hok
  · rw [hpay', Option.some_inj] at hpay
    subst hpay
    exact ⟨hmax, rfl⟩

/-- VALIDATE of an RX frame that matches a TX frame succeeds if the stored checksum is the one ENCODE computes. -/
theorem exec_codecValidate_of_matches {s e : State} {pay : List Byte} (hp : e.params = s.params)
    (hm : e.rx.Matches s.tx (txChecksum s pay)) (hpay : Memory.readRange e.rxp 0 e.rx.len.toNat = some pay) :
    exec .codecValidate e = .next (succeeded e (txChecksum s pay) 0 0 0) := by
  have hck : rxChecksum e pay = txChecksum s pay := by
    rw [rxChecksum_of_header hm.header, txChecksum, hp, hm.slot, hm.total, hm.index, hm.flags]
  rw [← hck]
  exact exec_codecValidate_of_checksum_eq hm.header hm.footer hpay (hck.trans hm.cksum.symm)

/-- The range of MAX_PAYLOAD in a legal instance (R6). -/
theorem legalParams_maxPayload_le {p : Params} (hl : legalParams p = true) : p.maxPayload ≤ 1048506 := by
  simp only [legalParams, decide_eq_true_eq] at hl
  omega

/-- Settles O49: WIRE still holds the frame ENCODE wrote; DECODE parses it back into the TX frame, and that is what
VALIDATE accepts. -/
theorem encodeDecodeValidateRoundTrip : Obligations.EncodeDecodeValidateRoundTrip := by
  intro s t d hlegal h hok hwire hwireLen hparams
  obtain ⟨pay, hpay, hwrite, hwriteLen⟩ := exec_codecEncode_ok h hok
  obtain ⟨hmax, hck⟩ := exec_codecEncode_ok_checksum h hok hpay
  have hlen := Memory.readRange_length hpay
  have hbound := legalParams_maxPayload_le hlegal
  have hwl : d.wireLen.toNat = 70 + pay.length := by
    rw [hwireLen, hwriteLen, BitVec.toNat_ofNat, hlen]
    omega
  rw [hck] at hwrite ⊢
  have hframe := Memory.readRange_write s.wire (frameBytes s.tx pay (txChecksum s pay))
  rw [← hwrite, ← hwire] at hframe
  obtain ⟨u, hdec, herr, hrx, hrxp⟩ := exec_codecDecode_of_frameBytes hlen (by rw [hparams]; omega) hwl hframe
  have hm : u.rx.Matches s.tx (txChecksum s pay) := hrx ▸ RxRegs.ofFrame_frameBytes_matches _ hlen
  have hread : Memory.readRange u.rxp 0 s.tx.len.toNat = some pay := by
    rw [hrxp, ← hlen, Memory.readRange_write]
  obtain ⟨hhdr0, hhdr1⟩ := u.rx.header_eq_iff.1 hm.header
  obtain ⟨hftr0, hftr1⟩ := u.rx.footer_eq_iff.1 hm.footer
  refine ⟨u, hdec, herr, hm.slot, hm.node, hm.len, hm.fragId, hm.total, hm.index, hm.flags, fun j hj => ?_,
    hhdr0, hhdr1, hftr0, hftr1, hm.cksum, fun e herx herxp heparams => ?_⟩
  · rw [Memory.read?_of_readRange_zero hread hj, Memory.read?_of_readRange_zero hpay hj]
  · rw [← herx] at hm
    exact ⟨_, exec_codecValidate_of_matches heparams hm (by rw [hm.len, herxp, hread]), rfl, rfl⟩

end Sys2Proof.Machine
end

section
/-! PROOFS. The scheduler commands without a search, and TICK (spec/42_scheduler.md R215, R220, R225, R230). -/

namespace Sys2Proof.Machine

open Sys2Proof

/-! ### The words of the scheduler commands with an operand (R93) -/

theorem decode_schedAllocate (a : BitVec 24) :
    decode .cmd (a ++ (0x20 : BitVec 8)) = .ok (.schedAllocate a.toNat) :=
  (decodeCmd_eq_ok_iff _ _).2 (by simp)

theorem decode_schedAllocConsec (a : BitVec 24) :
    decode .cmd (a ++ (0x21 : BitVec 8)) = .ok (.schedAllocConsec a.toNat) :=
  (decodeCmd_eq_ok_iff _ _).2 (by simp)

theorem decode_schedRelease (a : BitVec 24) :
    decode .cmd (a ++ (0x22 : BitVec 8)) = .ok (.schedRelease a.toNat) :=
  (decodeCmd_eq_ok_iff _ _).2 (by simp)

/-! ### SCHED_SNAPSHOT (R220, R225) -/

/-- The buffer SCHED_SNAPSHOT leaves holds entry i, whole, at byte 64·i. -/
theorem readRange_snapshot_entry (m : Memory) {t : Table} {i : Nat} {r : SlotRecord} (h : t[i]? = some r) :
    Memory.readRange (Memory.write m 0 (snapshotBytes t)) (64 * i) r.entry.length = some r.entry := by
  have hi : i < t.length := (List.getElem?_eq_some_iff.1 h).1
  have hread := Memory.readRange_write_slice m 0 (snapshotBytes t) (64 * i) 64 (by rw [snapshotBytes_length]; omega)
  have hentry : slice (snapshotBytes t) (64 * i) 64 = r.entry := by
    rw [← Nat.add_zero (64 * i), snapshotBytes_slice h 0 64 (by omega)]
    simp [slice]
  rwa [Nat.zero_add, hentry] at hread

/-- A buffer that holds an entry at byte `off` holds each of its sixteen words at the word's place (R220). -/
theorem readRange_words_of_entry {m : Memory} {off : Nat} {r : SlotRecord}
    (h : Memory.readRange m off r.entry.length = some r.entry) :
    Memory.readRange m off 4 = some (wordBytes r.status.word) ∧
    (∀ j : Fin 8, Memory.readRange m (off + 4 + 4 * j.val) 4 = some (wordBytes (r.owner.word j))) ∧
    Memory.readRange m (off + 36) 4 = some (wordBytes (r.assignedAt.extractLsb' 0 32)) ∧
    Memory.readRange m (off + 40) 4 = some (wordBytes (r.assignedAt.extractLsb' 32 32)) ∧
    Memory.readRange m (off + 44) 4 = some (wordBytes r.carriedFragmentId) ∧
    Memory.readRange m (off + 48) 16 = some (List.replicate 16 0) := by
  simp only [SlotRecord.entry, Ident.bytes, Memory.readRange_append_iff] at h
  simp only [List.length_append, List.length_replicate, wordBytes_length, Nat.reduceAdd] at h
  obtain ⟨⟨⟨⟨⟨hstatus, ⟨⟨⟨⟨⟨⟨h0, h1⟩, h2⟩, h3⟩, h4⟩, h5⟩, h6⟩, h7⟩, hlo⟩, hhi⟩, hfrag⟩, hpad⟩ := h
  refine ⟨hstatus, fun j => ?_, hlo, hhi, hfrag, hpad⟩
  match j with
  | 0 => exact h0
  | 1 => exact h1
  | 2 => exact h2
  | 3 => exact h3
  | 4 => exact h4
  | 5 => exact h5
  | 6 => exact h6
  | 7 => exact h7

theorem SlotStatus.word_eq_ite (st : SlotStatus) : st.word = if st = .assigned then 1 else 0 := by
  cases st <;> rfl

/-! ### The obligations -/

/-- Settles O53: the operand the two words decode to is dropped by the meaning. -/
theorem priorityHasNoEffect : Obligations.PriorityHasNoEffect :=
  fun _ a a' => ⟨_, _, decode_schedAllocate a, decode_schedAllocate a', rfl⟩

/-- Settles O56: the one test of the meaning is the range of the id. -/
theorem releaseFreesTheSlot : Obligations.ReleaseFreesTheSlot := by
  refine ⟨decode_schedRelease, fun s slotId => ⟨fun hge => ?_, fun hlt => ?_⟩⟩
  · rw [exec, execSchedRelease, if_pos hge]
    rfl
  · rw [exec, execSchedRelease, if_neg hlt.not_ge]
    rfl

/-- Settles O57: SNAP takes the entries of all records, each cut at its words. -/
theorem snapshotCopiesTheTable : Obligations.SnapshotCopiesTheTable := by
  refine ⟨fun _ ha => decode_of_reserved_arg_ne_zero ha (by decide), fun s hlen => ⟨_, rfl, fun k hk => ?_, ?_⟩⟩
  · rw [Memory.read?_write, if_neg (by rw [snapshotBytes_length]; omega)]
  · intro i r hr
    rw [← SlotStatus.word_eq_ite]
    exact readRange_words_of_entry (readRange_snapshot_entry s.snap hr)

/-- Settles O58: PTR + 1 stays below N, so that the mod is no change, or is N, which wraps to 0. -/
theorem tickAdvancesThePointer : Obligations.TickAdvancesThePointer := by
  refine ⟨fun w hw => (decodeTick_eq_ok_iff w _).2 ⟨rfl, hw⟩, fun s hp hn => ?_⟩
  rw [exec, execTick]
  congr 2
  split
  · rename_i hwrap
    rw [hwrap, Nat.mod_self]
    rfl
  · rw [Nat.mod_eq_of_lt (by omega)]
    apply BitVec.eq_of_toNat_eq
    simp [BitVec.toNat_add]

end Sys2Proof.Machine
end

section
/-! PROOFS. SCHED_ALLOC_CONSEC: what its search for a window finds, and its answer in each case (spec/42_scheduler.md R210,
R211). -/

namespace Sys2Proof.Machine

open Sys2Proof

/-! ### The first window -/

/-- A window with an Assigned slot in it is no free one. -/
theorem windowFree_eq_false {t : Table} {first count : Nat}
    (h : ∃ j r, first ≤ j ∧ j < first + count ∧ t[j]? = some r ∧ r.status = .assigned) :
    windowFree t first count = false := by
  obtain ⟨j, r, hlo, hhi, hr, hassigned⟩ := h
  refine List.all_eq_false.2 ⟨j, List.mem_range'_1.2 ⟨hlo, hhi⟩, fun hfree => ?_⟩
  rw [isFree_iff hr, hassigned] at hfree
  cases hfree

theorem firstWindow_eq_some {n first count : Nat} {t : Table} (hle : first + count ≤ n)
    (hfree : windowFree t first count = true) (hfirst : ∀ f, f < first → windowFree t f count = false) :
    firstWindow n t count = some first :=
  List.find?_range_eq_some.2 ⟨hfree, List.mem_range.2 (by omega), fun f hf => by simp [hfirst f hf]⟩

theorem firstWindow_eq_none {n count : Nat} {t : Table} (hcount : count ≤ n)
    (h : ∀ f, f + count ≤ n → windowFree t f count = false) : firstWindow n t count = none := by
  refine List.find?_eq_none.2 fun f hf => ?_
  rw [List.mem_range] at hf
  simp [h f (by omega)]

/-! ### The answers -/

theorem exec_schedAllocConsec_of_badCount {s : State} {count : Nat} (h : count = 0 ∨ s.params.n < count) :
    exec (.schedAllocConsec count) s = .next (failed s 7) := by
  rw [exec, execSchedAllocConsec, if_pos h]
  rfl

section
variable {s : State} {n count : Nat} {t : Table} (hn : s.params.n = n) (ht : s.table = t) (hpos : 0 < count)
  (hle : count ≤ n)
include hn ht hpos hle

theorem exec_schedAllocConsec_of_window {first : Nat} (h : firstWindow n t count = some first) :
    exec (.schedAllocConsec count) s = .next (succeeded
      { s with table := assignSlots t (List.range' first count) s.nodeId s.now64 }
      (BitVec.ofNat 32 first) (BitVec.ofNat 32 count) 0 0) := by
  subst hn ht
  rw [exec, execSchedAllocConsec, if_neg (by omega), h]
  rfl

theorem exec_schedAllocConsec_of_no_window (h : firstWindow n t count = none) :
    exec (.schedAllocConsec count) s = .next (failed s 7) := by
  subst hn ht
  rw [exec, execSchedAllocConsec, if_neg (by omega), h]
  rfl

end

/-! ### The obligations -/

/-- Settles O54: the search goes through the windows from the lowest first slot up. -/
theorem allocConsecTakesTheFirstWindow : Obligations.AllocConsecTakesTheFirstWindow := by
  refine ⟨decode_schedAllocConsec, fun s count hlen => ⟨exec_schedAllocConsec_of_badCount, fun hpos hle => ⟨?_, ?_⟩⟩⟩
  · intro first hfits hfree hfirst
    have hwindow := firstWindow_eq_some hfits ((windowFree_iff (by omega)).2 hfree)
      fun f hf => windowFree_eq_false (hfirst f hf)
    refine ⟨_, exec_schedAllocConsec_of_window rfl rfl hpos hle hwindow, fun j => ?_⟩
    rw [assignSlots_getElem?]
    refine if_congr ?_ rfl rfl
    rw [List.mem_range'_1]
    omega
  · intro hnone
    exact exec_schedAllocConsec_of_no_window rfl rfl hpos hle
      (firstWindow_eq_none hle fun f hf => windowFree_eq_false (hnone f hf))

/-- Settles O55: the searches are run on the ten records that the calls before leave. -/
theorem consecutiveAllocationScenario : Obligations.ConsecutiveAllocationScenario := by
  rintro s y z x hn htable rfl
  refine ⟨_, _, exec_schedAllocConsec_of_window (first := 0) hn htable (by decide) (by decide) rfl, rfl, rfl, rfl,
    exec_schedAllocConsec_of_no_window (n := 10) ?_ rfl (by decide) (by decide) rfl,
    exec_schedAllocConsec_of_window (n := 10) (first := 3) ?_ rfl (by decide) (by decide) rfl, rfl, rfl, rfl,
    exec_schedAllocConsec_of_no_window (n := 10) ?_ rfl (by decide) (by decide) rfl⟩ <;> exact hn

end Sys2Proof.Machine
end

section
/-! PROOFS. The table SCHED_ALLOCATE searches, what its search finds, and its answer in each case
(spec/42_scheduler.md R194, R195). -/

namespace Sys2Proof.Machine

open Sys2Proof

/-! ### Records by slot -/

theorem getElem?_eq_slotAt {t : Table} {i : Nat} (h : i < t.length) : t[i]? = some (slotAt t i) := by
  simp [slotAt, h]

theorem forall_mem_iff_slotAt {t : Table} {p : SlotRecord → Prop} :
    (∀ r ∈ t, p r) ↔ ∀ i, i < t.length → p (slotAt t i) := by
  simp only [List.forall_mem_iff_getElem, slotAt]
  exact forall₂_congr fun i hi => by rw [List.getD_eq_getElem _ _ hi]

theorem slotAt_assignSlot {t : Table} {j : Nat} (hj : j < t.length) (id : Ident) (now : Long) (i : Nat) :
    slotAt (assignSlot t j id now) i = if i = j then
      { status := .assigned, owner := id, assignedAt := now, carriedFragmentId := 0 } else slotAt t i := by
  simp only [slotAt, assignSlot, List.getD_eq_getElem?_getD, List.getElem?_set, eq_comm (a := i)]
  split
  · simp [*]
  · rfl

theorem getElem?_assignSlot {t : Table} {i j : Nat} (hj : j < t.length) (hi : i = j) (id : Ident) (now : Long) :
    (assignSlot t j id now)[i]? =
      some { status := .assigned, owner := id, assignedAt := now, carriedFragmentId := 0 } :=
  hi.symm ▸ List.getElem?_set_self hj

/-- A slot id survives its way into RES0. -/
theorem slotId_toNat {n i : Nat} (hn : n ≤ 65536) (hi : i < n) : (BitVec.ofNat 32 i).toNat = i := by
  rw [BitVec.toNat_ofNat, Nat.mod_eq_of_lt (by omega)]

/-- A record not fresh at one time is not fresh later (R190). -/
theorem SlotRecord.not_fresh_of_le {r : SlotRecord} {d : Nat} {now now' : Int} (h : r.fresh d now = false)
    (hle : now ≤ now') : r.fresh d now' = false := by
  rw [← Bool.not_eq_true, SlotRecord.fresh_iff] at h ⊢
  omega

/-! ### The table once step 2 has released what the node owns -/

/-- The table steps 3 to 7 search and change. -/
def State.released (s : State) : Table := freeSlots s.table (ownedSlots s.params.n s.table s.nodeId)

/-- No slot is Free for steps 3 to 5. -/
def State.Full (s : State) : Prop := ∀ i, i < s.params.n → isFree s.released i = false

/-- No slot the node owns is fresh, so that step 1 does not answer. -/
def State.Stale (s : State) : Prop := ∀ i, i < s.params.n → (slotAt s.table i).ownedBy s.nodeId = true →
  (slotAt s.table i).fresh s.params.slotDuration s.now = false

/-- The test of step 6. -/
def State.oldestPreemptable (s : State) : Bool :=
  (slotAt s.table (oldestSlot s.table)).preemptable s.params.slotDuration s.now

@[simp] theorem State.released_length (s : State) : s.released.length = s.table.length := freeSlots_length _ _

section
variable {s : State} (hlen : s.table.length = s.params.n)
include hlen

theorem State.released_eq_map : s.released = s.table.map fun r =>
    if r.status = .assigned ∧ r.owner = s.nodeId then SlotRecord.freeRecord else r := by
  rw [State.released, ← hlen, freeSlots_ownedSlots]
  exact List.map_congr_left fun r _ => if_congr SlotRecord.ownedBy_iff rfl rfl

theorem slotAt_released {i : Nat} (hi : i < s.params.n) : slotAt s.released i =
    if (slotAt s.table i).ownedBy s.nodeId then SlotRecord.freeRecord else slotAt s.table i := by
  apply slotAt_of_getElem?
  rw [State.released, ← hlen, freeSlots_ownedSlots, List.getElem?_map, getElem?_eq_slotAt (by omega)]
  rfl

theorem isFree_released_iff {i : Nat} (hi : i < s.params.n) : isFree s.released i = true ↔
    (slotAt s.table i).status = .free ∨ (slotAt s.table i).ownedBy s.nodeId = true := by
  rw [isFree, decide_eq_true_iff, slotAt_released hlen hi]
  split <;> simp_all [SlotRecord.freeRecord]

/-- Step 2 leaves the node no slot. -/
theorem ownedBy_slotAt_released {i : Nat} (hi : i < s.params.n) :
    (slotAt s.released i).ownedBy s.nodeId = false := by
  rw [slotAt_released hlen hi]
  split
  · rfl
  · simp_all

/-- Once step 2 has run, the node owns the slot that is assigned to it and no other. -/
theorem ownedBy_assigned_iff {i j : Nat} (hi : i < s.params.n) (hj : j < s.params.n) :
    (slotAt (assignSlot s.released j s.nodeId s.now64) i).ownedBy s.nodeId = true ↔ i = j := by
  rw [slotAt_assignSlot (by simp; omega)]
  split
  · simp_all [SlotRecord.ownedBy]
  · simp_all [ownedBy_slotAt_released hlen hi]

theorem countP_ownedBy_assigned {j : Nat} (hj : j < s.params.n) :
    (assignSlot s.released j s.nodeId s.now64).countP (fun r => r.ownedBy s.nodeId) = 1 := by
  have hnone : s.released.countP (fun r => r.ownedBy s.nodeId) = 0 := by
    rw [List.countP_eq_zero, forall_mem_iff_slotAt]
    intro i hi
    simp [ownedBy_slotAt_released hlen (i := i) (by simp at hi; omega)]
  rw [assignSlot, List.countP_set (by simp; omega), hnone]
  simp [SlotRecord.ownedBy]

/-- No slot is Free exactly when every slot is Assigned to another node (R195 (a)). -/
theorem released_full_iff : s.Full ↔
    ∀ r ∈ s.table, r.status = .assigned ∧ r.owner ≠ s.nodeId := by
  rw [forall_mem_iff_slotAt, hlen]
  refine forall₂_congr fun i hi => ?_
  rw [← Bool.not_eq_true, isFree_released_iff hlen hi, SlotRecord.ownedBy_iff]
  cases (slotAt s.table i).status <;> simp

section
variable (hfull : s.Full)
include hfull

theorem ownedBy_of_full {i : Nat} (hi : i < s.params.n) : (slotAt s.table i).ownedBy s.nodeId = false := by
  rw [← Bool.not_eq_true]
  intro hown
  have hfree := (isFree_released_iff hlen hi).2 (.inr hown)
  rw [hfull i hi] at hfree
  cases hfree

theorem stale_of_full : s.Stale := by
  intro i hi hown
  rw [ownedBy_of_full hlen hfull hi] at hown
  cases hown

theorem ownedSlots_of_full : ownedSlots s.params.n s.table s.nodeId = [] := by
  refine List.eq_nil_iff_forall_not_mem.2 fun i hi => ?_
  obtain ⟨hin, hown⟩ := mem_ownedSlots.1 hi
  rw [ownedBy_of_full hlen hfull hin] at hown
  cases hown

theorem released_of_full : s.released = s.table := by
  rw [State.released, ownedSlots_of_full hlen hfull]
  rfl

end
end

/-! ### What steps 3 to 7 find -/

section
variable {n d p : Nat} {t : Table} {now : Int}

theorem pickSlot_of_free (h : isFree t p = true) : pickSlot n d t p now = some (p, 3) := by
  simp [pickSlot, h]

theorem pickSlot_of_next_free (h : isFree t p = false) (hnext : isFree t ((p + 1) % n) = true) :
    pickSlot n d t p now = some ((p + 1) % n, 4) := by
  simp [pickSlot, h, hnext]

theorem pickSlot_of_free_ahead {k : Nat} (hp : p < n) (h2 : 2 ≤ k) (hk : k < n) (h : isFree t ((p + k) % n) = true)
    (hmin : ∀ k', k' < k → isFree t ((p + k') % n) = false) :
    pickSlot n d t p now = some ((p + k) % n, 5) := by
  have h3 : isFree t p = false := by simpa [Nat.mod_eq_of_lt hp] using hmin 0 (by omega)
  have h4 : isFree t ((p + 1) % n) = false := hmin 1 (by omega)
  have h5 := ringAhead_find? h2 hk h fun k' _ hk' => hmin k' hk'
  simp [pickSlot, h3, h4, h5]

theorem pickSlot_of_full (hp : p < n) (hfull : ∀ i, i < n → isFree t i = false) :
    pickSlot n d t p now =
      if (slotAt t (oldestSlot t)).preemptable d now then some (oldestSlot t, 6) else none := by
  have hring (k : Nat) : isFree t ((p + k) % n) = false := hfull _ (Nat.mod_lt _ (by omega))
  have h5 := ringAhead_find?_none (n := n) (p := p) (f := isFree t) fun k _ _ => hring k
  simp [pickSlot, hfull p hp, hring 1, h5]

end

/-- Step 6's slot, on a table known record by record. -/
theorem oldestSlot_eq {n o : Nat} {t : Table} {T : Nat → SlotRecord} (hlen : t.length = n)
    (hT : ∀ i, i < n → t[i]? = some (T i)) (ho : o < n)
    (hmin : ∀ i, i < n → (T o).assignedAt.toInt ≤ (T i).assignedAt.toInt)
    (hfirst : ∀ i, i < o → (T o).assignedAt.toInt < (T i).assignedAt.toInt) : oldestSlot t = o := by
  have hrecord {i : Nat} {r : SlotRecord} (hr : t[i]? = some r) : i < n ∧ T i = r := by
    have hi : i < n := hlen ▸ (List.getElem?_eq_some_iff.1 hr).1
    exact ⟨hi, Option.some.inj ((hT i hi).symm.trans hr)⟩
  refine oldestSlot_unique (hT o ho) (fun i r hr => ?_) fun i r hi hr => ?_
  · obtain ⟨hin, rfl⟩ := hrecord hr
    exact hmin i hin
  · obtain ⟨-, rfl⟩ := hrecord hr
    exact hfirst i hi

/-- The oldest record is not preemptable exactly when none is. -/
theorem oldest_not_preemptable_iff {t : Table} {d : Nat} {now : Int} (hne : t ≠ []) :
    (slotAt t (oldestSlot t)).preemptable d now = false ↔ ∀ r ∈ t, now - r.assignedAt.toInt ≤ 5 * (d : Int) := by
  obtain ⟨r, hr, hmin, -⟩ := oldestSlot_spec hne
  rw [← Bool.not_eq_true, slotAt_of_getElem? hr, SlotRecord.preemptable_iff]
  constructor
  · intro hold r' hr'
    obtain ⟨k, hk⟩ := List.mem_iff_getElem?.1 hr'
    have := hmin k r' hk
    omega
  · intro hall
    have := hall r (List.mem_of_getElem? hr)
    omega

/-! ### What the search finds on the released table -/

section
variable {s : State} (hlen : s.table.length = s.params.n) (hp : s.ptr.toNat < s.params.n)
include hlen hp

theorem pickSlot_released_of_full (hfull : s.Full) :
    pickSlot s.params.n s.params.slotDuration s.released s.ptr.toNat s.now =
      if s.oldestPreemptable then some (oldestSlot s.table, 6) else none := by
  rw [pickSlot_of_full hp hfull, released_of_full hlen hfull]
  rfl

/-- A slot is found by step 3, 4 or 5, being Free, or by step 6, none being Free and the oldest preemptable. -/
theorem pickSlot_released_eq_some {j k : Nat}
    (hpick : pickSlot s.params.n s.params.slotDuration s.released s.ptr.toNat s.now = some (j, k)) :
    j < s.params.n ∧
      ((isFree s.released j = true ∧ (k = 3 ∨ k = 4 ∨ k = 5)) ∨
        (s.Full ∧ k = 6 ∧ s.oldestPreemptable = true)) := by
  rcases pickSlot_spec (d := s.params.slotDuration) (now := s.now) ((State.released_length s).trans hlen) hp with
    ⟨j', k', hfound, hj, hfree, hk⟩ | ⟨hfull, ⟨hfound, hj, hpre⟩ | ⟨hfound, -⟩⟩ <;>
    rw [hpick] at hfound <;> cases hfound
  · exact ⟨hj, .inl ⟨hfree, hk⟩⟩
  · rw [released_of_full hlen hfull] at hpre
    exact ⟨hj, .inr ⟨hfull, rfl, hpre⟩⟩

/-- Nothing is found only with no slot Free and the oldest not preemptable. -/
theorem pickSlot_released_eq_none
    (hpick : pickSlot s.params.n s.params.slotDuration s.released s.ptr.toNat s.now = none) :
    s.Full ∧ s.oldestPreemptable = false := by
  rcases pickSlot_spec (d := s.params.slotDuration) (now := s.now) ((State.released_length s).trans hlen) hp with
    ⟨j, k, hfound, -⟩ | ⟨hfull, ⟨hfound, -⟩ | ⟨-, hpre⟩⟩
  · rw [hpick] at hfound; cases hfound
  · rw [hpick] at hfound; cases hfound
  · rw [released_of_full hlen hfull] at hpre
    exact ⟨hfull, hpre⟩

end

/-! ### The answers -/

section
variable {s : State} {priority : Nat}

/-- Step 1's slot is the first that the node owns and that is fresh. -/
theorem head?_filter_fresh_iff {i : Nat} :
    ((ownedSlots s.params.n s.table s.nodeId).filter
      (fun i => (slotAt s.table i).fresh s.params.slotDuration s.now)).head? = some i ↔
    i < s.params.n ∧ (slotAt s.table i).ownedBy s.nodeId = true ∧
      (slotAt s.table i).fresh s.params.slotDuration s.now = true ∧
      ∀ j, j < i → (slotAt s.table j).ownedBy s.nodeId = true →
        (slotAt s.table j).fresh s.params.slotDuration s.now = false := by
  rw [ownedSlots, List.filter_filter, List.head?_filter, List.find?_range_eq_some]
  simp only [Bool.and_eq_true, List.mem_range, Bool.not_eq_true', Bool.and_eq_false_imp]
  grind

theorem exec_schedAllocate_of_fresh {i : Nat} (hi : i < s.params.n)
    (hown : (slotAt s.table i).ownedBy s.nodeId = true)
    (hfresh : (slotAt s.table i).fresh s.params.slotDuration s.now = true)
    (hfirst : ∀ j, j < i → (slotAt s.table j).ownedBy s.nodeId = true →
      (slotAt s.table j).fresh s.params.slotDuration s.now = false) :
    exec (.schedAllocate priority) s = .next (succeeded s (BitVec.ofNat 32 i) 1 0 0) := by
  obtain ⟨is, hlist⟩ := List.head?_eq_some_iff.1 (head?_filter_fresh_iff.2 ⟨hi, hown, hfresh, hfirst⟩)
  simp only [exec, execSchedAllocate, hlist]
  rfl

section
variable (hstale : s.Stale)
include hstale

theorem filter_fresh_of_stale : (ownedSlots s.params.n s.table s.nodeId).filter
    (fun i => (slotAt s.table i).fresh s.params.slotDuration s.now) = [] := by
  refine List.filter_eq_nil_iff.2 fun i hi => ?_
  obtain ⟨hin, hown⟩ := mem_ownedSlots.1 hi
  simp [hstale i hin hown]

theorem exec_schedAllocate_of_pick {j k : Nat}
    (hpick : pickSlot s.params.n s.params.slotDuration s.released s.ptr.toNat s.now = some (j, k)) :
    exec (.schedAllocate priority) s = .next (succeeded
      { s with table := assignSlot s.released j s.nodeId s.now64 } (BitVec.ofNat 32 j) (BitVec.ofNat 32 k)
      (BitVec.ofNat 32 (ownedSlots s.params.n s.table s.nodeId).length) 0) := by
  rw [State.released] at hpick
  simp only [exec, execSchedAllocate, filter_fresh_of_stale hstale, hpick]
  rfl

theorem exec_schedAllocate_of_no_pick
    (hpick : pickSlot s.params.n s.params.slotDuration s.released s.ptr.toNat s.now = none) :
    exec (.schedAllocate priority) s = .next (failed s 6) := by
  rw [State.released] at hpick
  simp only [exec, execSchedAllocate, filter_fresh_of_stale hstale, hpick]
  rfl

end

section
variable (hlen : s.table.length = s.params.n) (hp : s.ptr.toNat < s.params.n)
  (hfull : s.Full)
include hlen hp hfull

theorem exec_schedAllocate_of_full_preemptable
    (hpre : s.oldestPreemptable = true) :
    exec (.schedAllocate priority) s = .next (succeeded
      { s with table := assignSlot s.released (oldestSlot s.table) s.nodeId s.now64 }
      (BitVec.ofNat 32 (oldestSlot s.table)) 6 0 0) := by
  have hpick := pickSlot_released_of_full hlen hp hfull
  rw [if_pos hpre] at hpick
  rw [exec_schedAllocate_of_pick (stale_of_full hlen hfull) hpick, ownedSlots_of_full hlen hfull]
  rfl

theorem exec_schedAllocate_of_full_kept
    (hpre : s.oldestPreemptable = false) :
    exec (.schedAllocate priority) s = .next (failed s 6) := by
  have hpick := pickSlot_released_of_full hlen hp hfull
  rw [if_neg (by simp [hpre])] at hpick
  exact exec_schedAllocate_of_no_pick (stale_of_full hlen hfull) hpick

end
end

/-- A SCHED_ALLOCATE that succeeds leaves its slot the first of the node's that can be fresh (R194, R196). -/
theorem exec_schedAllocate_ok {s t : State} {priority : Nat} (hlen : s.table.length = s.params.n)
    (hp : s.ptr.toNat < s.params.n) (hn : s.params.n ≤ 65536) (h : exec (.schedAllocate priority) s = .next t)
    (hok : t.status.err = false) :
    t.res.r0.toNat < s.params.n ∧ (slotAt t.table t.res.r0.toNat).ownedBy s.nodeId = true ∧
      ∀ j, j < t.res.r0.toNat → (slotAt t.table j).ownedBy s.nodeId = true →
        (slotAt t.table j).fresh s.params.slotDuration s.now = false := by
  rcases exec_schedAllocate_cases h with ⟨i, is, hlist, rfl⟩ | ⟨-, ⟨j, k, hpick, rfl⟩ | ⟨-, rfl⟩⟩
  · obtain ⟨hi, hown, -, hfirst⟩ := head?_filter_fresh_iff.1 (congrArg List.head? hlist)
    simp only [State.result, slotId_toNat hn hi]
    exact ⟨hi, hown, hfirst⟩
  · obtain ⟨hj, -⟩ := pickSlot_released_eq_some hlen hp hpick
    simp only [State.result, slotId_toNat hn hj]
    refine ⟨hj, (ownedBy_assigned_iff hlen hj hj).2 rfl, fun i hi hown => ?_⟩
    have := (ownedBy_assigned_iff hlen (by omega) hj).1 hown
    omega
  · cases hok

end Sys2Proof.Machine
end

section
/-! PROOFS. SCHED_ALLOCATE, whole: its seven steps and their consequences (spec/42_scheduler.md R194 to R196). -/

namespace Sys2Proof.Machine

open Sys2Proof

/-- Settles O50: a slot owned and fresh answers by step 1; with none, the table step 2 leaves is searched. -/
theorem allocateFollowsThePolicy : Obligations.AllocateFollowsThePolicy := by
  refine ⟨decode_schedAllocate, ?_⟩
  rintro s priority n p rel T Own Young Free after rfl rfl hlen hp hT hOwn hYoung hFree hafter hrel
  have hslot {i : Nat} (hi : i < s.params.n) : slotAt s.table i = T i := slotAt_of_getElem? (hT i hi)
  have hown {i : Nat} (hi : i < s.params.n) : (slotAt s.table i).ownedBy s.nodeId = true ↔ Own i := by
    rw [hslot hi, hOwn, SlotRecord.ownedBy_iff]
  have hyoung {i : Nat} (hi : i < s.params.n) :
      (slotAt s.table i).fresh s.params.slotDuration s.now = true ↔ Young i := by
    rw [hslot hi, hYoung]
    exact SlotRecord.fresh_iff
  have hfree {i : Nat} (hi : i < s.params.n) : isFree s.released i = true ↔ Free i := by
    rw [isFree_released_iff hlen hi, hown hi, hslot hi, hFree]
  have hnotFree {i : Nat} (hi : i < s.params.n) : isFree s.released i = false ↔ ¬Free i := by
    rw [← hfree hi, Bool.not_eq_true]
  have hassign (j : Nat) : after j = assignSlot s.released j s.nodeId s.now64 := by
    rw [hafter, State.released_eq_map hlen]
    rfl
  have hrel : rel = (ownedSlots s.params.n s.table s.nodeId).length := by
    rw [hrel, ← hlen, ownedSlots_length]
    rfl
  have hmod (k : Nat) : (s.ptr.toNat + k) % s.params.n < s.params.n := Nat.mod_lt _ (by omega)
  refine ⟨fun i hi ho hy hmin => ?_, fun hstale => ?_⟩
  · refine exec_schedAllocate_of_fresh hi ((hown hi).2 ho) ((hyoung hi).2 hy) fun j hj hoj => ?_
    have hjn : j < s.params.n := by omega
    rw [← Bool.not_eq_true, hyoung hjn]
    exact hmin j hj ((hown hjn).1 hoj)
  have hstale : s.Stale := by
    intro i hi ho
    rw [← Bool.not_eq_true, hyoung hi]
    exact hstale i hi ((hown hi).1 ho)
  refine ⟨fun h3 => ?_, fun h3 h4 => ?_, fun k h2 hk h5 hmin => ?_, fun o ho hnone hmin hfirst => ?_⟩
  · rw [hassign, hrel]
    exact exec_schedAllocate_of_pick hstale (pickSlot_of_free ((hfree hp).2 h3))
  · rw [hassign, hrel]
    exact exec_schedAllocate_of_pick hstale (pickSlot_of_next_free ((hnotFree hp).2 h3) ((hfree (hmod 1)).2 h4))
  · rw [hassign, hrel]
    exact exec_schedAllocate_of_pick hstale (pickSlot_of_free_ahead hp h2 hk ((hfree (hmod k)).2 h5)
      fun k' hk' => (hnotFree (hmod k')).2 (hmin k' hk'))
  · have hfull : s.Full := fun i hi => (hnotFree hi).2 (hnone i hi)
    have hold := oldestSlot_eq hlen hT ho hmin hfirst
    refine ⟨fun hage => ?_, fun hage => ?_⟩
    · rw [hassign, ← hold]
      refine exec_schedAllocate_of_full_preemptable hlen hp hfull ?_
      rw [State.oldestPreemptable, hold, hslot ho]
      exact SlotRecord.preemptable_iff.2 hage
    · refine exec_schedAllocate_of_full_kept hlen hp hfull ?_
      rw [State.oldestPreemptable, hold, hslot ho, ← Bool.not_eq_true, SlotRecord.preemptable_iff]
      exact not_lt.2 hage

/-- Settles O51: a slot is assigned on the table that step 2 has cleared of the node, and without one the oldest record
decides for all. -/
theorem allocateConsequences : Obligations.AllocateConsequences := by
  intro s t priority hlen hp hn h
  have hne : s.table ≠ [] := List.ne_nil_of_length_pos (by omega)
  have hfails : (∀ r ∈ s.table, r.status = .assigned ∧ r.owner ≠ s.nodeId ∧
        s.now - r.assignedAt.toInt ≤ 5 * (s.params.slotDuration : Int)) ↔
      s.Full ∧ s.oldestPreemptable = false := by
    rw [released_full_iff hlen, State.oldestPreemptable, oldest_not_preemptable_iff hne, ← forall₂_and]
    simp only [and_assoc]
  rw [hfails]
  rcases exec_schedAllocate_cases h with ⟨i, is, hlist, rfl⟩ | ⟨-, ⟨j, k, hpick, rfl⟩ | ⟨hpick, rfl⟩⟩
  · obtain ⟨hi, hown, -, -⟩ := head?_filter_fresh_iff.1 (congrArg List.head? hlist)
    obtain ⟨hassigned, howner⟩ := SlotRecord.ownedBy_iff.1 hown
    have hr : s.table[i]? = some (slotAt s.table i) := getElem?_eq_slotAt (by omega)
    have hcount : 0 < s.table.countP (fun r => r.ownedBy s.nodeId) :=
      List.countP_pos_iff.2 ⟨_, List.mem_of_getElem? hr, hown⟩
    have hslot : s.table[(BitVec.ofNat 32 i).toNat]? = some (slotAt s.table i) := by rwa [slotId_toNat hn hi]
    refine ⟨fun _ h6 => ?_, fun herr => ?_, iff_of_false (by simp) fun hno => ?_,
      fun _ => ⟨⟨_, hslot, hassigned, howner⟩, ?_⟩⟩
    · cases h6
    · cases herr
    · rw [ownedBy_of_full hlen hno.1 hi] at hown
      cases hown
    · rcases Nat.eq_or_lt_of_le hcount with hone | hmany
      · exact .inl hone.symm
      · exact .inr ⟨rfl, rfl, hmany⟩
  · obtain ⟨hj, hhow⟩ := pickSlot_released_eq_some hlen hp hpick
    have hslot := getElem?_assignSlot (t := s.released) (by simp; omega) (slotId_toNat hn hj) s.nodeId s.now64
    refine ⟨fun _ h6 => ?_, fun herr => ?_, iff_of_false (by simp) fun hno => ?_,
      fun _ => ⟨⟨_, hslot, rfl, rfl⟩, .inl (countP_ownedBy_assigned hlen hj)⟩⟩
    · rcases hhow with ⟨-, rfl | rfl | rfl⟩ | ⟨hfull, -⟩
      · cases h6
      · cases h6
      · cases h6
      · exact fun r hr => ((released_full_iff hlen).1 hfull r hr).1
    · cases herr
    · rcases hhow with ⟨hfree, -⟩ | ⟨-, -, hpre⟩
      · rw [hno.1 j hj] at hfree
        cases hfree
      · rw [hno.2] at hpre
        cases hpre
  · have hno := pickSlot_released_eq_none hlen hp hpick
    exact ⟨nofun, fun _ => rfl, iff_of_true rfl hno, nofun⟩

/-- Settles O52: the slot the first call answers with is still the first fresh one of the node. -/
theorem allocateIsIdempotent : Obligations.AllocateIsIdempotent := by
  intro s t u p p' r hlen hp hn h hok htable hid hparams hle hr hage
  obtain ⟨hlt, hown, hfirst⟩ := exec_schedAllocate_ok hlen hp hn h hok
  have hfresh : (slotAt t.table t.res.r0.toNat).fresh s.params.slotDuration u.now = true := by
    rw [slotAt_of_getElem? hr]
    exact SlotRecord.fresh_iff.2 hage
  simp only [← htable, ← hid, ← hparams] at hlt hown hfirst hfresh
  have hagain := exec_schedAllocate_of_fresh (priority := p') hlt hown hfresh
    fun j hj hj' => SlotRecord.not_fresh_of_le (hfirst j hj hj') hle
  rwa [BitVec.ofNat_toNat, BitVec.setWidth_eq] at hagain

end Sys2Proof.Machine
end

section
/-! PROOFS. The host's writes of CMD and STATUS (spec/43_host_interface.md R242, R243, R246). -/

namespace Sys2Proof.Machine

open Sys2Proof

/-- A write of a register neither RW nor TICK is no hazard and takes its effect, whatever BUSY is (R241, R247). -/
theorem step_of_write_unhazarded {s : State} {r : Reg} {v : Word} {rest : List Turn} (ht : r ≠ .tick)
    (hrw : r.isRW = false) (hl : legalParams s.params = true) (h : WriteNext s r.offset v rest) :
    step s = .next (storeTo (.reg r) v { s with turns := rest }) := by
  have hsafe : ¬(s.status.busy = true ∧ r.isRW = true) := by simp [hrw]
  rw [step_of_write_reg ht hl h, if_neg hsafe]

/-- Settles O7: an idle CMD write is accepted undecoded, and the engine's turn finds the latched word illegal. -/
theorem cmdWriteIsAcceptedWhenIdle : Obligations.CmdWriteIsAcceptedWhenIdle := by
  intro s w rest hl hb hw
  have haccept := step_of_write_cmd_idle hb hl hw
  refine ⟨haccept, ?_⟩
  rintro e rest' hd rfl
  have hfail := step_of_engine_illegal (s := State.acceptCmd { s with turns := .engine :: rest' } w)
    rfl hd hl (.inl rfl)
  have hrun := (runFor_succ_of_next (k := 1) haccept).trans ((runFor_one _).trans hfail)
  exact ⟨_, hrun, rfl⟩

/-- STATUS after a CMD write that is dropped: OVERRUN alone is set (R243). -/
theorem Status.drop_of_busy {st : Status} (hb : st.busy = true) :
    st.drop = { busy := true, err := st.err, overrun := true, errcode := st.errcode, lastop := st.lastop } := by
  rw [Status.drop, hb]

/-- Settles O8: a CMD write is no hazard, and `cmdWrite` drops it while BUSY = 1. -/
theorem cmdWriteIsDroppedWhenBusy : Obligations.CmdWriteIsDroppedWhenBusy := by
  intro s w rest hl hb hw
  have hstore : storeTo (.reg .cmd) w { s with turns := rest } = { s with turns := rest }.dropCmd := if_pos hb
  rw [step_of_write_unhazarded (r := .cmd) (by decide) rfl hl hw, hstore, State.dropCmd, Status.drop_of_busy hb]

/-- STATUS after the host writes `v` to it, field by field: only OVERRUN can change (R246). -/
theorem Status.hostWrite_eq (st : Status) (v : Word) :
    st.hostWrite v = { busy := st.busy, err := st.err, overrun := if v.getLsbD 2 then false else st.overrun,
                       errcode := st.errcode, lastop := st.lastop } := by
  unfold Status.hostWrite
  split <;> rfl

/-- Settles O9: a STATUS write is no hazard, and `Status.hostWrite` touches OVERRUN only. -/
theorem statusWriteClearsOnlyOverrun : Obligations.StatusWriteClearsOnlyOverrun := by
  intro s v rest hl hw
  have hstore : storeTo (.reg .status) v { s with turns := rest } = statusWrite v { s with turns := rest } := rfl
  rw [step_of_write_unhazarded (r := .status) (by decide) rfl hl hw, hstore, statusWrite, Status.hostWrite_eq]

end Sys2Proof.Machine
end

section
/-! PROOFS. How a command fails (spec/60_exceptions.md R264). -/

namespace Sys2Proof.Machine

open Sys2Proof

theorem ErrorKind.code_ne_zero (e : ErrorKind) : e.code ≠ 0 := by cases e <;> decide

/-- A command completes in one of two ways (R244): it succeeds, or its error is raised in the state it began with. -/
theorem exec_succeeds_or_raises {i : Instr} {s t : State} (hp : i.port = .cmd) (h : exec i s = .next t) :
    t.status = s.status.succeed ∨ ∃ e, t = s.raise e := by
  cases i with
  | clkCompute =>
    rcases exec_clkCompute_cases h with ⟨-, ht⟩ | ⟨-, -, rfl⟩
    · exact .inr ⟨_, ht⟩
    · exact .inl rfl
  | codecEncode =>
    rcases exec_codecEncode_cases h with ⟨-, ht⟩ | ⟨-, _, -, rfl⟩
    · exact .inr ⟨_, ht⟩
    · exact .inl rfl
  | codecDecode =>
    rcases exec_codecDecode_cases h with ⟨-, ht⟩ | ⟨-, ht⟩ | ⟨-, -, _, _, -, -, -, rfl⟩
    · exact .inr ⟨_, ht⟩
    · exact .inr ⟨_, ht⟩
    · exact .inl rfl
  | codecValidate =>
    rcases exec_codecValidate_cases h with ⟨-, ht⟩ | ⟨-, -, ht⟩ | ⟨-, -, _, -, ⟨-, ht⟩ | ⟨-, rfl⟩⟩
    · exact .inr ⟨_, ht⟩
    · exact .inr ⟨_, ht⟩
    · exact .inr ⟨_, ht⟩
    · exact .inl rfl
  | schedAllocate priority =>
    rcases exec_schedAllocate_cases h with ⟨_, _, -, rfl⟩ | ⟨-, ⟨_, _, -, rfl⟩ | ⟨-, ht⟩⟩
    · exact .inl rfl
    · exact .inl rfl
    · exact .inr ⟨_, ht⟩
  | schedAllocConsec count =>
    rcases exec_schedAllocConsec_cases h with ht | ⟨-, -, _, -, rfl⟩
    · exact .inr ⟨_, ht⟩
    · exact .inl rfl
  | schedRelease slotId =>
    rcases exec_schedRelease_cases h with ⟨-, ht⟩ | ⟨-, rfl⟩
    · exact .inr ⟨_, ht⟩
    · exact .inl rfl
  | schedSnapshot => cases exec_schedSnapshot_cases h; exact .inl rfl
  | tick => cases hp

/-- So does the engine's turn with a command pending, a word that is no command raising IllegalCommand (R244, R245). -/
theorem step_engine_succeeds_or_raises {s t : State} {rest : List Turn} (hb : s.status.busy = true)
    (he : EngineNext s rest) (h : step s = .next t) :
    t.status = s.status.succeed ∨ ∃ e, t = State.raise { s with turns := rest } e := by
  have hl := legal_of_step_next h
  cases hd : decodeCmd s.pend with
  | ok i =>
    have hstep : step s = exec i { s with turns := rest } := by
      rw [step_of_engine hl he]
      simp [engineTurn, decode, hb, hd]
    exact exec_succeeds_or_raises (decodeCmd_port hd) (hstep ▸ h)
  | error e =>
    rw [step_of_engine_illegal hb hd hl he] at h
    cases h
    exact .inr ⟨_, rfl⟩

/-- Settles O33: a completion that leaves ERR set is no success, so it raised an error, which changes STATUS alone. -/
theorem failedCommandsChangeOnlyStatus : Obligations.FailedCommandsChangeOnlyStatus := by
  intro s t rest hb he h herr
  rcases step_engine_succeeds_or_raises hb he h with hok | ⟨e, rfl⟩
  · simp [hok] at herr
  · exact ⟨e.code_ne_zero, raise_eq_failed _ e⟩

end Sys2Proof.Machine
end

section
/-! PROOFS. The decoder and the encoder invert each other (spec/30_encoding.md R90 to R93). -/

namespace Sys2Proof

open Sys2Proof.Machine

/-- An operand that fits ARG is read back from it (R92). -/
theorem ofNat_arg_toNat {n : Nat} (h : decide (n < 2 ^ 24) = true) : (BitVec.ofNat 24 n).toNat = n :=
  (BitVec.toNat_ofNat n 24).trans (Nat.mod_eq_of_lt (of_decide_eq_true h))

/-- Settles O1: a word without an operand is one fixed word; an operand that fits ARG is read back from it. -/
theorem decodeInvertsEncode : Obligations.DecodeInvertsEncode := by
  intro i hw
  cases i with
  | clkCompute | codecEncode | codecDecode | codecValidate | schedSnapshot | tick => decide
  | schedAllocate priority =>
    exact (decode_schedAllocate _).trans (by rw [ofNat_arg_toNat hw])
  | schedAllocConsec count =>
    exact (decode_schedAllocConsec _).trans (by rw [ofNat_arg_toNat hw])
  | schedRelease slotId =>
    exact (decode_schedRelease _).trans (by rw [ofNat_arg_toNat hw])

/-- A legal command word is the word its command encodes to. -/
theorem encode_of_decodeCmd {w : Word} {i : Instr} (h : decodeCmd w = .ok i) : encode i = w := by
  rw [word_eq_iff]
  rcases (decodeCmd_eq_ok_iff w i).1 h with
    ⟨rfl, ho, ha⟩ | ⟨rfl, ho, ha⟩ | ⟨rfl, ho, ha⟩ | ⟨rfl, ho, ha⟩ | ⟨rfl, ho⟩ | ⟨rfl, ho⟩ | ⟨rfl, ho⟩ | ⟨rfl, ho, ha⟩ <;>
  simp [encode, *]

/-- Settles O2: the decoder on ten closed words. -/
theorem exampleWordsDecode : Obligations.ExampleWordsDecode := by
  unfold Obligations.ExampleWordsDecode
  decide

end Sys2Proof
end

section
/-! PROOFS. What a step that answers can be, each possibility by name (spec/43_host_interface.md). -/

namespace Sys2Proof.Machine

open Sys2Proof

/-- What a step from `s` to the state it answers can be (R11, R240 to R245). -/
inductive StepKind (s : State) : State → Prop where
  /-- The engine's turn with no command pending (R274). -/
  | idle {rest : List Turn} (he : EngineNext s rest) (hb : s.status.busy = false) :
      StepKind s { s with turns := rest }
  /-- The pending command completes (R244). -/
  | command {rest : List Turn} {i : Instr} {t : State} (he : EngineNext s rest) (hb : s.status.busy = true)
      (hd : decodeCmd s.pend = .ok i) (hx : exec i { s with turns := rest } = .next t) : StepKind s t
  /-- A pending word that is no command completes (R94, R245). -/
  | illegal {rest : List Turn} (he : EngineNext s rest) (hb : s.status.busy = true) :
      StepKind s (State.raise { s with turns := rest } .illegalCommand)
  /-- A bus read (R240). -/
  | read {size : AccessSize} {off : Offset} {v : Word} {rest : List Turn} (ht : s.turns = .read size off :: rest) :
      StepKind s (State.returns { s with turns := rest } v)
  /-- A word written to TICK, with a tick (R230). -/
  | tick {w : Word} {rest : List Turn} {t : State} (ht : WriteNext s 0x028 w rest) (hbit : w.getLsbD 0 = true)
      (hx : exec .tick { s with turns := rest } = .next t) : StepKind s t
  /-- A word written to TICK, without a tick (R26). -/
  | noTick {w : Word} {rest : List Turn} (ht : WriteNext s 0x028 w rest) : StepKind s { s with turns := rest }
  /-- Any other bus write (R241). -/
  | store {off : Offset} {v : Word} {rest : List Turn} (ht : s.turns = .write .word off v :: rest) :
      StepKind s (storeTo (targetOf off.toNat) v { s with turns := rest })
  /-- Reset (R290). -/
  | reset {w : Option Word} {rest : List Turn} (ht : s.turns = .reset w :: rest) :
      StepKind s (State.assertReset { s with turns := rest })

theorem stepKind_of_step {s t : State} (h : step s = .next t) : StepKind s t := by
  have tickWrite {off : Offset} {v : Word} {rest : List Turn} (ht : s.turns = .write .word off v :: rest)
      (ho : off.toNat = 0x028) : WriteNext s 0x028 v rest := by
    rw [WriteNext, ht, BitVec.eq_of_toNat_eq (y := BitVec.ofNat 25 0x028) ho]
  rcases step_cases h with ⟨_, he, hb, rfl⟩ | ⟨_, _, he, hb, hd, hx⟩ | ⟨_, he, hb, -, rfl⟩ | ⟨_, _, _, _, ht, rfl⟩ |
    ⟨_, _, _, ht, ho, hbit, hx⟩ | ⟨_, _, _, ht, ho, -, rfl⟩ | ⟨_, _, _, ht, -, rfl⟩ | ⟨_, _, ht, rfl⟩
  · exact .idle he hb
  · exact .command he hb hd hx
  · exact .illegal he hb
  · exact .read ht
  · exact .tick (tickWrite ht ho) hbit hx
  · exact .noTick (tickWrite ht ho)
  · exact .store ht
  · exact .reset ht

end Sys2Proof.Machine
end

section
/-! PROOFS. The invariant holds at reset and is kept by every step (spec/10_state.md, spec/20_memory.md section 4). -/

namespace Sys2Proof.Machine

open Sys2Proof

/-! ### Reset -/

/-- The range of N (R6). -/
theorem legalParams_n {p : Params} (hl : legalParams p = true) : 0 < p.n ∧ p.n ≤ 65536 := by
  simp only [legalParams, decide_eq_true_eq] at hl
  omega

/-- Settles O35: the reset table is N blank records, the buffers are empty and the RX frame is zero. -/
theorem invariantHoldsAtReset : Obligations.InvariantHoldsAtReset := by
  intro p hl
  have hblank : ∀ r ∈ (State.resetOf p).table, r = SlotRecord.freeRecord := fun r hr => List.eq_of_mem_replicate hr
  have hnode : (0 : Word) = BitVec.ofNat 32 (trimmedLen Ident.zero.bytes) := by decide
  exact {
    legal := hl
    tableLength := List.length_replicate
    ptrInRange := (legalParams_n hl).1
    freeIsBlank := fun r hr _ => hblank r hr
    carriedZero := fun r hr => hblank r hr ▸ rfl
    txpOk := BufferOk.nil _
    wireOk := BufferOk.nil _
    rxpOk := BufferOk.nil _
    snapOk := BufferOk.nil _
    pendingStatus := fun hb => nomatch hb
    errMatchesCode := by simp [State.resetOf]
    codeProduced := by simp [State.resetOf, producedCodes]
    rxNodeLen := hnode
    rxLenBound := Nat.zero_le _
    rxPayloadWritten := fun k hk => absurd hk (Nat.not_lt_zero k) }

theorem Inv.of_assertReset {s : State} (h : Inv s) : Inv s.assertReset :=
  { invariantHoldsAtReset s.params h.legal with }

/-! ### Bus writes -/

theorem Inv.of_cmdWrite {s : State} {v : Word} (h : Inv s) : Inv (cmdWrite v s) := by
  unfold cmdWrite
  split
  · exact { h with }
  · exact { h with
      pendingStatus := fun _ => ⟨rfl, rfl, rfl⟩
      errMatchesCode := by simp
      codeProduced := by simp [producedCodes] }

theorem Inv.of_statusWrite {s : State} {v : Word} (h : Inv s) : Inv (statusWrite v s) :=
  { h with
    pendingStatus := by simpa using h.pendingStatus
    errMatchesCode := by simpa using h.errMatchesCode
    codeProduced := by simpa using h.codeProduced }

theorem Inv.of_writeReg {s : State} {r : Reg} {v : Word} (h : Inv s) : Inv (writeReg r v s) := by
  cases r <;> exact { h with }

/-- The bytes of a word that lie below the capacity (R63). -/
theorem bytesBelow_fits (cap k : Nat) (v : Word) : bytesBelow cap k v = [] ∨ k + (bytesBelow cap k v).length ≤ cap := by
  by_cases hk : k < cap
  · right
    simp only [bytesBelow, List.length_take]
    omega
  · left
    rw [bytesBelow, Nat.sub_eq_zero_of_le (by omega), List.take_zero]

theorem Inv.of_writeBuf {s : State} {sp : Space} {k : Nat} {v : Word} (h : Inv s) : Inv (writeBuf sp k v s) := by
  cases sp with
  | txp => exact { h with txpOk := h.txpOk.write k _ (bytesBelow_fits _ k v) }
  | wire => exact { h with wireOk := h.wireOk.write k _ (bytesBelow_fits _ k v) }
  | rxp | snap => exact h

theorem Inv.of_storeTo {s : State} {tgt : Target} {v : Word} (h : Inv s) : Inv (storeTo tgt v s) := by
  rcases storeTo_cases tgt v s with ⟨-, e⟩ | ⟨-, e⟩ | ⟨_, -, e⟩ | ⟨_, _, -, e⟩ | ⟨-, e⟩ <;> rw [e]
  · exact h.of_cmdWrite
  · exact h.of_statusWrite
  · exact h.of_writeReg
  · exact h.of_writeBuf
  · exact h

/-! ### Completions -/

/-- ENCODE's frame fits WIRE (R150). -/
theorem Inv.of_encoded {s : State} {bs : List Byte} {n : Word} (h : Inv s) (hbs : bs.length ≤ s.params.maxPayload + 70) :
    Inv { s with wire := Memory.write s.wire 0 bs, wireLen := n } :=
  { h with wireOk := h.wireOk.write 0 bs (.inr (by simpa [capacity] using hbs)) }

/-- DECODE loads RX_NODELEN with the trimmed length of the nodeId it loads, and writes the whole payload to RXP (R160). -/
theorem Inv.of_decoded {s : State} {w : List Byte} {L : Nat} (h : Inv s) (hw : w.length = 70 + L)
    (hL : L ≤ s.params.maxPayload) :
    Inv { s with rx := RxRegs.ofFrame w L, rxp := Memory.write s.rxp 0 (slice w 58 L) } := by
  have hpay : (slice w 58 L).length = L := by simp; omega
  have hnode : (RxRegs.ofFrame w L).node.bytes = slice w 12 32 := Ident.bytes_ofBytes (by simp; omega)
  have hlen : (RxRegs.ofFrame w L).len.toNat ≤ L := (BitVec.toNat_ofNat L 32).trans_le (Nat.mod_le L _)
  exact { h with
    rxpOk := h.rxpOk.write 0 _ (.inr (by rw [hpay, Nat.zero_add]; exact hL))
    rxNodeLen := by rw [hnode]; rfl
    rxLenBound := hlen.trans hL
    rxPayloadWritten := fun k hk => by
      have hk' : k < (slice w 58 L).length := hk.trans_le (hlen.trans hpay.ge)
      have hread := Memory.read?_write_of_lt s.rxp 0 _ k hk'
      rw [Nat.zero_add, List.getElem?_eq_getElem hk'] at hread
      exact ⟨_, hread⟩ }

/-- SNAPSHOT's entries fill SNAP (R220). -/
theorem Inv.of_snapshot {s : State} (h : Inv s) : Inv { s with snap := Memory.write s.snap 0 (snapshotBytes s.table) } :=
  { h with snapOk := h.snapOk.write 0 _ (.inr (by simp [capacity, h.tableLength])) }

/-- TICK keeps PTR below N, which fits the register (R27, R230). -/
theorem Inv.of_tick {s : State} (h : Inv s) :
    Inv { s with ptr := BitVec.ofNat 32 ((s.ptr.toNat + 1) % s.params.n) } := by
  have hlt : (s.ptr.toNat + 1) % s.params.n < s.params.n := Nat.mod_lt _ (by have := h.ptrInRange; omega)
  have hfit := (legalParams_fit h.legal).1
  exact { h with
    ptrInRange := by rwa [BitVec.toNat_ofNat, Nat.mod_eq_of_lt (hlt.trans hfit)] }

/-- Every instruction that completes keeps the invariant. -/
theorem Inv.of_exec {i : Instr} {s t : State} (h : Inv s) (hx : exec i s = .next t) : Inv t := by
  cases i with
  | clkCompute =>
    rcases exec_clkCompute_cases hx with ⟨-, rfl⟩ | ⟨-, -, rfl⟩
    · exact h.of_raise (by decide)
    · exact h.of_result
  | codecEncode =>
    rcases exec_codecEncode_cases hx with ⟨-, rfl⟩ | ⟨hle, pay, hpay, rfl⟩
    · exact h.of_raise (by decide)
    · have hlen := Memory.readRange_length hpay
      exact (h.of_encoded (by rw [frameBytes_length]; omega)).of_result
  | codecDecode =>
    rcases exec_codecDecode_cases hx with ⟨-, rfl⟩ | ⟨-, rfl⟩ | ⟨hmin, hmax, lenBytes, w, -, hlen, hw, rfl⟩
    · exact h.of_raise (by decide)
    · exact h.of_raise (by decide)
    · have hwlen := Memory.readRange_length hw
      exact (h.of_decoded (by omega) (by omega)).of_result
  | codecValidate =>
    rcases exec_codecValidate_cases hx with ⟨-, rfl⟩ | ⟨-, -, rfl⟩ | ⟨-, -, _, -, ⟨-, rfl⟩ | ⟨-, rfl⟩⟩
    · exact h.of_raise (by decide)
    · exact h.of_raise (by decide)
    · exact h.of_raise (by decide)
    · exact h.of_result
  | schedAllocate priority =>
    rcases exec_schedAllocate_cases hx with ⟨_, _, -, rfl⟩ | ⟨-, ⟨_, _, -, rfl⟩ | ⟨-, rfl⟩⟩
    · exact h.of_result
    · exact h.of_freeSlots.of_assignSlot.of_result
    · exact h.of_raise (by decide)
  | schedAllocConsec count =>
    rcases exec_schedAllocConsec_cases hx with rfl | ⟨-, -, _, -, rfl⟩
    · exact h.of_raise (by decide)
    · exact h.of_assignSlots.of_result
  | schedRelease slotId =>
    rcases exec_schedRelease_cases hx with ⟨-, rfl⟩ | ⟨-, rfl⟩
    · exact h.of_raise (by decide)
    · exact h.of_freeSlot.of_result
  | schedSnapshot => exact exec_schedSnapshot_cases hx ▸ h.of_snapshot.of_result
  | tick => exact exec_tick_cases hx ▸ h.of_tick

/-- Settles O36: each thing a step can be keeps the invariant of the state with its turn used up. -/
theorem everyStepKeepsTheInvariant : Obligations.EveryStepKeepsTheInvariant := by
  intro s t h hs
  cases stepKind_of_step hs with
  | idle | noTick => exact h.of_turns
  | command _ _ _ hx => exact h.of_turns.of_exec hx
  | illegal => exact h.of_turns.of_raise (by decide)
  | read => exact h.of_turns.of_returns
  | tick _ _ hx => exact h.of_turns.of_exec hx
  | store => exact h.of_turns.of_storeTo
  | reset => exact h.of_turns.of_assertReset

end Sys2Proof.Machine
end

section
/-! PROOFS. Reset, and what every register reads as and stores (spec/10_state.md sections 2 to 5, spec/43_host_interface.md
section 1, spec/70_reset_and_hazards.md section 1). -/

namespace Sys2Proof.Machine

open Sys2Proof

/-! ### Reset -/

@[simp] theorem Ident.word_zero (j : Fin 8) : Ident.zero.word j = 0 := by
  revert j
  decide

/-- Settles O10: the step is `State.assertReset`, whatever was pending and whatever TICK write came with it. -/
theorem resetRestoresEveryPiece : Obligations.ResetRestoresEveryPiece := by
  intro s w rest hl ht
  have hnow : ((0 : Word) ++ (0 : Word) : Long) = 0 := by decide
  refine ⟨_, step_of_turn hl ht, rfl, rfl, hnow, rfl, rfl,
    fun j => ⟨Ident.word_zero j, Ident.word_zero j, Ident.word_zero j⟩,
    rfl, rfl, rfl, rfl, rfl, rfl, rfl, rfl, rfl, rfl, rfl, rfl, rfl, rfl, rfl, rfl, rfl, rfl, rfl,
    List.length_replicate, fun r hr => List.eq_of_mem_replicate hr, fun sp k => ?_, rfl, rfl, rfl⟩
  cases sp <;> rfl

/-- The two PARAM_DUR registers together are SLOT_DURATION (R23). -/
theorem readReg_paramDur (s : State) :
    readReg .paramDurHi s ++ readReg .paramDurLo s = BitVec.ofNat 64 s.params.slotDuration := by
  simp only [readReg]
  exact (BitVec.extractLsb'_append_extractLsb'_eq_extractLsb' rfl).trans BitVec.extractLsb'_eq_self

/-- Settles O11: the PARAM registers by R23, and every other register shows a zero field of the reset state. -/
theorem registersAfterReset : Obligations.RegistersAfterReset := by
  intro p hl
  refine ⟨rfl, readReg_paramN_toNat (s := State.resetOf p) hl, readReg_paramMaxPay_toNat (s := State.resetOf p) hl, ?_,
    fun r hr => ?_⟩
  · obtain ⟨-, -, hfit⟩ := legalParams_fit hl
    rw [readReg_paramDur]
    exact (BitVec.toNat_ofNat _ 64).trans (Nat.mod_eq_of_lt hfit)
  · cases r with
    | id | paramN | paramMaxPay | paramDurLo | paramDurHi => simp at hr
    | nodeId j | txNode j | rxNode j => exact Ident.word_zero j
    | status => exact (by decide : Status.word ⟨false, false, false, 0, 0⟩ = 0)
    | _ => rfl

/-! ### STATUS -/

/-- A field of a word, known bit by bit. -/
theorem extractLsb'_eq_of_getLsbD {m n k : Nat} {v : BitVec m} {x : BitVec n}
    (h : ∀ i, i < n → v.getLsbD (k + i) = x.getLsbD i) : v.extractLsb' k n = x :=
  BitVec.eq_of_getLsbD_eq fun i hi => by
    rw [BitVec.getLsbD_extractLsb', decide_eq_true hi, Bool.true_and, h i hi]

section
variable (st : Status)

theorem Status.word_reservedLow : st.word.extractLsb' 3 5 = 0 :=
  extractLsb'_eq_of_getLsbD fun i hi => by
    rw [Status.word_getLsbD, if_neg (by omega), if_neg (by omega), if_neg (by omega), if_pos (by omega)]
    exact BitVec.getLsbD_zero.symm

theorem Status.word_errcode : st.word.extractLsb' 8 8 = st.errcode :=
  extractLsb'_eq_of_getLsbD fun i hi => by
    rw [Status.word_getLsbD, if_neg (by omega), if_neg (by omega), if_neg (by omega), if_neg (by omega),
      if_pos (by omega), Nat.add_sub_cancel_left]

theorem Status.word_getLsbD_of_ge {i : Nat} (hi : 16 ≤ i) : st.word.getLsbD i = st.lastop.getLsbD (i - 16) := by
  rw [Status.word_getLsbD, if_neg (by omega), if_neg (by omega), if_neg (by omega), if_neg (by omega),
    if_neg (by omega)]

theorem Status.word_lastop : st.word.extractLsb' 16 8 = st.lastop :=
  extractLsb'_eq_of_getLsbD fun i hi => by
    rw [st.word_getLsbD_of_ge (by omega), Nat.add_sub_cancel_left]

theorem Status.word_reservedHigh : st.word.extractLsb' 24 8 = 0 :=
  extractLsb'_eq_of_getLsbD fun i hi => by
    rw [st.word_getLsbD_of_ge (by omega), BitVec.getLsbD_of_ge _ _ (by omega)]
    exact BitVec.getLsbD_zero.symm

end

/-- Settles O13: a STATUS read is no hazard, and the fields of the word are those of R25. -/
theorem statusReadsAsLaidOut : Obligations.StatusReadsAsLaidOut := by
  intro s rest hl h
  have bit := Status.word_getLsbD s.status
  exact ⟨s.status.word, step_of_read_unhazarded (r := .status) rfl hl h, bit 0, bit 1, bit 2,
    s.status.word_reservedLow, s.status.word_errcode, s.status.word_lastop, s.status.word_reservedHigh⟩

/-! ### Reads -/

/-- The register map of R21 written out, in the words of the bus. -/
theorem registerReads_eq_map (s : State) : registerReads s = allRegs.map fun r => (r.offset, readReg r s) := by
  have hlo : BitVec.ofNat 32 (s.params.slotDuration % 2 ^ 32) = readReg .paramDurLo s := by
    apply BitVec.eq_of_toNat_eq
    simp [readReg]
  have hhi : BitVec.ofNat 32 (s.params.slotDuration / 2 ^ 32) = readReg .paramDurHi s := by
    apply BitVec.eq_of_toNat_eq
    simp only [readReg, BitVec.toNat_ofNat, BitVec.extractLsb'_toNat, Nat.shiftRight_eq_div_pow]
    omega
  unfold registerReads
  rw [hlo, hhi]
  rfl

/-- Settles O14: the offset is a register's, and the read is no hazard by the offsets of R247. -/
theorem registerReadReturnsItsValue : Obligations.RegisterReadReturnsItsValue := by
  intro s off v rest hl h hsafe hmem
  rw [registerReads_eq_map] at hmem
  obtain ⟨r, -, hr⟩ := List.mem_map.1 hmem
  cases hr
  have hhaz := (hazards_of_register_offset r.offset_mod r.offset_lt).2
  rw [targetOf_offset] at hhaz
  rw [step_of_read_reg hl h, if_neg fun hb => hsafe hb.1 (hhaz.1 hb.2)]

/-! ### Writes -/

/-- The RW rows of R21 written out, in the words of the bus. -/
theorem registerWrites_eq_map (v : Word) (s : State) :
    registerWrites v s = (allRegs.filter Reg.isRW).map fun r => (r.offset, writeReg r v s) := by
  have hlow : v.extractLsb' 0 16 = v.setWidth 16 := (BitVec.setWidth_eq_extractLsb' (by decide)).symm
  unfold registerWrites
  rw [hlow]
  rfl

/-- A store in a register that merely stores takes no notice of the turns to come. -/
theorem writeReg_turns_update (r : Reg) (v : Word) (s : State) (rest : List Turn) :
    writeReg r v { s with turns := rest } = { writeReg r v s with turns := rest } := by
  cases r <;> rfl

theorem storeTo_of_isRW {r : Reg} (h : r.isRW = true) (v : Word) (s : State) : storeTo (.reg r) v s = writeReg r v s := by
  rcases storeTo_cases (.reg r) v s with ⟨⟨⟩, -⟩ | ⟨⟨⟩, -⟩ | ⟨_, ⟨⟩, hs⟩ | ⟨_, _, ⟨⟩, -⟩ | ⟨⟨⟩, -⟩
  · cases h
  · cases h
  · exact hs

/-- Settles O15: the offset is an RW register's, whose store is no hazard while BUSY = 0. -/
theorem registerWriteStoresTheValue : Obligations.RegisterWriteStoresTheValue := by
  intro s t off v rest hl hb h hmem
  rw [registerWrites_eq_map] at hmem
  obtain ⟨r, hrw, hr⟩ := List.mem_map.1 hmem
  cases hr
  have hrw : r.isRW = true := (List.mem_filter.1 hrw).2
  have ht : r ≠ .tick := by rintro rfl; cases hrw
  rw [step_of_write_reg ht hl h, if_neg (by simp [hb]), storeTo_of_isRW hrw, writeReg_turns_update]

end Sys2Proof.Machine
end

section
/-! PROOFS. The buffer windows on the bus (spec/20_memory.md sections 2 and 4, spec/43_host_interface.md section 1). -/

namespace Sys2Proof.Machine

open Sys2Proof

/-- An aligned place in a buffer window is an aligned offset of the register window (R60, R63). -/
theorem window_offset_aligned {sp : Space} {k : Nat} (hk : k < if sp = .snap then 0x400000 else 0x100000)
    (h4 : k % 4 = 0) : windowBase sp + k < 0x2000000 ∧ (windowBase sp + k) % 4 = 0 := by
  cases sp <;> simp only [windowBase, reduceCtorEq, if_true, if_false] at hk ⊢ <;> omega

/-! ### Writes -/

theorem wordBytes_getElem? (v : Word) {j : Nat} (hj : j < 4) :
    (wordBytes v)[j]? = some (v.extractLsb' (24 - 8 * j) 8) := by
  match j, hj with
  | 0, _ | 1, _ | 2, _ | 3, _ => rfl

/-- What the host's write of a buffer word leaves at every byte (R63, R64). -/
theorem Memory.read?_write_bytesBelow (m : Memory) (cap k : Nat) (v : Word) (j : Nat) :
    Memory.read? (Memory.write m k (bytesBelow cap k v)) j =
      if k ≤ j ∧ j < k + 4 ∧ j < cap then some (v.extractLsb' (24 - 8 * (j - k)) 8) else Memory.read? m j := by
  have hlen : (bytesBelow cap k v).length = min (cap - k) 4 := List.length_take
  rw [Memory.read?_write, hlen]
  by_cases hj : k ≤ j ∧ j < k + 4 ∧ j < cap
  · rw [if_pos hj, if_pos (by omega), bytesBelow, List.getElem?_take_of_lt (by omega), wordBytes_getElem? v (by omega)]
  · rw [if_neg hj, if_neg (by omega)]

/-- A word write of a buffer window that is no busy hazard (R241). -/
theorem step_of_write_buf {s : State} {sp : Space} {k : Nat} {v : Word} {rest : List Turn}
    (hk : k < if sp = .snap then 0x400000 else 0x100000) (h4 : k % 4 = 0)
    (hsafe : ¬(s.status.busy = true ∧ writeHazard (.buf sp k) = true)) (hl : legalParams s.params = true)
    (h : WriteNext s (windowBase sp + k) v rest) : step s = .next (writeBuf sp k v { s with turns := rest }) := by
  obtain ⟨hlt, hmod⟩ := window_offset_aligned hk h4
  rw [step_of_write hl h, busWrite_word hlt hmod, targetOf_window sp hk, if_neg hsafe, if_neg (by simp)]
  rfl

/-- Settles O16: the write stores, in the buffer of its window, its bytes below the capacity. -/
theorem bufferWriteStoresItsBytes : Obligations.BufferWriteStoresItsBytes := by
  intro s k v rest hl hb h4 hk
  have hsafe {tgt : Target} : ¬(s.status.busy = true ∧ writeHazard tgt = true) := by simp [hb]
  exact ⟨fun h => ⟨_, step_of_write_buf (sp := .txp) hk h4 hsafe hl h, Memory.read?_write_bytesBelow _ _ k v⟩,
    fun h => ⟨_, step_of_write_buf (sp := .wire) hk h4 hsafe hl h, Memory.read?_write_bytesBelow _ _ k v⟩⟩

/-- Settles O19: the two windows are no hazard to write, and `writeBuf` stores nothing in them. -/
theorem resultBuffersIgnoreHostWrites : Obligations.ResultBuffersIgnoreHostWrites := by
  rintro s off v rest hl h4 (⟨hlo, hhi⟩ | ⟨hlo, hhi⟩) h
  · obtain ⟨k, rfl⟩ := Nat.exists_eq_add_of_le hlo
    exact step_of_write_buf (sp := .rxp) (show k < 0x100000 by omega) (by omega) (by simp [writeHazard]) hl h
  · obtain ⟨k, rfl⟩ := Nat.exists_eq_add_of_le hlo
    exact step_of_write_buf (sp := .snap) (show k < 0x400000 by omega) (by omega) (by simp [writeHazard]) hl h

/-! ### Reads -/

/-- A buffer word is its four bytes, most significant first (R240). -/
theorem State.busWord_eq_some_iff {s : State} {sp : Space} {k : Nat} {v : Word} :
    s.busWord sp k = some v ↔ ∀ j, j < 4 → s.busByte sp (k + j) = some (v.extractLsb' (24 - 8 * j) 8) := by
  constructor
  · intro h j hj
    unfold State.busWord at h
    split at h
    · rename_i b0 b1 b2 b3 h0 h1 h2 h3
      cases h
      rw [← wordBytes_getElem? _ hj, wordBytes_beWord]
      match j, hj with
      | 0, _ => exact h0
      | 1, _ => exact h1
      | 2, _ => exact h2
      | 3, _ => exact h3
    · cases h
  · intro h
    have h0 : s.busByte sp k = _ := h 0 (by omega)
    simp only [State.busWord, h0, h 1 (by omega), h 2 (by omega), h 3 (by omega)]
    exact congrArg some (beWord_wordBytes v)

/-- There is no buffer word where one of its four bytes has no value. -/
theorem State.busWord_eq_none_iff {s : State} {sp : Space} {k : Nat} :
    s.busWord sp k = none ↔ ∃ j, j < 4 ∧ s.busByte sp (k + j) = none := by
  constructor
  · intro h
    by_contra hall
    have some_byte (j : Nat) (hj : j < 4) : ∃ b, s.busByte sp (k + j) = some b :=
      Option.ne_none_iff_exists'.1 fun hn => hall ⟨j, hj, hn⟩
    obtain ⟨b0, h0⟩ := some_byte 0 (by omega)
    obtain ⟨b1, h1⟩ := some_byte 1 (by omega)
    obtain ⟨b2, h2⟩ := some_byte 2 (by omega)
    obtain ⟨b3, h3⟩ := some_byte 3 (by omega)
    rw [Nat.add_zero] at h0
    simp [State.busWord, h0, h1, h2, h3] at h
  · rintro ⟨j, hj, hn⟩
    by_contra hsome
    obtain ⟨v, hv⟩ := Option.ne_none_iff_exists'.1 hsome
    rw [State.busWord_eq_some_iff.1 hv j hj] at hn
    cases hn

/-- A byte of a buffer has no bus value exactly where it lies below the capacity and is not written (R63, R64). -/
theorem State.busByte_eq_none_iff {s : State} {sp : Space} {k : Nat} :
    s.busByte sp k = none ↔ k < capacity s.params sp ∧ Memory.read? (s.buffer sp) k = none := by
  unfold State.busByte
  split <;> simp_all

/-- A word read of a buffer window that is no busy hazard (R240). -/
theorem step_of_read_buf {s : State} {sp : Space} {k : Nat} {rest : List Turn}
    (hk : k < if sp = .snap then 0x400000 else 0x100000) (h4 : k % 4 = 0)
    (hsafe : s.status.busy = true → sp = .txp) (hl : legalParams s.params = true)
    (h : ReadNext s (windowBase sp + k) rest) : step s = readTarget (.buf sp k) { s with turns := rest } := by
  obtain ⟨hlt, hmod⟩ := window_offset_aligned hk h4
  have hsafe : ¬(s.status.busy = true ∧ readHazard (.buf sp k) = true) := by
    rintro ⟨hb, hh⟩
    rw [hsafe hb] at hh
    cases hh
  rw [step_of_read hl h, busRead_word hlt hmod, targetOf_window sp hk, if_neg hsafe]

/-- Settles O17: the read returns the buffer word, and faults where there is none. -/
theorem bufferReadReturnsItsBytes : Obligations.BufferReadReturnsItsBytes := by
  intro s sp k rest hl hsafe h4 hk h
  have hstep := step_of_read_buf hk h4 hsafe hl h
  cases hw : ({ s with turns := rest } : State).busWord sp k with
  | none =>
    obtain ⟨j, hj, hn⟩ := State.busWord_eq_none_iff.1 hw
    obtain ⟨hcap, hn⟩ := State.busByte_eq_none_iff.1 hn
    refine ⟨fun _ => by rw [hstep, readTarget, hw], fun hall => ?_⟩
    obtain ⟨b, hb⟩ := hall j hj hcap
    cases hb.symm.trans hn
  | some v =>
    have hbytes := State.busWord_eq_some_iff.1 hw
    refine ⟨?_, fun _ => ⟨v, by rw [hstep, readTarget, hw]; rfl, fun j hj => (hbytes j hj).symm⟩⟩
    rintro ⟨j, hj, hn⟩
    cases (hbytes j hj).symm.trans (State.busByte_eq_none_iff.2 hn)

end Sys2Proof.Machine
end

section
/-! PROOFS. What a bus read shows, and that showing it is all it does (spec/20_memory.md section 5). -/

namespace Sys2Proof.Machine

open Sys2Proof

/-- The word a target shows the host, or none where a byte of it is unwritten (R64, R65, R240). -/
def Target.shows : Target → State → Option Word
  | .reg r, s => some (readReg r s)
  | .reserved, _ => some 0
  | .buf sp k, s => s.busWord sp k

theorem readTarget_eq (tgt : Target) (s : State) :
    readTarget tgt s = (tgt.shows s).elim (.fault .uninitRead) fun v => .next (s.returns v) := by
  cases tgt with
  | reg r => rfl
  | reserved => rfl
  | buf sp k => rw [readTarget, Target.shows]; cases s.busWord sp k <;> rfl

theorem readTarget_eq_next_iff {tgt : Target} {s t : State} :
    readTarget tgt s = .next t ↔ ∃ v, tgt.shows s = some v ∧ t = s.returns v := by
  rw [readTarget_eq]
  cases tgt.shows s <;> simp [eq_comm]

/-- No target shows PEND, the turns to come or what the host has read. -/
theorem Target.shows_update (tgt : Target) (s : State) (p : Word) (ts : List Turn) (d : Option Word) :
    tgt.shows { s with pend := p, turns := ts, readData := d } = tgt.shows s := by
  cases tgt with
  | reg r => cases r <;> rfl
  | reserved => rfl
  | buf sp k => cases sp <;> rfl

/-- When a bus read answers, and what (R62, R240, R247). -/
theorem busRead_eq_next_iff {size : AccessSize} {off : Offset} {s t : State} :
    busRead size off s = .next t ↔
      supported size off = true ∧ ¬(s.status.busy = true ∧ readHazard (targetOf off.toNat) = true) ∧
      ∃ v, (targetOf off.toNat).shows s = some v ∧ t = s.returns v := by
  rw [busRead, ← readTarget_eq_next_iff]
  by_cases hsup : supported size off = false
  · simp [hsup]
  by_cases hhaz : s.status.busy = true ∧ readHazard (targetOf off.toNat) = true
  · simp [hsup, hhaz]
  · rw [if_neg hsup, if_neg hhaz, eq_true_of_ne_false hsup]
    exact ⟨fun h => ⟨rfl, hhaz, h⟩, fun ⟨_, _, h⟩ => h⟩

/-- Settles O20: a read that answers records the word shown, which the record itself does not change. -/
theorem readsHaveNoSideEffect : Obligations.ReadsHaveNoSideEffect := by
  intro s t size off rest ht h
  have hl := legal_of_step_next h
  rw [step_of_turn hl ht] at h
  obtain ⟨hsup, hhaz, v, hv, rfl⟩ := busRead_eq_next_iff.1 h
  refine ⟨⟨v, rfl⟩, fun rest' => ?_⟩
  have hv' := (Target.shows_update _ s s.pend rest' (some v)).trans
    ((Target.shows_update _ s s.pend rest s.readData).symm.trans hv)
  refine Eq.trans (step_of_turn ?_ rfl) (busRead_eq_next_iff.2 ⟨hsup, hhaz, v, hv', rfl⟩)
  exact hl

end Sys2Proof.Machine
end

section
/-! PROOFS. When a step faults or is refused (spec/00_scope.md section 4, spec/43_host_interface.md section 2,
spec/60_exceptions.md section 4). -/

namespace Sys2Proof.Machine

open Sys2Proof

/-! ### Unsupported accesses -/

theorem supported_eq_false_iff {size : AccessSize} {off : Offset} :
    supported size off = false ↔ size ≠ .word ∨ off.toNat % 4 ≠ 0 := by
  rw [supported, decide_eq_false_iff_not, not_and_or]

theorem supported_eq_true_iff {size : AccessSize} {off : Offset} :
    supported size off = true ↔ size = .word ∧ off.toNat % 4 = 0 := decide_eq_true_iff

/-- Settles O21: the width and the alignment are the first thing a read and a write look at. -/
theorem unsupportedAccessFaults : Obligations.UnsupportedAccessFaults := by
  rintro s size off v rest hl hbad (ht | ht)
  · rw [step_of_turn hl ht, takeTurn, busRead, if_pos (supported_eq_false_iff.2 hbad), perform_done]
  · rw [step_of_turn hl ht, takeTurn, busWrite, if_pos (supported_eq_false_iff.2 hbad), perform_done]

/-! ### Busy hazards -/

/-- The offsets that the four buffer windows take up (R63). -/
theorem exists_window_of_offset {off : Nat}
    (h : (0x0100000 ≤ off ∧ off < 0x0400000) ∨ (0x1000000 ≤ off ∧ off < 0x1400000)) :
    ∃ (sp : Space) (k : Nat), (k < if sp = .snap then 0x400000 else 0x100000) ∧ off = windowBase sp + k := by
  rcases h with h | h
  · by_cases h2 : off < 0x0200000
    · exact ⟨.txp, off - 0x0100000, show off - 0x0100000 < 0x100000 by omega, by simp only [windowBase]; omega⟩
    by_cases h3 : off < 0x0300000
    · exact ⟨.wire, off - 0x0200000, show off - 0x0200000 < 0x100000 by omega, by simp only [windowBase]; omega⟩
    · exact ⟨.rxp, off - 0x0300000, show off - 0x0300000 < 0x100000 by omega, by simp only [windowBase]; omega⟩
  · exact ⟨.snap, off - 0x1000000, show off - 0x1000000 < 0x400000 by omega, by simp only [windowBase]; omega⟩

/-- The hazards by offset, in the whole window (R247). -/
theorem hazards_of_offset {off : Nat} (h4 : off % 4 = 0) :
    (writeHazard (targetOf off) = true ↔
      (0x030 ≤ off ∧ off ≤ 0x048) ∨ (0x060 ≤ off ∧ off ≤ 0x094) ∨ (0x0A0 ≤ off ∧ off ≤ 0x0C0) ∨
      (0x0100000 ≤ off ∧ off < 0x0300000)) ∧
    (readHazard (targetOf off) = true ↔
      (0x050 ≤ off ∧ off ≤ 0x05C) ∨ off = 0x0C0 ∨ (0x100 ≤ off ∧ off ≤ 0x14C) ∨
      (0x0200000 ≤ off ∧ off < 0x0400000) ∨ (0x1000000 ≤ off ∧ off < 0x1400000)) := by
  by_cases hreg : off < 0x150
  · obtain ⟨hw, hr⟩ := hazards_of_register_offset h4 hreg
    exact ⟨hw.trans (by omega), hr.trans (by omega)⟩
  by_cases hres : (0x150 ≤ off ∧ off < 0x0100000) ∨ (0x0400000 ≤ off ∧ off < 0x1000000) ∨ 0x1400000 ≤ off
  · rw [targetOf_reserved hres]
    exact ⟨iff_of_false (by simp [writeHazard]) (by omega), iff_of_false (by simp [readHazard]) (by omega)⟩
  obtain ⟨sp, k, hk, rfl⟩ := exists_window_of_offset (off := off) (by omega)
  rw [targetOf_window sp hk]
  cases sp <;>
    simp only [windowBase, writeHazard, readHazard, reduceCtorEq, Bool.false_eq_true, if_true, if_false, true_iff,
      false_iff] at hk ⊢ <;>
    omega

/-- When a bus write is a busy hazard (R247). -/
theorem perform_busWrite_busyHazard_iff {size : AccessSize} {off : Offset} {v : Word} {s : State}
    (hsup : supported size off = true) :
    perform (busWrite size off v s) = .fault .busyHazard ↔
      s.status.busy = true ∧ writeHazard (targetOf off.toNat) = true := by
  constructor
  · intro h
    rcases busWrite_fault_cases h with ⟨⟨⟩, -⟩ | ⟨-, -, hhaz⟩
    exact hhaz
  · intro hhaz
    rw [busWrite, hsup, if_neg Bool.noConfusion, if_pos hhaz, perform_done]

/-- When a bus read is a busy hazard (R247). -/
theorem busRead_busyHazard_iff {size : AccessSize} {off : Offset} {s : State} (hsup : supported size off = true) :
    busRead size off s = .fault .busyHazard ↔ s.status.busy = true ∧ readHazard (targetOf off.toNat) = true := by
  constructor
  · intro h
    rcases busRead_fault_cases h with ⟨⟨⟩, -⟩ | ⟨-, -, hhaz⟩ | ⟨-, ⟨⟩, -⟩
    exact hhaz
  · intro hhaz
    rw [busRead, hsup, if_neg Bool.noConfusion, if_pos hhaz]

/-- Settles O22: a supported access faults BusyHazard exactly on a hazard, and the hazards are known by offset. -/
theorem busyHazardsAreExactlyTheForbiddenAccesses : Obligations.BusyHazardsAreExactlyTheForbiddenAccesses := by
  intro s off v rest hl hb h4 hlt
  have hoff : (BitVec.ofNat 25 off).toNat = off := (BitVec.toNat_ofNat off 25).trans (Nat.mod_eq_of_lt hlt)
  have hsup := supported_word hlt h4
  obtain ⟨hwrite, hread⟩ := hazards_of_offset h4
  refine ⟨fun h => ?_, fun h => ?_⟩
  · rw [step_of_write hl h, perform_busWrite_busyHazard_iff hsup, hoff, hwrite]
    exact and_iff_right hb
  · rw [step_of_read hl h, busRead_busyHazard_iff hsup, hoff, hread]
    exact and_iff_right hb

/-! ### The model faults -/

/-- An offset of a buffer window is an aligned one exactly when the place in the buffer is (R63). -/
theorem targetOf_eq_buf {off k : Nat} {sp : Space} (h : targetOf off = .buf sp k) (h4 : off % 4 = 0) :
    off = windowBase sp + k ∧ k % 4 = 0 := by
  by_cases hreg : off < 0x0100000
  · rw [targetOf, if_pos hreg] at h
    split at h <;> cases h
  by_cases hres : (0x0400000 ≤ off ∧ off < 0x1000000) ∨ 0x1400000 ≤ off
  · rw [targetOf_reserved (.inr hres)] at h
    cases h
  obtain ⟨sp', k', hk, rfl⟩ := exists_window_of_offset (off := off) (by omega)
  rw [targetOf_window sp' hk] at h
  cases h
  exact ⟨rfl, by cases sp <;> simp only [windowBase] at h4 <;> omega⟩

/-- BadAccess needs an unsupported access (R62, R268). -/
theorem unsupported_of_step_badAccess {s : State} (h : step s = .fault .badAccess) :
    ∃ (size : AccessSize) (off : Offset) (rest : List Turn), (size ≠ .word ∨ off.toNat % 4 ≠ 0) ∧
      (s.turns = .read size off :: rest ∨ ∃ v, s.turns = .write size off v :: rest) := by
  obtain ⟨-, ⟨size, off, rest, ht, hx⟩ | ⟨size, off, v, rest, ht, hx⟩ | ⟨_, _, -, -, -, hx⟩⟩ := step_fault_cases h
  · rcases busRead_fault_cases hx with ⟨-, hsup⟩ | ⟨-, ⟨⟩, -⟩ | ⟨-, ⟨⟩, -⟩
    exact ⟨size, off, rest, supported_eq_false_iff.1 hsup, .inl ht⟩
  · rcases busWrite_fault_cases hx with ⟨-, hsup⟩ | ⟨-, ⟨⟩, -⟩
    exact ⟨size, off, rest, supported_eq_false_iff.1 hsup, .inr ⟨v, ht⟩⟩
  · cases (exec_fault_cases hx).1

/-- BusyHazard needs an access that is a hazard while BUSY = 1 (R247, R268). -/
theorem hazard_of_step_busyHazard {s : State} (h : step s = .fault .busyHazard) :
    s.status.busy = true ∧ ∃ (off : Nat) (rest : List Turn), off % 4 = 0 ∧
      (((∃ v, WriteNext s off v rest) ∧ writeHazard (targetOf off) = true) ∨
        (ReadNext s off rest ∧ readHazard (targetOf off) = true)) := by
  obtain ⟨-, ⟨size, off, rest, ht, hx⟩ | ⟨size, off, v, rest, ht, hx⟩ | ⟨_, _, -, -, -, hx⟩⟩ := step_fault_cases h
  · rcases busRead_fault_cases hx with ⟨⟨⟩, -⟩ | ⟨hsup, -, hb, hhaz⟩ | ⟨-, ⟨⟩, -⟩
    obtain ⟨rfl, h4⟩ := supported_eq_true_iff.1 hsup
    exact ⟨hb, off.toNat, rest, h4, .inr ⟨by rwa [ReadNext, BitVec.ofNat_toNat, BitVec.setWidth_eq], hhaz⟩⟩
  · rcases busWrite_fault_cases hx with ⟨⟨⟩, -⟩ | ⟨hsup, -, hb, hhaz⟩
    obtain ⟨rfl, h4⟩ := supported_eq_true_iff.1 hsup
    exact ⟨hb, off.toNat, rest, h4, .inl ⟨⟨v, by rwa [WriteNext, BitVec.ofNat_toNat, BitVec.setWidth_eq]⟩, hhaz⟩⟩
  · cases (exec_fault_cases hx).1

/-- UninitRead needs a host read of an unwritten buffer byte, or the completion of a codec command that reads one
(R64, R268). -/
theorem unwritten_of_step_uninitRead {s : State} (h : step s = .fault .uninitRead) :
    (∃ (sp : Space) (k j : Nat) (rest : List Turn), ReadNext s (windowBase sp + k) rest ∧ k % 4 = 0 ∧ j < 4 ∧
      k + j < capacity s.params sp ∧ Memory.read? (s.buffer sp) (k + j) = none) ∨
    (s.status.busy = true ∧ (∃ rest, EngineNext s rest) ∧
      ((s.pend = 0x00000010 ∧ ∃ j, j < s.tx.len.toNat ∧ Memory.read? s.txp j = none) ∨
        (s.pend = 0x00000011 ∧ ∃ j, j < s.wireLen.toNat ∧ Memory.read? s.wire j = none) ∨
        (s.pend = 0x00000012 ∧ ∃ j, j < s.rx.len.toNat ∧ Memory.read? s.rxp j = none))) := by
  obtain ⟨-, ⟨size, off, rest, ht, hx⟩ | ⟨size, off, v, rest, ht, hx⟩ | ⟨rest, i, he, hb, hd, hx⟩⟩ := step_fault_cases h
  · left
    rcases busRead_fault_cases hx with ⟨⟨⟩, -⟩ | ⟨-, ⟨⟩, -⟩ | ⟨hsup, -, sp, k, htgt, hword⟩
    obtain ⟨rfl, h4⟩ := supported_eq_true_iff.1 hsup
    obtain ⟨hoff, hk⟩ := targetOf_eq_buf htgt h4
    obtain ⟨j, hj, hbyte⟩ := State.busWord_eq_none_iff.1 hword
    obtain ⟨hcap, hnone⟩ := State.busByte_eq_none_iff.1 hbyte
    have hnext : ReadNext s (windowBase sp + k) rest := by
      rwa [ReadNext, ← hoff, BitVec.ofNat_toNat, BitVec.setWidth_eq]
    exact ⟨sp, k, j, rest, hnext, hk, hj, hcap, by cases sp <;> exact hnone⟩
  · rcases busWrite_fault_cases hx with ⟨⟨⟩, -⟩ | ⟨-, ⟨⟩, -⟩
  · right
    refine ⟨hb, ⟨rest, he⟩, ?_⟩
    rw [← encode_of_decodeCmd hd]
    rcases (exec_fault_cases hx).2 with ⟨rfl, hj⟩ | ⟨rfl, hj⟩ | ⟨rfl, hj⟩
    · exact .inl ⟨by decide, hj⟩
    · exact .inr (.inl ⟨by decide, hj⟩)
    · exact .inr (.inr ⟨by decide, hj⟩)

/-- Settles O32: each fault is traced back to the turn that raised it. -/
theorem modelFaultsAriseOnlyWhereTheSpecSays : Obligations.ModelFaultsAriseOnlyWhereTheSpecSays := by
  refine fun s => ⟨⟨fun h => ⟨(step_fault_cases h).1, unsupported_of_step_badAccess h⟩, ?_⟩, fun h => ?_,
    unwritten_of_step_uninitRead⟩
  · rintro ⟨hl, size, off, rest, hbad, ht | ⟨v, ht⟩⟩
    · exact unsupportedAccessFaults s size off 0 rest hl hbad (.inl ht)
    · exact unsupportedAccessFaults s size off v rest hl hbad (.inr ht)
  · obtain ⟨hb, off, rest, h4, haccess⟩ := hazard_of_step_busyHazard h
    rw [(hazards_of_offset h4).1, (hazards_of_offset h4).2] at haccess
    exact ⟨hb, off, rest, h4, haccess⟩

/-! ### Refusals -/

theorem busRead_ne_refused {size : AccessSize} {off : Offset} {s : State} {r : Refusal} :
    busRead size off s ≠ .refused r := by
  rw [busRead, readTarget_eq]
  cases (targetOf off.toNat).shows s <;> split_ifs <;> nofun

theorem perform_busWrite_ne_refused {size : AccessSize} {off : Offset} {v : Word} {s : State} {r : Refusal} :
    perform (busWrite size off v s) ≠ .refused r := by
  rcases busWrite_cases size off v s with hx | hx | ⟨-, -, -, hx⟩ | ⟨-, -, -, hx⟩ | ⟨-, -, hx⟩ <;> rw [hx]
  case inr.inr.inl => exact (exec_stops .tick s).1 r
  all_goals nofun

theorem perform_engineTurn_ne_refused {s : State} {r : Refusal} : perform (engineTurn s) ≠ .refused r := by
  rcases engineTurn_cases s with ⟨-, hx⟩ | ⟨-, i, -, hx⟩ | ⟨-, -, hx⟩ <;> rw [hx]
  · nofun
  · exact (exec_stops i s).1 r
  · nofun

/-- A legal instance is never refused, whoever has the next turn. -/
theorem step_ne_refused {s : State} {r : Refusal} (hl : legalParams s.params = true) : step s ≠ .refused r := by
  cases ht : s.turns with
  | nil => exact step_of_engine hl (.inr ⟨ht, rfl⟩) ▸ perform_engineTurn_ne_refused
  | cons t rest =>
    rw [step_of_turn hl ht]
    cases t with
    | read size off => exact busRead_ne_refused
    | write size off v => exact perform_busWrite_ne_refused
    | engine => exact perform_engineTurn_ne_refused
    | reset w => nofun

/-- Settles O24: the illegal instance is the only refusal. -/
theorem onlyIllegalInstancesAreRefused : Obligations.OnlyIllegalInstancesAreRefused := by
  intro s r
  have hlegal : legalParams s.params = true ↔ 1 ≤ s.params.n ∧ s.params.n ≤ 65536 ∧ 1 ≤ s.params.slotDuration ∧
      s.params.slotDuration ≤ 2 ^ 63 - 1 ∧ s.params.maxPayload ≤ 1048506 := by
    rw [legalParams, decide_eq_true_eq]
    omega
  rw [← hlegal]
  constructor
  · intro h
    by_cases hl : legalParams s.params = true
    · exact absurd h (step_ne_refused hl)
    · rw [step_of_illegal (eq_false_of_ne_true hl)] at h
      cases h
      exact ⟨rfl, hl⟩
  · rintro ⟨rfl, hl⟩
    exact step_of_illegal (eq_false_of_ne_true hl)

end Sys2Proof.Machine
end

section
/-! PROOFS. The engine's turn, the errors it can end with, and a tick before it (spec/43_host_interface.md section 2,
spec/60_exceptions.md sections 1, 2 and 6, spec/70_reset_and_hazards.md section 3). -/

namespace Sys2Proof.Machine

open Sys2Proof

/-! ### The engine's turn -/

/-- Settles O4: the engine's turn with BUSY = 1 runs what the decoder answers. -/
theorem engineRunsThePendingCommand : Obligations.EngineRunsThePendingCommand := by
  intro s rest i hl hb he hd
  rw [step_of_engine hl he]
  simp [engineTurn, hb, hd]

/-- Settles O23: the engine's turn with BUSY = 0 does nothing but use itself up. -/
theorem idleHoldsAllState : Obligations.IdleHoldsAllState := by
  intro s rest hl hb he
  rw [step_of_engine hl he]
  simp [engineTurn, hb]

/-! ### The errors of each command -/

/-- A success leaves no error, and an error its own code. -/
theorem Status.succeed_errors (st : Status) {codes : List (BitVec 8)} (h : 0 ∈ codes) :
    st.succeed.busy = false ∧ (st.succeed.err = false ↔ st.succeed.errcode = 0) ∧ st.succeed.errcode ∈ codes :=
  ⟨rfl, iff_of_true rfl rfl, h⟩

theorem Status.fail_errors (st : Status) {e : ErrorKind} {codes : List (BitVec 8)} (h : e.code ∈ codes) :
    (st.fail e).busy = false ∧ ((st.fail e).err = false ↔ (st.fail e).errcode = 0) ∧ (st.fail e).errcode ∈ codes :=
  ⟨rfl, iff_of_false Bool.noConfusion e.code_ne_zero, h⟩

/-- Settles O34: each command's ways to complete, with the code of each. -/
theorem eachCommandRaisesOnlyItsErrors : Obligations.EachCommandRaisesOnlyItsErrors := by
  intro i s t hp h
  cases i with
  | clkCompute =>
    rcases exec_clkCompute_cases h with ⟨-, rfl⟩ | ⟨-, -, rfl⟩
    · exact Status.fail_errors _ (by decide)
    · exact Status.succeed_errors _ (by decide)
  | codecEncode =>
    rcases exec_codecEncode_cases h with ⟨-, rfl⟩ | ⟨-, _, -, rfl⟩
    · exact Status.fail_errors _ (by decide)
    · exact Status.succeed_errors _ (by decide)
  | codecDecode =>
    rcases exec_codecDecode_cases h with ⟨-, rfl⟩ | ⟨-, rfl⟩ | ⟨-, -, _, _, -, -, -, rfl⟩
    · exact Status.fail_errors _ (by decide)
    · exact Status.fail_errors _ (by decide)
    · exact Status.succeed_errors _ (by decide)
  | codecValidate =>
    rcases exec_codecValidate_cases h with ⟨-, rfl⟩ | ⟨-, -, rfl⟩ | ⟨-, -, _, -, ⟨-, rfl⟩ | ⟨-, rfl⟩⟩
    · exact Status.fail_errors _ (by decide)
    · exact Status.fail_errors _ (by decide)
    · exact Status.fail_errors _ (by decide)
    · exact Status.succeed_errors _ (by decide)
  | schedAllocate priority =>
    rcases exec_schedAllocate_cases h with ⟨_, _, -, rfl⟩ | ⟨-, ⟨_, _, -, rfl⟩ | ⟨-, rfl⟩⟩
    · exact Status.succeed_errors (codes := [0, 6]) _ (by decide)
    · exact Status.succeed_errors (codes := [0, 6]) _ (by decide)
    · exact Status.fail_errors (codes := [0, 6]) _ (by decide)
  | schedAllocConsec count =>
    rcases exec_schedAllocConsec_cases h with rfl | ⟨-, -, _, -, rfl⟩
    · exact Status.fail_errors (codes := [0, 7]) _ (by decide)
    · exact Status.succeed_errors (codes := [0, 7]) _ (by decide)
  | schedRelease slotId =>
    rcases exec_schedRelease_cases h with ⟨-, rfl⟩ | ⟨-, rfl⟩
    · exact Status.fail_errors (codes := [0, 8]) _ (by decide)
    · exact Status.succeed_errors (codes := [0, 8]) _ (by decide)
  | schedSnapshot =>
    cases exec_schedSnapshot_cases h
    exact Status.succeed_errors _ (by decide)
  | tick => cases hp

/-! ### A tick while a command is pending -/

/-- Settles O30: the TICK write is one step, which R230 describes, and the engine's turn then runs the command. -/
theorem pendingCommandSeesAnInterveningTick : Obligations.PendingCommandSeesAnInterveningTick := by
  intro s i rest hl hb hd hp ht
  have htick := ((step_of_write_tick hl ht).trans (if_pos rfl)).trans
    (tickAdvancesThePointer.2 { s with turns := .engine :: rest } hp (legalParams_n hl).2)
  rw [runFor_succ_of_next htick, runFor_one]
  exact engineRunsThePendingCommand _ rest i hl hb (.inl rfl) hd

end Sys2Proof.Machine
end

section
/-! PROOFS. What no step changes, and what each piece of state changes by (spec/00_scope.md section 4, spec/10_state.md
sections 4 to 6, spec/41_codec.md section 3, spec/42_scheduler.md sections 1 and 6). -/

namespace Sys2Proof.Machine

open Sys2Proof

/-! ### The frame of an instruction, piece by piece -/

section
variable {i : Instr} {s t : State} (h : exec i s = .next t)
include h

theorem exec_params : t.params = s.params := (exec_frame h).1

theorem exec_turns : t.turns = s.turns := by
  obtain ⟨-, -, -, -, -, -, -, -, hturns, -⟩ := exec_frame h
  exact hturns

/-- No instruction writes what the host alone writes (R28 to R33). -/
theorem exec_operands : t.nowLo = s.nowLo ∧ t.nowHi = s.nowHi ∧ t.clk = s.clk ∧ t.nodeId = s.nodeId ∧ t.tx = s.tx ∧
    t.txp = s.txp := by
  obtain ⟨-, -, hlo, hhi, hclk, hnode, htx, htxp, -⟩ := exec_frame h
  exact ⟨hlo, hhi, hclk, hnode, htx, htxp⟩

theorem exec_ptr (hi : i.port = .cmd) : t.ptr = s.ptr := by
  obtain ⟨-, -, -, -, -, -, -, -, -, -, -, -, hptr, -⟩ := exec_frame h
  exact (hptr (by rintro rfl; cases hi)).1

theorem exec_rx (hi : i ≠ .codecDecode) : t.rx = s.rx ∧ t.rxp = s.rxp := by
  obtain ⟨-, -, -, -, -, -, -, -, -, -, -, -, -, -, hrx, -⟩ := exec_frame h
  exact hrx hi

theorem exec_table (hi : ∀ n, i ≠ .schedAllocate n ∧ i ≠ .schedAllocConsec n ∧ i ≠ .schedRelease n) :
    t.table = s.table := by
  obtain ⟨-, -, -, -, -, -, -, -, -, -, -, -, -, -, -, -, htable⟩ := exec_frame h
  exact htable hi

/-- The scheduler's commands set records of the table and neither add nor drop one (R38). -/
theorem exec_table_length : t.table.length = s.table.length := by
  cases i with
  | schedAllocate priority =>
    rcases exec_schedAllocate_cases h with ⟨_, _, -, rfl⟩ | ⟨-, ⟨_, _, -, rfl⟩ | ⟨-, rfl⟩⟩ <;> simp
  | schedAllocConsec count => rcases exec_schedAllocConsec_cases h with rfl | ⟨-, -, _, -, rfl⟩ <;> simp
  | schedRelease slotId => rcases exec_schedRelease_cases h with ⟨-, rfl⟩ | ⟨-, rfl⟩ <;> simp
  | _ => rw [exec_table h (by simp)]

end

/-! ### What a bus write leaves -/

theorem storeTo_params (tgt : Target) (v : Word) (s : State) : (storeTo tgt v s).params = s.params :=
  (storeTo_frame tgt v s).1

theorem storeTo_turns (tgt : Target) (v : Word) (s : State) : (storeTo tgt v s).turns = s.turns := by
  obtain ⟨-, -, -, -, -, -, -, hturns, -⟩ := storeTo_frame tgt v s
  exact hturns

/-- The host's stores leave what the engine and the tick driver alone write (R241). -/
theorem storeTo_results (tgt : Target) (v : Word) (s : State) : (storeTo tgt v s).ptr = s.ptr ∧
    (storeTo tgt v s).table = s.table ∧ (storeTo tgt v s).rx = s.rx ∧ (storeTo tgt v s).rxp = s.rxp := by
  obtain ⟨-, hptr, -, hrx, hrxp, -, htable, -⟩ := storeTo_frame tgt v s
  exact ⟨hptr, htable, hrx, hrxp⟩

/-! ### What every step leaves -/

section
variable {s t : State} (h : step s = .next t)
include h

theorem step_params : t.params = s.params := by
  cases stepKind_of_step h with
  | command _ _ _ hx => exact (exec_params hx).trans rfl
  | tick _ _ hx => exact (exec_params hx).trans rfl
  | store => exact storeTo_params ..
  | _ => rfl

theorem step_table_length (hlen : s.table.length = s.params.n) : t.table.length = s.params.n := by
  cases stepKind_of_step h with
  | command _ _ _ hx => exact (exec_table_length hx).trans hlen
  | tick _ _ hx => exact (exec_table_length hx).trans hlen
  | store =>
    obtain ⟨-, htable, -⟩ := storeTo_results (targetOf _) _ _
    exact (congrArg List.length htable).trans hlen
  | reset => exact List.length_replicate
  | _ => exact hlen

/-- A step uses up one turn, if one is to come. -/
theorem step_turns : t.turns = s.turns.tail := by
  have engine {rest : List Turn} (he : EngineNext s rest) : rest = s.turns.tail := by
    rcases he with ht | ⟨ht, rfl⟩ <;> rw [ht] <;> rfl
  have taken {a : Turn} {rest : List Turn} (ht : s.turns = a :: rest) : rest = s.turns.tail := by rw [ht]; rfl
  cases stepKind_of_step h with
  | idle he | illegal he => exact engine he
  | command he _ _ hx => exact (exec_turns hx).trans (engine he)
  | tick ht _ hx => exact (exec_turns hx).trans (taken ht)
  | store ht => exact (storeTo_turns ..).trans (taken ht)
  | read ht | noTick ht | reset ht => exact taken ht

end

/-- Settles O25: instructions, stores and reset all leave the parameters and the number of records. -/
theorem parametersAndTableSizeNeverChange : Obligations.ParametersAndTableSizeNeverChange :=
  fun _ _ h => ⟨step_params h, step_table_length h⟩

/-! ### The owners of the pieces of state -/

/-- The OPC of a command that may change the table (R93). -/
theorem opcode_of_table_ne {w : Word} {i : Instr} {s t : State} (hd : decodeCmd w = .ok i) (hx : exec i s = .next t)
    (hne : t.table ≠ s.table) :
    w.extractLsb' 0 8 = 0x20 ∨ w.extractLsb' 0 8 = 0x21 ∨ w.extractLsb' 0 8 = 0x22 := by
  rw [← encode_of_decodeCmd hd]
  cases i with
  | schedAllocate priority => exact .inl (opcOf_cmdWord ..)
  | schedAllocConsec count => exact .inr (.inl (opcOf_cmdWord ..))
  | schedRelease slotId => exact .inr (.inr (opcOf_cmdWord ..))
  | _ => exact absurd (exec_table hx (by simp)) hne

/-- Settles O26: of the things a step can be, only those named touch the table or PTR. -/
theorem schedulerStateChangesOnlyByItsOwners : Obligations.SchedulerStateChangesOnlyByItsOwners := by
  intro s t h
  cases stepKind_of_step h with
  | command he hb hd hx =>
    exact ⟨fun hne => .inl ⟨hb, ⟨_, he⟩, opcode_of_table_ne hd hx hne⟩,
      fun hne => absurd (exec_ptr hx (decodeCmd_port hd)) hne⟩
  | tick ht hbit hx => exact ⟨fun hne => absurd (exec_table hx (by simp)) hne, fun _ => .inl ⟨_, _, ht, hbit⟩⟩
  | store =>
    obtain ⟨hptr, htable, -, -⟩ := storeTo_results (targetOf _) _ _
    exact ⟨fun hne => absurd htable hne, fun hne => absurd hptr hne⟩
  | reset ht => exact ⟨fun _ => .inr ⟨_, _, ht⟩, fun _ => .inr ⟨_, _, ht⟩⟩
  | _ => exact ⟨fun hne => absurd rfl hne, fun hne => absurd rfl hne⟩

/-- A DECODE that leaves an error leaves the RX frame (R161). -/
theorem exec_codecDecode_err {s t : State} (hx : exec .codecDecode s = .next t) (hne : t.rx ≠ s.rx ∨ t.rxp ≠ s.rxp) :
    t.status.err = false := by
  rcases exec_codecDecode_cases hx with ⟨-, rfl⟩ | ⟨-, rfl⟩ | ⟨-, -, _, _, -, -, -, rfl⟩
  · simp at hne
  · simp at hne
  · rfl

/-- Settles O27: of the things a step can be, only DECODE and reset touch the RX frame. -/
theorem rxFrameChangesOnlyByDecode : Obligations.RxFrameChangesOnlyByDecode := by
  intro s t h hne
  cases stepKind_of_step h with
  | @command _ i _ he hb hd hx =>
    by_cases hi : i = .codecDecode
    · subst hi
      exact .inl ⟨hb, ⟨_, he⟩, (encode_of_decodeCmd hd).symm, exec_codecDecode_err hx hne⟩
    · simp [exec_rx hx hi] at hne
  | tick _ _ hx => simp [exec_rx hx] at hne
  | store => simp [storeTo_results] at hne
  | reset ht => exact .inr ⟨_, _, ht⟩
  | _ => simp at hne

/-- Settles O28: of the things a step can be, only a bus write and reset touch an operand. -/
theorem operandsChangeOnlyByHostWrites : Obligations.OperandsChangeOnlyByHostWrites := by
  intro s t h hne
  cases stepKind_of_step h with
  | command _ _ _ hx => simp [exec_operands hx] at hne
  | tick ht | noTick ht | store ht => exact .inl ⟨_, _, _, ht⟩
  | reset ht => exact .inr ⟨_, _, ht⟩
  | _ => simp at hne

/-! ### A pending command completes -/

/-- The engine's turn with a command pending ends with BUSY = 0 (R244). -/
theorem step_engine_not_busy {s t : State} {rest : List Turn} (hb : s.status.busy = true) (he : EngineNext s rest)
    (h : step s = .next t) : t.status.busy = false := by
  rcases step_engine_succeeds_or_raises hb he h with hok | ⟨e, rfl⟩
  · rw [hok]; rfl
  · rfl

/-- Settles O31, by induction on the turns to come: each step uses one up, and with none left the engine moves. -/
theorem pendingCommandCompletes : Obligations.PendingCommandCompletes := by
  intro s hl hb
  induction hts : s.turns generalizing s with
  | nil =>
    refine ⟨1, le_rfl, ?_⟩
    rw [runFor_one]
    cases hs : step s with
    | next t => exact .inr ⟨t, rfl, step_engine_not_busy hb (.inr ⟨hts, rfl⟩) hs⟩
    | fault f => exact .inl ⟨f, rfl⟩
    | refused r => exact absurd hs (step_ne_refused hl)
  | cons a rest ih =>
    cases hs : step s with
    | next t =>
      cases hbt : t.status.busy with
      | false => exact ⟨1, Nat.le_add_left .., .inr ⟨t, by rw [runFor_one, hs], hbt⟩⟩
      | true =>
        obtain ⟨k, hk, hrun⟩ := ih t (step_params hs ▸ hl) hbt (by rw [step_turns hs, hts]; rfl)
        exact ⟨k + 1, Nat.succ_le_succ hk, by rwa [runFor_succ_of_next hs]⟩
    | fault f => exact ⟨1, Nat.le_add_left .., .inl ⟨f, runFor_succ_of_fault hs⟩⟩
    | refused r => exact absurd hs (step_ne_refused hl)

end Sys2Proof.Machine
end

section
/-! PROOFS. What CK_REF detects: its rounds are linear over the exclusive or (spec/41_codec.md section 1). -/

namespace Sys2Proof.Machine

open Sys2Proof

/-! ### The rotate -/

/-- A word rotated left by 1, `n` times. -/
def rotations (n : Nat) (c : Word) : Word := (fun x => x.rotateLeft 1)^[n] c

theorem rotateLeft_one_getLsbD (c : Word) {i : Nat} (hi : i < 32) :
    (c.rotateLeft 1).getLsbD i = c.getLsbD ((i + 31) % 32) := by
  rw [BitVec.getLsbD_rotateLeft]
  by_cases h0 : i < 1
  · obtain rfl : i = 0 := by omega
    simp
  · simp [h0, hi, show (i + 31) % 32 = i - 1 by omega]

theorem rotateLeft_one_xor (c d : Word) : (c ^^^ d).rotateLeft 1 = c.rotateLeft 1 ^^^ d.rotateLeft 1 :=
  BitVec.eq_of_getLsbD_eq fun i hi => by
    rw [BitVec.getLsbD_xor, rotateLeft_one_getLsbD _ hi, rotateLeft_one_getLsbD _ hi, rotateLeft_one_getLsbD _ hi,
      BitVec.getLsbD_xor]

theorem rotations_succ (n : Nat) (c : Word) : rotations (n + 1) c = (rotations n c).rotateLeft 1 :=
  Function.iterate_succ_apply' ..

theorem rotations_getLsbD (n : Nat) (c : Word) {i : Nat} (hi : i < 32) :
    (rotations n c).getLsbD i = c.getLsbD ((i + 31 * n) % 32) := by
  induction n generalizing i with
  | zero => rw [Nat.mul_zero, Nat.add_zero, Nat.mod_eq_of_lt hi]; rfl
  | succ n ih =>
    rw [rotations_succ, rotateLeft_one_getLsbD _ hi, ih (Nat.mod_lt _ (by decide))]
    congr 1
    omega

/-- 32 rotations come full circle. -/
theorem rotations_32 (c : Word) : rotations 32 c = c :=
  BitVec.eq_of_getLsbD_eq fun i hi => by
    rw [rotations_getLsbD _ _ hi, show (i + 31 * 32) % 32 = i by omega]

theorem rotateLeft_one_injective : Function.Injective fun c : Word => c.rotateLeft 1 :=
  Function.LeftInverse.injective (g := rotations 31) fun c => rotations_32 c

/-! ### The rounds -/

theorem ckStep_xor_left (c d : Word) (b : Byte) : ckStep (c ^^^ d) b = ckStep c b ^^^ d.rotateLeft 1 := by
  rw [ckStep, ckStep, rotateLeft_one_xor, BitVec.xor_assoc, BitVec.xor_assoc, BitVec.xor_comm (d.rotateLeft 1)]

theorem ckStep_xor_right (c : Word) (b m : Byte) : ckStep c (b ^^^ m) = ckStep c b ^^^ m.setWidth 32 := by
  rw [ckStep, ckStep, BitVec.setWidth_xor, BitVec.xor_assoc]

theorem ckStep_left_injective (b : Byte) : Function.Injective fun c => ckStep c b := fun _ _ h =>
  rotateLeft_one_injective ((BitVec.xor_left_inj _).1 h)

theorem ckStep_right_injective (c : Word) : Function.Injective (ckStep c) := fun b b' h => by
  have hext : b.setWidth 32 = b'.setWidth 32 := (BitVec.xor_right_inj _).1 h
  have hnat := congrArg BitVec.toNat hext
  have := b.isLt
  have := b'.isLt
  simp only [BitVec.toNat_setWidth] at hnat
  exact BitVec.eq_of_toNat_eq (by omega)

/-- A difference in the running value is rotated once per byte. -/
theorem foldl_ckStep_xor (ys : List Byte) (c d : Word) :
    ys.foldl ckStep (c ^^^ d) = ys.foldl ckStep c ^^^ rotations ys.length d := by
  induction ys generalizing c d with
  | nil => rfl
  | cons y ys ih => rw [List.foldl_cons, ckStep_xor_left, ih]; rfl

theorem foldl_ckStep_injective (ys : List Byte) : Function.Injective fun c => ys.foldl ckStep c := by
  induction ys with
  | nil => exact Function.injective_id
  | cons y ys ih => exact ih.comp (ckStep_left_injective y)

theorem ckRef_append_cons (xs ys : List Byte) (b : Byte) :
    ckRef (xs ++ b :: ys) = ys.foldl ckStep (ckStep (ckRef xs) b) := List.foldl_append

/-- Settles O41: a round is injective in the byte and in the running value; and the mask put in by the first of the two
bytes has come full circle when the second takes it out. -/
theorem ckRefDetectsOneByteAndMissesPairs : Obligations.CkRefDetectsOneByteAndMissesPairs := by
  refine ⟨fun xs ys b b' hne h => hne ?_, fun xs ys zs a b m hlen => ?_⟩
  · rw [ckRef_append_cons, ckRef_append_cons] at h
    exact ckStep_right_injective _ (foldl_ckStep_injective ys h)
  · have hcircle : (rotations ys.length (m.setWidth 32)).rotateLeft 1 = m.setWidth 32 := by
      rw [hlen, ← rotations_succ, rotations_32]
    have hsecond (c : Word) : ckStep (c ^^^ rotations ys.length (m.setWidth 32)) (b ^^^ m) = ckStep c b := by
      rw [ckStep_xor_right, ckStep_xor_left, hcircle, BitVec.xor_assoc, BitVec.xor_self, BitVec.xor_zero]
    rw [ckRef_append_cons, ckRef_append_cons, ckRef_append_cons, ckRef_append_cons, ckStep_xor_right (ckRef xs),
      foldl_ckStep_xor ys, hsecond]

end Sys2Proof.Machine
end

section
/-! PROOFS. What VALIDATE reads (spec/41_codec.md sections 1, 3 and 4). -/

namespace Sys2Proof.Machine

open Sys2Proof

/-- Settles O47: the invariant has the whole RX payload written, which is all VALIDATE reads of RXP. -/
theorem validateAlwaysCompletes : Obligations.ValidateAlwaysCompletes := by
  intro s h
  obtain ⟨pay, hpay⟩ : ∃ pay, Memory.readRange s.rxp 0 s.rx.len.toNat = some pay := by
    refine Option.ne_none_iff_exists'.1 fun hnone => ?_
    obtain ⟨j, hj, hn⟩ := (Memory.readRange_eq_none_iff ..).1 hnone
    obtain ⟨b, hb⟩ := h.rxPayloadWritten j hj
    rw [Nat.zero_add, hb] at hn
    cases hn
  by_cases hh : s.rx.header = headerSentinel
  · by_cases hf : s.rx.footer = footerSentinel
    · by_cases hck : rxChecksum s pay = s.rx.cksum
      · exact ⟨_, exec_codecValidate_of_checksum_eq hh hf hpay hck⟩
      · exact ⟨_, exec_codecValidate_of_checksum_ne hh hf hpay hck⟩
    · exact ⟨_, exec_codecValidate_of_footer_ne hh hf⟩
  · exact ⟨_, exec_codecValidate_of_header_ne hh⟩

/-- Settles O48: each of VALIDATE's checks comes out the same on the changed RX frame: none of them reads the three fields. -/
theorem validateIgnoresNodeIdAndFragmentId : Obligations.ValidateIgnoresNodeIdAndFragmentId := by
  intro s t node n f h
  refine ⟨(exec_rx h (by decide)).1, ?_⟩
  rcases exec_codecValidate_cases h with
    ⟨hh, rfl⟩ | ⟨hh, hf, rfl⟩ | ⟨hh, hf, pay, hpay, ⟨hck, rfl⟩ | ⟨hck, rfl⟩⟩
  · exact exec_codecValidate_of_header_ne hh
  · exact exec_codecValidate_of_footer_ne hh hf
  · exact exec_codecValidate_of_checksum_ne hh hf hpay hck
  · exact exec_codecValidate_of_checksum_eq
      (s := { s with rx := { s.rx with node := node, nodeLen := n, fragId := f } }) hh hf hpay hck

end Sys2Proof.Machine
end

section
/-! PROOFS. What a step takes no notice of: PEND while BUSY = 0 (spec/10_state.md section 8), and the clock operands outside
CLK_COMPUTE (spec/40_clock.md). -/

namespace Sys2Proof.Machine

open Sys2Proof

/-! ### PEND while BUSY = 0 -/

/-- Two outcomes are the same, or they are two idle states that differ in PEND alone. -/
inductive AgreeUpToPend : Host.Outcome State Fault Refusal → Host.Outcome State Fault Refusal → Prop where
  | same (o : Host.Outcome State Fault Refusal) : AgreeUpToPend o o
  | idle {t : State} (p : Word) (hb : t.status.busy = false) : AgreeUpToPend (.next t) (.next { t with pend := p })

/-- Only the CMD write stores PEND, so any other store commutes with a change of it. -/
theorem storeTo_pend_update {tgt : Target} (h : tgt ≠ .reg .cmd) (v w : Word) (s : State) :
    storeTo tgt v { s with pend := w } = { storeTo tgt v s with pend := w } := by
  cases tgt with
  | reg r =>
    cases r with
    | cmd => exact absurd rfl h
    | _ => rfl
  | buf sp k => cases sp <;> rfl
  | reserved => rfl

/-- Only the CMD write changes BUSY. -/
theorem storeTo_busy {tgt : Target} (h : tgt ≠ .reg .cmd) (v : Word) (s : State) :
    (storeTo tgt v s).status.busy = s.status.busy := by
  rcases storeTo_cases tgt v s with ⟨htgt, -⟩ | ⟨-, e⟩ | ⟨r, -, e⟩ | ⟨sp, k, -, e⟩ | ⟨-, e⟩
  · exact absurd htgt h
  · rw [e]; exact Status.hostWrite_busy ..
  · rw [e, writeReg_status]
  · rw [e, writeBuf_status]
  · rw [e]

section
variable {s : State} (hb : s.status.busy = false) (w : Word)
include hb

theorem storeTo_agree (tgt : Target) (v : Word) :
    AgreeUpToPend (.next (storeTo tgt v s)) (.next (storeTo tgt v { s with pend := w })) := by
  by_cases hcmd : tgt = .reg .cmd
  · have haccept (p : Word) : storeTo tgt v { s with pend := p } = s.acceptCmd v := by
      rw [hcmd]
      exact if_neg (by simp [hb])
    have hsame : storeTo tgt v s = storeTo tgt v { s with pend := w } := (haccept s.pend).trans (haccept w).symm
    exact hsame ▸ .same _
  · rw [storeTo_pend_update hcmd v w s]
    exact .idle w ((storeTo_busy hcmd v s).trans hb)

theorem busRead_agree (size : AccessSize) (off : Offset) :
    AgreeUpToPend (busRead size off s) (busRead size off { s with pend := w }) := by
  have hshows := (targetOf off.toNat).shows_update s w s.turns s.readData
  rw [busRead, busRead, readTarget_eq, readTarget_eq, hshows]
  split_ifs
  · exact .same _
  · exact .same _
  · cases (targetOf off.toNat).shows s with
    | some v => exact .idle w hb
    | none => exact .same _

theorem busWrite_agree (size : AccessSize) (off : Offset) (v : Word) :
    AgreeUpToPend (perform (busWrite size off v s)) (perform (busWrite size off v { s with pend := w })) := by
  rw [busWrite, busWrite]
  split_ifs
  · exact .same _
  · exact .same _
  · rw [tickWrite, tickWrite]
    cases hd : decode .tick v with
    | ok i =>
      obtain ⟨rfl, -⟩ := (decodeTick_eq_ok_iff v i).1 hd
      exact .idle w hb
    | error e => exact .idle w hb
  · exact storeTo_agree hb w _ v

theorem engineTurn_agree : AgreeUpToPend (perform (engineTurn s)) (perform (engineTurn { s with pend := w })) := by
  rw [engineTurn, engineTurn, if_pos hb, if_pos hb]
  exact .idle w hb

theorem takeTurn_agree (t : Turn) :
    AgreeUpToPend (perform (takeTurn t s)) (perform (takeTurn t { s with pend := w })) := by
  cases t with
  | read size off => exact busRead_agree hb w size off
  | write size off v => exact busWrite_agree hb w size off v
  | engine => exact engineTurn_agree hb w
  | reset r => exact .same _

/-- A step from an idle state takes no notice of PEND. -/
theorem step_agree : AgreeUpToPend (step s) (step { s with pend := w }) := by
  by_cases hl : legalParams s.params = true
  · by_cases hts : s.turns = []
    · have he : EngineNext s [] := .inr ⟨hts, rfl⟩
      rw [step_of_engine hl he, step_of_engine (s := { s with pend := w }) hl he]
      exact engineTurn_agree (s := { s with turns := [] }) hb w
    · obtain ⟨t, rest, hts⟩ := List.exists_cons_of_ne_nil hts
      rw [step_of_turn hl hts, step_of_turn (s := { s with pend := w }) hl hts]
      exact takeTurn_agree (s := { s with turns := rest }) hb w t
  · have hl : legalParams s.params = false := eq_false_of_ne_true hl
    rw [step_of_illegal hl, step_of_illegal (s := { s with pend := w }) hl]
    exact .same _

end

/-- Settles O29: what agrees up to PEND is the same outcome, or an idle next state. -/
theorem pendIsNotReadWhileIdle : Obligations.PendIsNotReadWhileIdle := by
  intro s w hb
  have hagree := step_agree hb w
  generalize step s = o, step { s with pend := w } = o' at hagree
  cases hagree with
  | same => exact ⟨fun t ht => ⟨t.pend, ht, fun _ => rfl⟩, fun _ h => h, fun _ h => h⟩
  | idle p hbt =>
    refine ⟨fun t ht => ?_, nofun, nofun⟩
    cases ht
    exact ⟨p, rfl, fun hbusy => absurd hbusy (by simp [hbt])⟩

/-! ### The clock operands -/

/-- The outcome with its next state, if it has one, changed by `f`. -/
def mapNext (f : State → State) : Host.Outcome State Fault Refusal → Host.Outcome State Fault Refusal
  | .next t => .next (f t)
  | .fault r => .fault r
  | .refused r => .refused r

/-- No instruction but CLK_COMPUTE reads or writes the clock operands. -/
theorem exec_clk_update {i : Instr} (hi : i ≠ .clkCompute) (s : State) (c : ClkRegs) :
    exec i { s with clk := c } = mapNext (fun t => { t with clk := c }) (exec i s) := by
  cases i with
  | clkCompute => exact absurd rfl hi
  | codecEncode =>
    simp only [exec, execCodecEncode]
    split
    · rfl
    · split <;> rfl
  | codecDecode =>
    simp only [exec, execCodecDecode]
    split
    · rfl
    · split
      · rfl
      · split
        · rfl
        · split
          · rfl
          · split <;> rfl
  | codecValidate =>
    have hck (pay : List Byte) : rxChecksum { s with clk := c } pay = rxChecksum s pay := rfl
    simp only [exec, execCodecValidate, hck]
    split
    · rfl
    · split
      · rfl
      · split
        · rfl
        · split
          · rfl
          · split <;> rfl
  | schedAllocate priority =>
    have hnow : State.now { s with clk := c } = s.now := rfl
    simp only [exec, execSchedAllocate, hnow]
    split
    · rfl
    · split <;> rfl
  | schedAllocConsec count =>
    simp only [exec, execSchedAllocConsec]
    split
    · rfl
    · split <;> rfl
  | schedRelease slotId =>
    simp only [exec, execSchedRelease]
    split <;> rfl
  | schedSnapshot => rfl
  | tick => rfl

/-- CLK_COMPUTE neither reads nor writes PTR or the table. -/
theorem exec_clkCompute_scheduler_update (s : State) (p : Word) (tbl : Table) :
    exec .clkCompute { s with ptr := p, table := tbl } =
      mapNext (fun t => { t with ptr := p, table := tbl }) (exec .clkCompute s) := by
  simp only [exec, execClkCompute]
  split <;> rfl

/-- Settles O39: the two changes commute with the completion, and the frames. -/
theorem mapperAndSchedulerAreNotLinked : Obligations.MapperAndSchedulerAreNotLinked := by
  refine fun s t i p tbl c => ⟨fun h => ⟨exec_ptr h rfl, exec_table h (by simp), ?_⟩, fun hi h => ?_⟩
  · rw [exec_clkCompute_scheduler_update, h]
    rfl
  · obtain ⟨-, -, hclk, -⟩ := exec_operands h
    refine ⟨hclk, ?_⟩
    rw [exec_clk_update hi, h]
    rfl

end Sys2Proof.Machine
end
